-- ==== Sys2Proof/Syntax.lean ====
section
/-!
DEFINITION. The ten commands of the block (30_encoding.md R71), one constructor per row of spec/opcode_table.json.
No command carries an operand (R70, R72): operands stand in fixed registers.
-/

namespace Sys2Proof

/-- The commands of R71, in the order of the opcode map. -/
inductive Instr where
  /-- `WBIT` (R109): send the bit `ARG[0]`. -/
  | wbit
  /-- `RBIT` (R110): receive one bit into `DATA`. -/
  | rbit
  /-- `WBYTE` (R122): send the byte `ARG`. -/
  | wbyte
  /-- `RBYTE` (R123): receive one byte into `DATA`. -/
  | rbyte
  /-- `RESET` (R131): reset the bus and detect presence. -/
  | reset
  /-- `SKIP` (R134): Skip ROM. -/
  | skip
  /-- `RDROM` (R135): Read ROM. -/
  | rdrom
  /-- `MATCH` (R136): Match ROM. -/
  | matchRom
  /-- `SEARCH` (R151): one search pass. -/
  | search
  /-- `CRC8` (R178): one CRC step over `ARG`. -/
  | crc8
  deriving DecidableEq, Repr

end Sys2Proof
end

