-- ==== Sys2Proof/Word.lean ====
section
/-!
DEFINITION. The words of the block (00_scope.md R5, R7): every host-visible register is `REG_W` = 8 bits wide, a host
address is `ADDR_W` = 4 bits, the slot timer `TMR_W` = 9 bits, the search position counter 7 bits (10_state.md R36).
All values are unsigned.
-/

namespace Sys2Proof

/-- An 8-bit register value; bit 0 is the least significant (R7). -/
abbrev Byte := BitVec 8

/-- A host register address (R51). -/
abbrev Addr := BitVec 4

/-- A number of microseconds that fits the slot timer (R38, R92). -/
abbrev Micros := BitVec 9

/-- The search position counter `P` (R36). -/
abbrev Position := BitVec 7

end Sys2Proof
end

