-- ==== Sys2Proof/Decode.lean ====
section
/-!
DEFINITION. Decoding a command byte (30_encoding.md R70, R71), total and refusing by name, and the encoder.
-/

namespace Sys2Proof

/-- Why bytes are no command. -/
inductive Reject where
  /-- No byte is left to decode. -/
  | endOfBytes
  /-- R73: the value selects no command. -/
  | illegalOpcode (v : Byte)
  deriving DecidableEq, Repr

/-- One row of the opcode map (R71). -/
structure OpcodeRow where
  mask : Byte
  value : Byte
  instr : Instr
  deriving DecidableEq, Repr

/-- The opcode map of R71: the decoder matches the whole byte, mask 0xFF. -/
def opcodeMap : List OpcodeRow :=
  [ ⟨0xFF, 0x01, .wbit⟩, ⟨0xFF, 0x02, .rbit⟩, ⟨0xFF, 0x03, .wbyte⟩, ⟨0xFF, 0x04, .rbyte⟩,
    ⟨0xFF, 0x05, .reset⟩, ⟨0xFF, 0x06, .skip⟩, ⟨0xFF, 0x07, .rdrom⟩, ⟨0xFF, 0x08, .matchRom⟩,
    ⟨0xFF, 0x09, .search⟩, ⟨0xFF, 0x0A, .crc8⟩ ]

/-- Whether a byte falls under a row. -/
def OpcodeRow.covers (r : OpcodeRow) (v : Byte) : Bool := (v &&& r.mask) == r.value

/-- R71, R73: the command a value written to `CMD` selects. -/
def decodeByte (v : Byte) : Except Reject Instr :=
  match opcodeMap.find? (fun r => r.covers v) with
  | some r => .ok r.instr
  | none => .error (.illegalOpcode v)

/-- R70: one command and the bytes after it. Every command is one byte long. -/
def decode : List Byte → Except Reject (Instr × List Byte)
  | [] => .error .endOfBytes
  | v :: rest =>
    match decodeByte v with
    | .ok i => .ok (i, rest)
    | .error e => .error e

/-- R71: the opcode of a command. -/
def encodeByte : Instr → Byte
  | .wbit => 0x01
  | .rbit => 0x02
  | .wbyte => 0x03
  | .rbyte => 0x04
  | .reset => 0x05
  | .skip => 0x06
  | .rdrom => 0x07
  | .matchRom => 0x08
  | .search => 0x09
  | .crc8 => 0x0A

/-- The bytes of a command (R70). -/
def encode (i : Instr) : List Byte := [encodeByte i]

/-- The opcode map's numbering as bytes: bits 7..0 are the first byte, bits 15..8 the second, and so on; a word
shorter than a command has zeros above. -/
def wordBytes : Nat → Nat → List Byte
  | 0, w => [BitVec.ofNat 8 w]
  | 1, w => [BitVec.ofNat 8 w]
  | n + 2, w => BitVec.ofNat 8 w :: wordBytes (n + 1) (w / 256)

/-- The command the decoder reads from a table word, where it is the whole word. -/
def decodeTableWord (nbits w : Nat) : Option Instr :=
  match decode (wordBytes (nbits / 8) (w % 2 ^ nbits)) with
  | .ok (i, []) => some i
  | .ok (_, _ :: _) => none
  | .error _ => none

end Sys2Proof
end

