-- ==== Sys2Proof/Config.lean ====
section
/-!
DEFINITION. What an instance of the block fixes (00_scope.md R5) and the one free value of the model.
The parameters a model "should quantify over" (92_eei_decisions.md) are a record that stands in State, so that a
statement about every state is a statement about every value of them (assumption 6).
-/

namespace Sys2Proof

/-- `SEARCH_BYTE_ORDER` (R5, R58, R153): the order in which a search walks the ROM buffer's bytes. -/
inductive ByteOrder where
  /-- Wire position 1 is in `ROM[7]`. -/
  | desc
  /-- Wire position 1 is in `ROM[0]`. -/
  | asc
  deriving DecidableEq, Repr

/-- The slot table of R90, each value already fitting `TMR_W` bits (R92). -/
structure SlotTable where
  /-- Write-1 low time; read-slot low time. -/
  tA : Micros
  /-- Write-1 recovery after release. -/
  tB : Micros
  /-- Write-0 low time. -/
  tC : Micros
  /-- Write-0 recovery after release. -/
  tD : Micros
  /-- Read slot: release to sample. -/
  tE : Micros
  /-- Read slot: recovery after the sample. -/
  tF : Micros
  /-- Reset low time. -/
  tH : Micros
  /-- Reset: release to presence sample. -/
  tI : Micros
  /-- Reset: recovery after the presence sample. -/
  tJ : Micros
  deriving DecidableEq, Repr

/-- A slot table as plain numbers of microseconds, before it is known to fit the timer (R92, R227). -/
structure SlotTimes where
  tA : Nat
  tB : Nat
  tC : Nat
  tD : Nat
  tE : Nat
  tF : Nat
  tH : Nat
  tI : Nat
  tJ : Nat
  deriving DecidableEq, Repr

/-- The parameters of R5 that a claim quantifies over. -/
structure Params where
  /-- `PIN`: the Bus Handle, opaque and never inspected (R5, R72). -/
  pin : Nat
  /-- `T_A` to `T_J` (R90). -/
  slots : SlotTable
  /-- `CMD_SKIP_ROM` (R79). -/
  cmdSkipRom : Byte
  /-- `CMD_READ_ROM` (R79). -/
  cmdReadRom : Byte
  /-- `CMD_MATCH_ROM` (R79). -/
  cmdMatchRom : Byte
  /-- `CMD_SEARCH_ROM` (R79). -/
  cmdSearchRom : Byte
  /-- `SEARCH_BYTE_ORDER` (R58). -/
  searchOrder : ByteOrder
  deriving DecidableEq, Repr

/-- The default slot times of R90, in microseconds. -/
def Config.defaultTimes : SlotTimes :=
  { tA := 6, tB := 64, tC := 60, tD := 10, tE := 9, tF := 55, tH := 480, tI := 70, tJ := 410 }

/-- A table of times as the timer holds it; meaningful where every entry fits (`SlotTimes.wf`, R92). -/
def SlotTimes.toTable (t : SlotTimes) : SlotTable :=
  { tA := BitVec.ofNat 9 t.tA, tB := BitVec.ofNat 9 t.tB, tC := BitVec.ofNat 9 t.tC
    tD := BitVec.ofNat 9 t.tD, tE := BitVec.ofNat 9 t.tE, tF := BitVec.ofNat 9 t.tF
    tH := BitVec.ofNat 9 t.tH, tI := BitVec.ofNat 9 t.tI, tJ := BitVec.ofNat 9 t.tJ }

/-- The values this hardware takes (R5). UNVERIFIED: the slot roles and the four command bytes are the spec's own,
from general knowledge (G1, G2; assumption 13); no statement rests on them unless it names them. -/
def Config.defaultParams : Params :=
  { pin := 0, slots := Config.defaultTimes.toTable
    cmdSkipRom := 0xCC, cmdReadRom := 0x33, cmdMatchRom := 0x55, cmdSearchRom := 0xF0
    searchOrder := .desc }

/-- `SEARCH_FAILED` (R5, R154): the sentinel no position 0..64 equals. -/
def Config.searchFailed : Byte := 0xFF

/-- `CRC_POLY` (R5, R175). -/
def Config.crcPoly : Byte := 0x18

/-- `ROM_BITS` (R5): the positions a search walks. -/
def Config.romBits : Nat := 64

/-- The largest number of primitives a command executes: a completed SEARCH (R165, R228). -/
def Config.maxPrimitives : Nat := 1456

/-- FREE VALUE (R61, 93_implementation_defined.md item 1): the line environment's contribution to the `n`-th
`Sample()` of a run, where State lists no answer for it. Nothing constrains it (assumption 2). -/
opaque Config.envLevel : Nat → Bool

end Sys2Proof
end

