-- ==== Sys2Proof/Machine/State.lean ====
section
/-!
DEFINITION. The state of the block (10_state.md R20), plain data, and its reset value (R40). After the block's own
state come the model's own fields: the environment's inputs, the observation of R11 and the parameters, which R42
says are not state of the block.
-/

namespace Sys2Proof.Machine

/-- `SEQ.op` (R35): which command runs. CRC8 never occupies the sequencer. -/
inductive Op where
  | idle
  | wbit
  | rbit
  | wbyte
  | rbyte
  | reset
  | skip
  | rdrom
  | matchRom
  | search
  deriving DecidableEq, Repr

/-- `SEQ.STG` (R35): stage 0 sends the ROM command byte, stage 1 moves the payload; in a search position stages 1, 2
and 3 are first read, second read and write-back. -/
inductive Stage where
  | s0
  | s1
  | s2
  | s3
  deriving DecidableEq, Repr

/-- The events of the trace (R10, R207). -/
inductive Event where
  /-- `ATOM+`. -/
  | atomBegin
  /-- `LOW`. -/
  | low
  /-- `DLY(n)`. -/
  | dly (n : Micros)
  /-- `REL`. -/
  | rel
  /-- `SMP(v)`. -/
  | smp (v : Bool)
  /-- `ATOM-`. -/
  | atomEnd
  /-- `RST`: a block reset (R207). -/
  | rst
  deriving DecidableEq, Repr

/-- A request of the host at the port (R52, R53): a read or a write of one register. -/
inductive HostReq where
  | read (a : Addr)
  | write (a : Addr) (v : Byte)
  deriving DecidableEq, Repr

/-- The status results a command raises (R12, R186). CrcMismatch is the host's finding (R189). -/
inductive Status where
  | absentDevice
  | noResponse
  | illegalCommand
  deriving DecidableEq, Repr

/-- The state of R20, then the model's own fields. -/
structure State where
  /-- `ARG` (R21). -/
  arg : Byte
  /-- `DATA` (R22). -/
  data : Byte
  /-- `STATUS.PRES` (R28). -/
  pres : Bool
  /-- `STATUS.NF` (R29). -/
  nf : Bool
  /-- `STATUS.ILL` (R30). -/
  ill : Bool
  /-- `CRC` (R23). -/
  crc : Byte
  /-- `LASTDISC` (R24). -/
  lastDisc : Byte
  /-- `NEWDISC` (R25). -/
  newDisc : Byte
  /-- `ROM[0..7]` (R26). -/
  rom : Vector Byte 8
  /-- `DRV` (R32). -/
  drv : Bool
  /-- `ATOM` (R33). -/
  atom : Bool
  /-- `BUSY` (R34). -/
  busy : Bool
  /-- `SEQ.op` (R35). -/
  op : Op
  /-- `SEQ.STG` (R35). -/
  stg : Stage
  /-- `I` (R36). -/
  i : Fin 8
  /-- `K` (R36). -/
  k : Fin 8
  /-- `PH` (R36). -/
  ph : Fin 8
  /-- `P` (R36). -/
  p : Position
  /-- `SH` (R37). -/
  sh : Byte
  /-- `B1` (R37). -/
  b1 : Bool
  /-- `B2` (R37). -/
  b2 : Bool
  /-- `BIT` (R37). -/
  bit : Bool
  /-- `ND` (R37). -/
  nd : Byte
  /-- `TMR` (R38). -/
  tmr : Micros
  /-- Model's own: the local `s` of R108 and R130, the level the last `Sample()` returned (assumption 8). -/
  smp : Bool
  /-- Model's own: the trace of R11, NEWEST event first (assumption 9). -/
  log : List Event
  /-- Model's own: the environment's answers to the next `Sample()`s (R61, assumption 2). -/
  answers : List Bool
  /-- Model's own: how many `Sample()`s the environment has answered (assumption 2). -/
  samples : Nat
  /-- Model's own: the level of the input `rst` at the next actions (R205, assumption 5). -/
  rst : List Bool
  /-- Model's own: what the host asks at the next actions it has, oldest first (R55, assumption 4). -/
  host : List (Option HostReq)
  /-- Model's own: the last value driven on `h_rdata` (R47, assumption 10). -/
  hRdata : Byte
  /-- Model's own: the parameters of R5, which no step changes (assumption 6). -/
  params : Params
  deriving DecidableEq, Repr

/-- Reasons to stop with a fault: none. R185: the block raises no synchronous exception and takes no trap; every
failure is a status result (assumption 11). -/
inductive Fault where
  deriving DecidableEq, Repr

/-- Reasons to refuse an instruction. -/
inductive Refusal where
  /-- Raised by an arm of `exec` for an instruction that has no meaning yet. Safe: the machine stops. -/
  | notModelled (mnemonic : String)
  deriving DecidableEq, Repr

/-- R40: the state after block reset. DESIGN CHOICE: the working registers, which R40 leaves unspecified, are 0
(assumption 3); the environment asks and answers nothing, and the parameters are those of R5. -/
def State.reset : State :=
  { arg := 0x00, data := 0x00, pres := false, nf := false, ill := false, crc := 0x00
    lastDisc := 0x00, newDisc := 0x00, rom := Vector.replicate 8 0x00
    drv := false, atom := false, busy := false
    op := .idle, stg := .s0, i := 0, k := 0, ph := 0
    p := 0, sh := 0x00, b1 := false, b2 := false, bit := false, nd := 0x00, tmr := 0
    smp := false, log := [], answers := [], samples := 0, rst := [], host := []
    hRdata := 0x00, params := Config.defaultParams }

end Sys2Proof.Machine
end

