-- ==== Sys2Proof/Machine/Ops.lean ====
section
/-!
DEFINITION. The named operations over the state: the line (20_memory.md R60, R61), the event trace (R11), the slot
timer (40_bit_timer.md R92), the six bus primitives (00_scope.md R10), the ROM buffer's bits, the end of a command
(R12, R35), the status results (R12, R186) and block reset (R205, R207). There is no exception entry and no return
from one (R185, R195, R196): `raiseStatus` is the one thing the spec has in their place.
-/

namespace Sys2Proof.Machine

/-- The trace in the order of R11, oldest event first. -/
def State.trace (s : State) : List Event := s.log.reverse

/-- Append an event to the trace (R11). -/
def emit (e : Event) (s : State) : State := { s with log := e :: s.log }

/-- The environment's contribution to the `n`-th `Sample()` from here (R61): the listed answer, else the free value. -/
def State.envAt (s : State) (n : Nat) : Bool :=
  match s.answers[n]? with
  | some v => v
  | none => Config.envLevel (s.samples + n)

/-- R60: the wired-AND of the block's driver and the environment, at the instant of the next `Sample()`. -/
def State.line (s : State) : Bool := !s.drv && s.envAt 0

/-- R92: one `tick_us` of the slot timer; it stops at 0 and never wraps. -/
def tickTimer (t : Micros) : Micros := if t = 0 then 0 else t - 1

/-- R92: the slot timer after `n` ticks. -/
def runTimer : Nat → Micros → Micros
  | 0, t => t
  | n + 1, t => runTimer n (tickTimer t)

/-- `DriveLow()` (R10, R32). -/
def driveLow (s : State) : State := emit .low { s with drv := true }

/-- `Release()` (R10, R32). -/
def release (s : State) : State := emit .rel { s with drv := false }

/-- `Sample()` (R10, R61): the line level goes to the pseudocode's local `s`, and the environment's answer is used
up. -/
def sample (s : State) : State :=
  let v := s.line
  emit (.smp v) { s with smp := v, answers := s.answers.tail, samples := s.samples + 1 }

/-- `Delay(n)` (R91, R92): `TMR` is loaded with `n` and counts down to 0. DESIGN CHOICE: one step of the engine, in
which time always advances (R224; assumption 7). -/
def delay (n : Micros) (s : State) : State := emit (.dly n) { s with tmr := runTimer n.toNat n }

/-- `AtomicBegin()` (R106). -/
def atomicBegin (s : State) : State := emit .atomBegin { s with atom := true }

/-- `AtomicEnd()` (R106). -/
def atomicEnd (s : State) : State := emit .atomEnd { s with atom := false }

/-- Bit `b` of `ROM[i]` (R8). -/
def romBit (rom : Vector Byte 8) (i b : Fin 8) : Bool := (rom[i]).getLsbD b

/-- A byte with bit `b` set to `v`. -/
def setBit (x : Byte) (b : Fin 8) (v : Bool) : Byte :=
  if v then x ||| ((1 : Byte) <<< b.val) else x &&& ~~~((1 : Byte) <<< b.val)

/-- `ROM[i][b] <- v` (R9). -/
def setRomBit (rom : Vector Byte 8) (i b : Fin 8) (v : Bool) : Vector Byte 8 :=
  rom.set i (setBit rom[i] b v)

/-- `ROM[i] <- v` (R135). -/
def setRomByte (rom : Vector Byte 8) (i : Fin 8) (v : Byte) : Vector Byte 8 := rom.set i v

/-- `BUSY <- 0; pc <- IDLE` (R12, R34, R35): the sequencer returns to `(IDLE, 0, 0, 0, 0)`. -/
def endCommand (s : State) : State :=
  { s with busy := false, op := .idle, stg := .s0, i := 0, k := 0, ph := 0 }

/-- R186: the registers a status result is recorded in. -/
def recordStatus : Status → State → State
  | .absentDevice, s => { s with pres := false }
  | .noResponse, s => { s with newDisc := Config.searchFailed, nf := true }
  | .illegalCommand, s => { s with ill := true }

/-- `raise <Status>` (R12): record the status, then end the command at once. It transfers control nowhere (R185). -/
def raiseStatus (st : Status) (s : State) : State := endCommand (recordStatus st s)

/-- R205, R207: block reset, at any point. The running command is abandoned, the held host request is dropped, every
piece of block state takes its value of R40, and the trace gains `RST`. The environment's future and the parameters
are not state of the block and stay. -/
def blockReset (s : State) : State :=
  { State.reset with
    log := .rst :: s.log, answers := s.answers, samples := s.samples, rst := s.rst.tail
    host := s.host.tail, hRdata := s.hRdata, params := s.params }

/-- Whether `rst` is asserted at this action (R205). -/
def State.rstNow (s : State) : Bool :=
  match s.rst with
  | [] => false
  | v :: _ => v

/-- An action in which `rst` is not asserted uses up its level. -/
def passRst (s : State) : State := { s with rst := s.rst.tail }

end Sys2Proof.Machine
end

