-- ==== Sys2Proof/Machine/Flags.lean ====
section
/-!
DEFINITION. The status register and its flags (10_state.md R27 to R30).
-/

namespace Sys2Proof.Machine

/-- R27, R52: what a read of `STATUS` gives, `{0b00000, ILL, NF, PRES}`. -/
def statusByte (s : State) : Byte :=
  (if s.ill then 0x04 else 0x00) ||| (if s.nf then 0x02 else 0x00) ||| (if s.pres then 0x01 else 0x00)

/-- R131: `STATUS.PRES <- NOT s`; an absent device is the status AbsentDevice (R187). -/
def finishPresence (s : State) : State :=
  if s.smp then raiseStatus .absentDevice s else endCommand { s with pres := true }

/-- R160: a completed pass, `NEWDISC <- ND; STATUS.NF <- 0`, and the end of the command. -/
def finishSearch (s : State) : State := endCommand { s with newDisc := s.nd, nf := false }

/-- R73, R74, R190: an illegal command. Nothing runs, no register changes but `STATUS.ILL <- 1`. -/
def illegalCommand (s : State) : State := recordStatus .illegalCommand s

end Sys2Proof.Machine
end

