-- ==== Sys2Proof/Machine/Operands.lean ====
section
/-!
DEFINITION. How operands are assembled and results placed (30_encoding.md R72, R74), the shifts of the byte transport
(42_byte_transport.md R120, R121) and the map from wire positions to the ROM buffer (20_memory.md R58).
-/

namespace Sys2Proof.Machine

/-- R72: WBIT's operand, `ARG[0]`. -/
def argBit (s : State) : Bool := s.arg.getLsbD 0

/-- R74: WBIT's reserved operand bits, `ARG[7:1]`, are 0. -/
def argBitLegal (s : State) : Bool := s.arg.extractLsb 7 1 == 0

/-- `zext_8` (R7). -/
def zext8 (b : Bool) : Byte := if b then 0x01 else 0x00

/-- R120: `SH <- SH >> 1`, 0 entering bit 7. -/
def shiftOut (sh : Byte) : Byte := sh >>> 1

/-- R121: `SH <- (SH >> 1) | (s << 7)`. -/
def shiftIn (sh : Byte) (s : Bool) : Byte := (sh >>> 1) ||| (zext8 s <<< 7)

/-- R151: `P` as an unsigned 8-bit number, for comparing with `LASTDISC`. -/
def positionByte (p : Position) : Byte := p.setWidth 8

/-- R58: `loc(p)`, the byte and the bit of the ROM buffer at wire position `p` in 1..64. -/
def loc (o : ByteOrder) (p : Nat) : Fin 8 × Fin 8 :=
  let k : Fin 8 := Fin.ofNat 8 ((p - 1) / 8)
  let b : Fin 8 := Fin.ofNat 8 ((p - 1) % 8)
  match o with
  | .desc => (7 - k, b)
  | .asc => (k, b)

end Sys2Proof.Machine
end

