-- ==== Sys2Proof/Machine/Slots.lean ====
section
/-!
DEFINITION. The Bit Timer and the Bit Transport's slots: the primitives of a write, a read and a reset slot, in the
order of 41_bit_transport.md R107 and R108 and 43_bus_controller.md R130, with the waits of 40_bit_timer.md R90.
-/

namespace Sys2Proof.Machine

/-- The six bus primitives (R10). -/
inductive Prim where
  | atomicBegin
  | driveLow
  | delay (n : Micros)
  | release
  | sample
  | atomicEnd
  deriving DecidableEq, Repr

/-- The three kinds of slot. -/
inductive Slot where
  /-- `WriteBit(v)` (R107). -/
  | write (v : Bool)
  /-- `ReadBit()` (R108). -/
  | read
  /-- `ResetPresence()` (R130). -/
  | reset
  deriving DecidableEq, Repr

/-- The primitives of a slot, in order (R107, R108, R130). -/
def Slot.prims (t : SlotTable) : Slot → List Prim
  | .write true => [.atomicBegin, .driveLow, .delay t.tA, .release, .delay t.tB, .atomicEnd]
  | .write false => [.atomicBegin, .driveLow, .delay t.tC, .release, .delay t.tD, .atomicEnd]
  | .read => [.atomicBegin, .driveLow, .delay t.tA, .release, .delay t.tE, .sample, .delay t.tF, .atomicEnd]
  | .reset => [.atomicBegin, .driveLow, .delay t.tH, .release, .delay t.tI, .sample, .delay t.tJ, .atomicEnd]

/-- The effect of one primitive (R10). -/
def doPrim : Prim → State → State
  | .atomicBegin, s => atomicBegin s
  | .driveLow, s => driveLow s
  | .delay n, s => delay n s
  | .release, s => release s
  | .sample, s => sample s
  | .atomicEnd, s => atomicEnd s

end Sys2Proof.Machine
end

