-- ==== Sys2Proof/Machine/Sequencer.lean ====
section
/-!
DEFINITION. The sequencer (10_state.md R35, R36): for each bus command, the slot its control point asks for and what
happens between two of its slots, in the order of the command's pseudocode. A slot is executed by Machine/Engine.lean.
-/

namespace Sys2Proof.Machine

/-! ## Bytes (42_byte_transport.md R120, R121) -/

/-- R120: after the write slot of `SH[0]`, the shift; after the eighth, what follows the byte. -/
def sendNext (after : State → State) (s : State) : State :=
  if s.k = 7 then after { s with sh := shiftOut s.sh, k := 0 }
  else { s with sh := shiftOut s.sh, k := s.k + 1 }

/-- R121: after a read slot, the sample enters `SH`; after the eighth, what follows the byte. -/
def recvNext (after : State → State) (s : State) : State :=
  if s.k = 7 then after { s with sh := shiftIn s.sh s.smp, k := 0 }
  else { s with sh := shiftIn s.sh s.smp, k := s.k + 1 }

/-! ## What follows a slot, per command -/

/-- R109. -/
def wbitNext (s : State) : State := endCommand s

/-- R110: `DATA <- zext_8(s)`. -/
def rbitNext (s : State) : State := endCommand { s with data := zext8 s.smp }

/-- R122. -/
def wbyteNext (s : State) : State := sendNext endCommand s

/-- R123: `DATA <- v`. -/
def rbyteNext (s : State) : State := recvNext (fun s => endCommand { s with data := s.sh }) s

/-- R131. -/
def resetNext (s : State) : State := finishPresence s

/-- R134. -/
def skipNext (s : State) : State := sendNext endCommand s

/-- R135: after the command byte, `I` counts from 7 down to 0 and each received byte goes to `ROM[I]`. -/
def rdromNext (s : State) : State :=
  match s.stg with
  | .s0 => sendNext (fun s => { s with stg := .s1, i := 7, sh := 0x00 }) s
  | .s1 | .s2 | .s3 =>
    recvNext (fun s =>
      if s.i = 0 then endCommand { s with rom := setRomByte s.rom s.i s.sh }
      else { s with rom := setRomByte s.rom s.i s.sh, i := s.i - 1, sh := 0x00 }) s

/-- R136: after the command byte, `I` counts from 7 down to 0 and `ROM[I]` is sent. -/
def matchNext (s : State) : State :=
  match s.stg with
  | .s0 => sendNext (fun s => { s with stg := .s1, i := 7, sh := s.rom[(7 : Fin 8)] }) s
  | .s1 | .s2 | .s3 =>
    sendNext (fun s =>
      if s.i = 0 then endCommand s
      else { s with i := s.i - 1, sh := s.rom[s.i - 1] }) s

/-- R151, R154 to R158: the bit decided for position `p` and the new discrepancy, in the priority order of the
document; nothing where the pair is (1,1). -/
def chooseBit (b1 b2 : Bool) (p last : Byte) (old : Bool) (nd : Byte) : Option (Bool × Byte) :=
  if b1 && b2 then none
  else if b1 != b2 then some (b1, nd)
  else if p = last then some (true, nd)
  else if p > last then some (false, p)
  else some (old, if old then nd else p)

/-- R151: after the second read of a position, abort on (1,1) (R154), else store the decided bit at `loc(P)` and go to
the write-back (R159). -/
def searchDecide (s : State) : State :=
  let at_ := loc s.params.searchOrder s.p.toNat
  match chooseBit s.b1 s.b2 (positionByte s.p) s.lastDisc (romBit s.rom at_.1 at_.2) s.nd with
  | none => raiseStatus .noResponse s
  | some (v, nd) =>
    { s with bit := v, nd := nd, rom := setRomBit s.rom at_.1 at_.2 v, stg := .s3 }

/-- R151: the command byte, then for each position two reads and a write-back. -/
def searchNext (s : State) : State :=
  match s.stg with
  | .s0 => sendNext (fun s => { s with nd := 0x00, p := 1, stg := .s1 }) s
  | .s1 => { s with b1 := s.smp, stg := .s2 }
  | .s2 => searchDecide { s with b2 := s.smp }
  | .s3 =>
    if s.p.toNat < Config.romBits then { s with p := s.p + 1, stg := .s1 } else finishSearch s

/-- What follows a slot of the running command. -/
def slotNext (s : State) : State :=
  match s.op with
  | .idle => endCommand s
  | .wbit => wbitNext s
  | .rbit => rbitNext s
  | .wbyte => wbyteNext s
  | .rbyte => rbyteNext s
  | .reset => resetNext s
  | .skip => skipNext s
  | .rdrom => rdromNext s
  | .matchRom => matchNext s
  | .search => searchNext s

/-! ## The slot a control point asks for -/

/-- The write slot of the bit being sent (R120: `WriteBit(SH[0])`). -/
def sendSlot (s : State) : Slot := .write (s.sh.getLsbD 0)

/-- The slot of the running command at its control point (R35). `idle` asks for none. -/
def slotOf (s : State) : Option Slot :=
  match s.op with
  | .idle => none
  | .wbit => some (.write (argBit s))
  | .rbit => some .read
  | .wbyte => some (sendSlot s)
  | .rbyte => some .read
  | .reset => some .reset
  | .skip => some (sendSlot s)
  | .rdrom => some (match s.stg with
    | .s0 => sendSlot s
    | .s1 | .s2 | .s3 => .read)
  | .matchRom => some (sendSlot s)
  | .search => some (match s.stg with
    | .s0 => sendSlot s
    | .s1 | .s2 => .read
    | .s3 => .write s.bit)

/-! ## Launch -/

/-- What `SH` holds at a command's first control point (R120, R121). -/
def firstShift (op : Op) (s : State) : Byte :=
  match op with
  | .wbyte => s.arg
  | .rbyte => 0x00
  | .skip => s.params.cmdSkipRom
  | .rdrom => s.params.cmdReadRom
  | .matchRom => s.params.cmdMatchRom
  | .search => s.params.cmdSearchRom
  | .idle | .wbit | .rbit | .reset => s.sh

/-- R34, R35: `BUSY <- 1` and the sequencer at the command's first control point. -/
def launch (op : Op) (s : State) : State :=
  { s with busy := true, op := op, stg := .s0, i := 0, k := 0, ph := 0, sh := firstShift op s }

end Sys2Proof.Machine
end

