-- ==== Sys2Proof/Machine/Engine.lean ====
section
/-!
DEFINITION. The engine (00_scope.md R6): one bus primitive per step while a command runs, and a whole command as the
run of those steps to the fall of `BUSY`. Block reset cuts a command at whatever primitive it has reached
(70_reset_and_hazards.md R207).
-/

namespace Sys2Proof.Machine

/-- One primitive of the running command, and after the slot's last one what follows the slot (R35, R36). -/
def enginePrim (s : State) : State :=
  match slotOf s with
  | none => slotNext s
  | some slot =>
    let prims := slot.prims s.params.slots
    let s' :=
      match prims[s.ph.val]? with
      | some q => doPrim q s
      | none => s
    if s.ph.val + 1 < prims.length then { s' with ph := s.ph + 1 } else slotNext { s' with ph := 0 }

/-- One step of the engine: block reset has priority (R194, R207). -/
def engineStep (s : State) : State :=
  if s.rstNow then blockReset s else enginePrim (passRst s)

/-- Up to `n` steps of the engine, ending when `BUSY` falls. -/
def runEngine : Nat → State → State
  | 0, s => s
  | n + 1, s => if s.busy then runEngine n (engineStep s) else s

/-- A bus command from its launch to its end: atomic to the host (R56), and never more than `maxPrimitives` primitives
long (R165, R224). -/
def runCommand (op : Op) (s : State) : State := runEngine Config.maxPrimitives (launch op s)

end Sys2Proof.Machine
end

