-- ==== Sys2Proof/Machine/BitTransport.lean ====
section
/-!
DEFINITION. The Bit Transport's commands (41_bit_transport.md).
-/

namespace Sys2Proof.Machine

/-- `WBIT` (R109): send `ARG[0]`; illegal where `ARG[7:1]` is not 0 (R74). -/
def execWbit (s : State) : Host.Outcome State Fault Refusal :=
  .next (if argBitLegal s then runCommand .wbit s else illegalCommand s)

/-- `RBIT` (R110): receive one bit into `DATA`. -/
def execRbit (s : State) : Host.Outcome State Fault Refusal := .next (runCommand .rbit s)

end Sys2Proof.Machine
end

