-- ==== Sys2Proof/Machine/BusController.lean ====
section
/-!
DEFINITION. The bus controller's commands (43_bus_controller.md). None looks at `STATUS.PRES` or resets the bus on its
own (R133).
-/

namespace Sys2Proof.Machine

/-- `RESET` (R131): the reset sequence, and `STATUS.PRES`. -/
def execReset (s : State) : Host.Outcome State Fault Refusal := .next (runCommand .reset s)

/-- `SKIP` (R134): send `CMD_SKIP_ROM`. -/
def execSkip (s : State) : Host.Outcome State Fault Refusal := .next (runCommand .skip s)

/-- `RDROM` (R135): send `CMD_READ_ROM`, read eight bytes into `ROM[7]` first, `ROM[0]` last. -/
def execRdrom (s : State) : Host.Outcome State Fault Refusal := .next (runCommand .rdrom s)

/-- `MATCH` (R136): send `CMD_MATCH_ROM`, then `ROM[7]` first, `ROM[0]` last. -/
def execMatch (s : State) : Host.Outcome State Fault Refusal := .next (runCommand .matchRom s)

end Sys2Proof.Machine
end

