-- ==== Sys2Proof/Machine/ByteTransport.lean ====
section
/-!
DEFINITION. The Byte Transport's commands (42_byte_transport.md).
-/

namespace Sys2Proof.Machine

/-- `WBYTE` (R122): send the byte `ARG`, bit 0 first. -/
def execWbyte (s : State) : Host.Outcome State Fault Refusal := .next (runCommand .wbyte s)

/-- `RBYTE` (R123): receive one byte into `DATA`, bit 0 first. -/
def execRbyte (s : State) : Host.Outcome State Fault Refusal := .next (runCommand .rbyte s)

end Sys2Proof.Machine
end

