-- ==== Sys2Proof/Machine/Crc8.lean ====
section
/-!
DEFINITION. CRC8 (45_crc8.md): the polynomial step, the fold over a buffer and the command.
-/

namespace Sys2Proof.Machine

/-- R175: one of the eight steps, on the seed. -/
def crcStep (d s : Byte) : Byte :=
  if (d ^^^ s) &&& 0x01 = 0x01 then ((s ^^^ Config.crcPoly) >>> 1) ||| 0x80 else s >>> 1

/-- R175: `n` steps, the data byte shifted right after each. -/
def crcSteps : Nat → Byte → Byte → Byte
  | 0, _, s => s
  | n + 1, d, s => crcSteps n (d >>> 1) (crcStep d s)

/-- R175: `crc8(data, seed)`. -/
def crc8 (data seed : Byte) : Byte := crcSteps 8 data seed

/-- R179: the running seed fed forward over a buffer. -/
def crcFold (seed : Byte) : List Byte → Byte
  | [] => seed
  | b :: bs => crcFold (crc8 b seed) bs

/-- `CRC8` (R178): `CRC <- crc8(ARG, CRC)`, within the `CMD` write; the sequencer is not used and the trace gains
nothing. -/
def execCrc8 (s : State) : Host.Outcome State Fault Refusal := .next { s with crc := crc8 s.arg s.crc }

end Sys2Proof.Machine
end

