-- ==== Sys2Proof/Machine/SearchEngine.lean ====
section
/-!
DEFINITION. The device search engine (44_search_engine.md).
-/

namespace Sys2Proof.Machine

/-- `SEARCH` (R151): one pass over the 64 wire positions. -/
def execSearch (s : State) : Host.Outcome State Fault Refusal := .next (runCommand .search s)

end Sys2Proof.Machine
end

