-- ==== Sys2Proof/Machine/Dispatch.lean ====
section
/-!
DEFINITION. The meaning of each command, one arm per row of the opcode map (30_encoding.md R71).
-/

namespace Sys2Proof.Machine

def exec (i : Instr) (s : State) : Host.Outcome State Fault Refusal :=
  match i with
  | .wbit => Sys2Proof.Machine.execWbit s
  | .rbit => Sys2Proof.Machine.execRbit s
  | .wbyte => Sys2Proof.Machine.execWbyte s
  | .rbyte => Sys2Proof.Machine.execRbyte s
  | .reset => Sys2Proof.Machine.execReset s
  | .skip => Sys2Proof.Machine.execSkip s
  | .rdrom => Sys2Proof.Machine.execRdrom s
  | .matchRom => Sys2Proof.Machine.execMatch s
  | .search => Sys2Proof.Machine.execSearch s
  | .crc8 => Sys2Proof.Machine.execCrc8 s

end Sys2Proof.Machine
end

