-- ==== Sys2Proof/Machine/HostPort.lean ====
section
/-!
DEFINITION. The host port (10_state.md R47, 20_memory.md R50 to R56): the register space, the ports of the block, and
what a request of the host does when the port is ready.
-/

namespace Sys2Proof.Machine

/-- R52: `MemRead(a, 1)`. A read changes no state. -/
def regRead (a : Addr) (s : State) : Byte :=
  match a.toNat with
  | 0x0 => 0x00
  | 0x1 => s.arg
  | 0x2 => s.data
  | 0x3 => statusByte s
  | 0x4 => s.crc
  | 0x5 => s.lastDisc
  | 0x6 => s.newDisc
  | 0x7 => 0x00
  | n => s.rom[Fin.ofNat 8 (n - 8)]

/-- R53, R54: `MemWrite(a, 1, v)` at an address other than `CMD`; read-only and reserved locations ignore it. -/
def regWrite (a : Addr) (v : Byte) (s : State) : State :=
  match a.toNat with
  | 0x0 => s
  | 0x1 => { s with arg := v }
  | 0x2 => s
  | 0x3 => s
  | 0x4 => { s with crc := v }
  | 0x5 => { s with lastDisc := v }
  | 0x6 => s
  | 0x7 => s
  | n => { s with rom := setRomByte s.rom (Fin.ofNat 8 (n - 8)) v }

/-- R31, R53, R73: a write to `CMD` is decoded; it runs the command or is illegal. -/
def commandWrite (v : Byte) (s : State) : Host.Outcome State Fault Refusal :=
  match decodeByte v with
  | .ok i => exec i s
  | .error _ => .next (illegalCommand s)

/-- R52, R53: one request at a ready port. -/
def serve (r : HostReq) (s : State) : Host.Outcome State Fault Refusal :=
  match r with
  | .read a => .next { s with hRdata := regRead a s }
  | .write a v => if a = 0x0 then commandWrite v s else .next (regWrite a v s)

/-- The host's action at a ready port: its next item, if it has one. -/
def hostAction (s : State) : Host.Outcome State Fault Refusal :=
  match s.host with
  | [] => .next s
  | none :: rest => .next { s with host := rest }
  | some r :: rest => serve r { s with host := rest }

/-- One action of the machine: block reset before everything (R194, R207), the engine while `BUSY` (R55), else the
host. -/
def action (s : State) : Host.Outcome State Fault Refusal :=
  if s.busy then .next (engineStep s)
  else if s.rstNow then .next (blockReset s)
  else hostAction (passRst s)

/-- R47: `h_ready`. -/
def State.hReady (s : State) : Bool := !s.busy

/-- R47: `ow_drive_low`. -/
def State.owDriveLow (s : State) : Bool := s.drv

/-- R47, R106: `atomic`. -/
def State.atomicPort (s : State) : Bool := s.atom

/-- R47: `busy`. -/
def State.busyPort (s : State) : Bool := s.busy

/-- R60, R61: `ow_in`, the level a `Sample()` would return. -/
def State.owIn (s : State) : Bool := s.line

/-- `s` with a command byte standing at the port of an idle block, `rst` low for that action (assumption 14). -/
def placeCommand (v : Byte) (s : State) : State :=
  { s with busy := false, rst := false :: s.rst, host := some (.write 0x0 v) :: s.host }

end Sys2Proof.Machine
end

