-- ==== Sys2Proof/Machine/Step.lean ====
section
/-!
DEFINITION. One step of the machine (00_scope.md R6), and the placing of a command where the next step takes it.
-/

namespace Sys2Proof.Machine

/-- One step: one action of reset, engine or host. -/
def step (s : State) : Host.Outcome State Fault Refusal := action s

/-- `s` with the command byte `w` as the host's request at the port, so that the next step runs it. -/
def State.withFetchWord (s : State) (nbits w : Nat) : State :=
  placeCommand (BitVec.ofNat 8 (w % 2 ^ nbits)) s

end Sys2Proof.Machine
end

