-- ==== Sys2Proof/WellFormed.lean ====
section
/-!
DEFINITION. Well-formedness. A command carries no field (30_encoding.md R70, R72), so every `Instr` is well-formed;
what can be ill-formed is the instance: a slot time that does not fit the timer "is refused by a model"
(40_bit_timer.md R92).
-/

namespace Sys2Proof

/-- R70: the command byte has no register fields, no immediates and no mode bits, so there is nothing to check. The
reserved operand bits of WBIT (R74) are a check on `ARG` at launch, not on the command. -/
def Instr.wf : Instr → Bool
  | .wbit | .rbit | .wbyte | .rbyte | .reset | .skip | .rdrom | .matchRom | .search | .crc8 => true

/-- R92, R227: every slot time fits `TMR_W` = 9 bits. -/
def SlotTimes.wf (t : SlotTimes) : Bool :=
  [t.tA, t.tB, t.tC, t.tD, t.tE, t.tF, t.tH, t.tI, t.tJ].all (fun n => decide (n < 512))

/-- R92: the slot table of an instance, refused where a time does not fit the timer. -/
def Config.instantiate? (t : SlotTimes) : Option SlotTable :=
  if t.wf then some t.toTable else none

end Sys2Proof
end

