-- ==== Sys2Proof/Machine/HostProgram.lean ====
section
/-!
DEFINITION. Host programs (30_encoding.md R81, R82): the statements of a host, the port transactions they stand for,
the pseudo-instructions, and their performance on the machine. None adds behaviour: a statement is one request at the
host port. The value a host's last `R` returned, `-> v`, is the port's read data `hRdata`; a statement may write it.
-/

namespace Sys2Proof.Machine

/-- The register names of R51. -/
inductive Reg where
  | cmd
  | arg
  | data
  | status
  | crc
  | lastDisc
  | newDisc
  | reserved
  | rom (i : Fin 8)
  deriving DecidableEq, Repr

/-- R51: the address of a register; `ROM[i]` is `0x8 + i`. -/
def Reg.addr : Reg → Addr
  | .cmd => 0x0
  | .arg => 0x1
  | .data => 0x2
  | .status => 0x3
  | .crc => 0x4
  | .lastDisc => 0x5
  | .newDisc => 0x6
  | .reserved => 0x7
  | .rom i => BitVec.ofNat 4 (8 + i.val)

/-- R51: the register at an address. -/
def Reg.ofAddr (a : Addr) : Reg :=
  match a.toNat with
  | 0x0 => .cmd
  | 0x1 => .arg
  | 0x2 => .data
  | 0x3 => .status
  | 0x4 => .crc
  | 0x5 => .lastDisc
  | 0x6 => .newDisc
  | 0x7 => .reserved
  | n => .rom (Fin.ofNat 8 (n - 8))

/-- R81: the statements of a host program. -/
inductive HostStmt where
  /-- `W <reg>, <value>`. -/
  | write (r : Reg) (v : Byte)
  /-- `W <reg>, v`, with `v` the value the last `R` before it read (`-> v`). -/
  | writeRead (r : Reg)
  /-- `R <reg> -> v`. -/
  | read (r : Reg)
  /-- `<MNEMONIC>`, which is `W CMD, <op>`. -/
  | command (i : Instr)
  deriving DecidableEq, Repr

/-- R81: the host-port transaction of a statement, where the host's last `R` read `v`. -/
def encodeStmt (v : Byte) : HostStmt → HostReq
  | .write r w => .write r.addr w
  | .writeRead r => .write r.addr v
  | .read r => .read r.addr
  | .command i => .write Reg.cmd.addr (encodeByte i)

/-- The statement of a transaction: a `CMD` write that selects a command is that command's mnemonic. -/
def decodeStmt : HostReq → HostStmt
  | .read a => .read (Reg.ofAddr a)
  | .write a v =>
    if a = Reg.cmd.addr then
      match decodeByte v with
      | .ok i => .command i
      | .error _ => .write .cmd v
    else .write (Reg.ofAddr a) v

/-- A statement with the value last read, `v`, written out. -/
def HostStmt.settle (v : Byte) : HostStmt → HostStmt
  | .write r w => .write r w
  | .writeRead r => .write r v
  | .read r => .read r
  | .command i => .command i

/-- A statement in the form R81 gives a command: `W CMD, v` is not written for a `v` that has a mnemonic. -/
def HostStmt.wf : HostStmt → Bool
  | .write .cmd v =>
    match decodeByte v with
    | .ok _ => false
    | .error _ => true
  | .write _ _ => true
  | .writeRead _ => true
  | .read _ => true
  | .command i => i.wf

/-- R82: the pseudo-instructions. -/
inductive Pseudo where
  | sendBit (b : Bool)
  | sendByte (v : Byte)
  | recvByte
  | recvBit
  | present
  | crcInit
  | crcByte (v : Byte)
  | ldRom (b : Vector Byte 8)
  | searchFirst
  | searchNext
  deriving DecidableEq, Repr

/-- R82: the expansion of a pseudo-instruction. -/
def Pseudo.expand : Pseudo → List HostStmt
  | .sendBit b => [.write .arg (zext8 b), .command .wbit]
  | .sendByte v => [.write .arg v, .command .wbyte]
  | .recvByte => [.command .rbyte, .read .data]
  | .recvBit => [.command .rbit, .read .data]
  | .present => [.command .reset, .read .status]
  | .crcInit => [.write .crc 0x00]
  | .crcByte v => [.write .arg v, .command .crc8]
  | .ldRom b => (List.finRange 8).map (fun i => .write (.rom i) b[i])
  | .searchFirst => [.write .lastDisc 0x00, .command .search, .read .newDisc]
  | .searchNext => [.read .newDisc, .writeRead .lastDisc, .command .search, .read .newDisc]

/-- R82: where a pseudo-instruction is used. `SEARCHNEXT` "only when v is in 1..64", `v` being what its first statement
reads. -/
def Pseudo.admitted (q : Pseudo) (s : State) : Bool :=
  match q with
  | .searchNext =>
    let v := regRead Reg.newDisc.addr s
    decide (1 ≤ v.toNat ∧ v.toNat ≤ 64)
  | .sendBit _ | .sendByte _ | .recvByte | .recvBit | .present | .crcInit | .crcByte _ | .ldRom _ | .searchFirst => true

/-- A statement's transaction at the port, before what the host asks otherwise; `v` is the value last read. -/
def offer (st : HostStmt) (s : State) : State := { s with host := some (encodeStmt s.hRdata st) :: s.host }

/-- R55: the block when its port is next ready. -/
def awaitReady (s : State) : State := runEngine Config.maxPrimitives s

/-- One statement of a host, performed when the port is ready. -/
def performStmt (st : HostStmt) (s : State) : Host.Outcome State Fault Refusal := step (offer st (awaitReady s))

/-- A host's statements, one after another (R63). -/
def performProgram : List HostStmt → State → Host.Outcome State Fault Refusal
  | [], s => .next s
  | st :: rest, s =>
    match performStmt st s with
    | .next t => performProgram rest t
    | .fault r => .fault r
    | .refused r => .refused r

/-- R82: a pseudo-instruction performed by a host; nothing where it is not to be used. DESIGN CHOICE (assumption 20): that
is tested once, before the expansion; where a block reset drops a statement of it, the host goes on with the next one,
and a dropped `R` leaves the value read before. -/
def performPseudo (q : Pseudo) (s : State) : Option (Host.Outcome State Fault Refusal) :=
  let t := awaitReady s
  if q.admitted t then some (performProgram q.expand t) else none

end Sys2Proof.Machine
end

