-- ==== Sys2Proof/Safety.lean ====
section
/-!
DEFINITION. The terms claims are stated in: what a slot, a byte and a ROM ID look like in the trace, the host-visible
registers as one value, a command ended, a run without block reset, the reference pass of a search (44_search_engine.md
R151) and what a good state is (70_reset_and_hazards.md R210).
-/

namespace Sys2Proof.Machine

/-! ## Traces -/

/-- R107: the events of `WriteBit(v)`. -/
def writeEvents (t : SlotTable) (v : Bool) : List Event :=
  [.atomBegin, .low, .dly (if v then t.tA else t.tC), .rel, .dly (if v then t.tB else t.tD), .atomEnd]

/-- R108: the events of a `ReadBit()` whose sample is `v`. -/
def readEvents (t : SlotTable) (v : Bool) : List Event :=
  [.atomBegin, .low, .dly t.tA, .rel, .dly t.tE, .smp v, .dly t.tF, .atomEnd]

/-- R130: the events of a `ResetPresence()` whose sample is `v`. -/
def resetEvents (t : SlotTable) (v : Bool) : List Event :=
  [.atomBegin, .low, .dly t.tH, .rel, .dly t.tI, .smp v, .dly t.tJ, .atomEnd]

/-- R120: the events of `WriteByte(b)`, bit 0 first. -/
def byteEvents (t : SlotTable) (b : Byte) : List Event :=
  (List.range 8).flatMap (fun j => writeEvents t (b.getLsbD j))

/-- The events of `n` read slots answered by `f`. -/
def readsEvents (t : SlotTable) (f : Nat → Bool) (n : Nat) : List Event :=
  (List.range n).flatMap (fun j => readEvents t (f j))

/-- The bit of the ROM buffer at wire position `p` (R58). -/
def wireBit (o : ByteOrder) (rom : Vector Byte 8) (p : Nat) : Bool := romBit rom (loc o p).1 (loc o p).2

/-- The events of 64 write slots carrying the ROM buffer in wire order, `ROM[7]` first (R136). -/
def romEvents (t : SlotTable) (rom : Vector Byte 8) : List Event :=
  (List.range 64).flatMap (fun j => writeEvents t (wireBit .desc rom (j + 1)))

/-- Nominal microseconds of a trace: the sum of its `DLY` arguments (R94, R228). -/
def micros : List Event → Nat
  | [] => 0
  | .dly n :: es => n.toNat + micros es
  | .atomBegin :: es => micros es
  | .low :: es => micros es
  | .rel :: es => micros es
  | .smp _ :: es => micros es
  | .atomEnd :: es => micros es
  | .rst :: es => micros es

/-- R113: `ATOM+` and `ATOM-` alternate strictly, the first being `ATOM+` exactly when no region is open, no block
reset falls among them, and no region is left open. -/
def alternates : Bool → List Event → Bool
  | isOpen, [] => !isOpen
  | isOpen, .atomBegin :: es => !isOpen && alternates true es
  | isOpen, .atomEnd :: es => isOpen && alternates false es
  | _, .rst :: _ => false
  | isOpen, .low :: es => alternates isOpen es
  | isOpen, .dly _ :: es => alternates isOpen es
  | isOpen, .rel :: es => alternates isOpen es
  | isOpen, .smp _ :: es => alternates isOpen es

/-! ## Timing, for claims only: no step reads it (R93, R229) -/

/-- The time spent in events that are no delay. -/
def otherTime : List (Event × Nat) → Nat
  | [] => 0
  | (.dly _, _) :: es => otherTime es
  | (.atomBegin, d) :: es => d + otherTime es
  | (.low, d) :: es => d + otherTime es
  | (.rel, d) :: es => d + otherTime es
  | (.smp _, d) :: es => d + otherTime es
  | (.atomEnd, d) :: es => d + otherTime es
  | (.rst, d) :: es => d + otherTime es

/-- R93: real durations of the events of one slot, in microseconds, within the tolerance `T_TOL` = `tol`: a delay
differs from its argument by at most `tol`, and the other primitives take at most `tol` together. DESIGN CHOICE
(assumption 21): durations and `tol` are whole microseconds. -/
def RealSlot (tol : Nat) (es : List (Event × Nat)) : Prop :=
  tol < 10 ∧ otherTime es ≤ tol ∧
    ∀ n d, (Event.dly n, d) ∈ es → d ≤ n.toNat + tol ∧ n.toNat ≤ d + tol

/-- The whole real duration of a slot. -/
def realTime (es : List (Event × Nat)) : Nat := (es.map Prod.snd).sum

/-! ## Views of a state -/

/-- The host-visible registers as one value (R20, R46). -/
structure HostRegs where
  arg : Byte
  data : Byte
  pres : Bool
  nf : Bool
  ill : Bool
  crc : Byte
  lastDisc : Byte
  newDisc : Byte
  rom : Vector Byte 8
  deriving DecidableEq, Repr

/-- The host-visible registers of a state. -/
def State.regs (s : State) : HostRegs :=
  { arg := s.arg, data := s.data, pres := s.pres, nf := s.nf, ill := s.ill, crc := s.crc
    lastDisc := s.lastDisc, newDisc := s.newDisc, rom := s.rom }

/-- No block reset at the next `n` actions. -/
def NoReset (n : Nat) (s : State) : Prop := true ∉ s.rst.take n

/-- R46, R210: the engine at rest, the line released, no critical section, the sequencer at `(IDLE, 0, 0, 0, 0)`. -/
def Ended (t : State) : Prop :=
  t.drv = false ∧ t.atom = false ∧ t.busy = false ∧ t.op = .idle ∧ t.stg = .s0 ∧ t.i = 0 ∧ t.k = 0 ∧ t.ph = 0

/-- A bus command that ran from `s` to `t` with `prims` primitives and `draws` samples: it has ended, used up that
many levels of `rst` and answers of the environment, and left the host's side and the parameters alone. -/
def RanBus (prims draws : Nat) (s t : State) : Prop :=
  Ended t ∧ t.rst = s.rst.drop prims ∧ t.answers = s.answers.drop draws ∧ t.samples = s.samples + draws ∧
    t.host = s.host ∧ t.hRdata = s.hRdata ∧ t.params = s.params

/-- R210: a good state. -/
def Good (s : State) : Prop := s.atom = false ∧ s.drv = false ∧ s.ill = false

/-! ## Commands -/

/-- The sequencer's name of a bus command; CRC8 has none (R35). -/
def busOp : Instr → Option Op
  | .wbit => some .wbit
  | .rbit => some .rbit
  | .wbyte => some .wbyte
  | .rbyte => some .rbyte
  | .reset => some .reset
  | .skip => some .skip
  | .rdrom => some .rdrom
  | .matchRom => some .matchRom
  | .search => some .search
  | .crc8 => none

/-- R46: the host addresses whose read a legal command may change. -/
def writeSet : Instr → List Addr
  | .wbit | .wbyte | .skip | .matchRom => []
  | .rbit | .rbyte => [0x2]
  | .reset => [0x3]
  | .rdrom => [0x8, 0x9, 0xA, 0xB, 0xC, 0xD, 0xE, 0xF]
  | .search => [0x3, 0x6, 0x8, 0x9, 0xA, 0xB, 0xC, 0xD, 0xE, 0xF]
  | .crc8 => [0x4]

/-- R74: the one check on an operand, WBIT's reserved bits. -/
def Legal (i : Instr) (s : State) : Prop := i = .wbit → s.arg.toNat ≤ 1

/-- R46, column "reads": two states hold the same operands for a command. -/
def SameOperands : Instr → State → State → Prop
  | .wbit, s, u => s.arg = u.arg
  | .rbit, _, _ => True
  | .wbyte, s, u => s.arg = u.arg
  | .rbyte, _, _ => True
  | .reset, _, _ => True
  | .skip, _, _ => True
  | .rdrom, _, _ => True
  | .matchRom, s, u => s.rom = u.rom
  | .search, s, u => s.lastDisc = u.lastDisc ∧ s.rom = u.rom
  | .crc8, s, u => s.arg = u.arg ∧ s.crc = u.crc

/-- The same future answers of the line and the same parameters. -/
def SameLine (s u : State) : Prop := (∀ n, s.envAt n = u.envAt n) ∧ s.params = u.params

/-- R179: the host's fold of a buffer, `W ARG, b` and `CRC8` for each byte. -/
def hostFold : List Byte → State → Host.Outcome State Fault Refusal
  | [], s => .next s
  | b :: bs, s =>
    match exec .crc8 (regWrite 0x1 b s) with
    | .next t => hostFold bs t
    | .fault r => .fault r
    | .refused r => .refused r

/-- The pair of answers at wire position `p` of a search pass from `s` (R153). -/
def State.pairAt (s : State) (p : Nat) : Bool × Bool := (s.envAt (2 * (p - 1)), s.envAt (2 * (p - 1) + 1))

/-- A command stream read to its end: one command after another. -/
def decodeAll : Nat → List Byte → Except Reject (List Instr)
  | _, [] => .ok []
  | 0, _ :: _ => .ok []
  | n + 1, v :: rest =>
    match decode (v :: rest) with
    | .error e => .error e
    | .ok (i, rest') =>
      match decodeAll n rest' with
      | .error e => .error e
      | .ok is => .ok (i :: is)

/-! ## The reference pass of a search (R151) -/

/-- What a pass leaves: the buffer, the new discrepancy (none where it failed), its events after the command byte and
the samples it took. -/
structure Pass where
  rom : Vector Byte 8
  newDisc : Option Byte
  events : List Event
  draws : Nat

/-- R151, the loop over positions, as the document's pseudocode: `n` positions are left, `p` is the next one, `f`
gives the answers still to come. -/
def refPass (o : ByteOrder) (t : SlotTable) (last : Nat) :
    (n p : Nat) → (f : Nat → Bool) → (rom : Vector Byte 8) → (nd : Byte) → Pass
  | 0, _, _, rom, nd => { rom := rom, newDisc := some nd, events := [], draws := 0 }
  | n + 1, p, f, rom, nd =>
    let reads := readEvents t (f 0) ++ readEvents t (f 1)
    let go := fun (bit : Bool) (nd : Byte) =>
      let q := refPass o t last n (p + 1) (fun j => f (j + 2)) (setRomBit rom (loc o p).1 (loc o p).2 bit) nd
      { q with events := reads ++ writeEvents t bit ++ q.events, draws := q.draws + 2 }
    if f 0 = true ∧ f 1 = true then { rom := rom, newDisc := none, events := reads, draws := 2 }
    else if f 0 ≠ f 1 then go (f 0) nd
    else if p = last then go true nd
    else if p > last then go false (BitVec.ofNat 8 p)
    else if wireBit o rom p = false then go false (BitVec.ofNat 8 p)
    else go true nd

/-- The pass SEARCH makes from `s` (R151). -/
def State.pass (s : State) : Pass :=
  refPass s.params.searchOrder s.params.slots s.lastDisc.toNat 64 1 s.envAt s.rom 0

/-! ## Ideal slaves, a test bench for claims about enumeration (R166; 95_test_vectors.md §2). No step uses it. -/

/-- Two wire sequences agree at every position before `p`. -/
def AgreeBelow (p : Nat) (w v : Nat → Bool) : Prop := ∀ q, 1 ≤ q → q < p → w q = v q

/-- R166: lexicographic order of wire sequences, position 1 deciding first, 0 before 1. -/
def LexBefore (w v : Nat → Bool) : Prop :=
  ∃ p, 1 ≤ p ∧ p ≤ 64 ∧ AgreeBelow p w v ∧ w p = false ∧ v p = true

/-- Position `p` is an unexplored 1-branch beside `w`: `w` has 0 there and another slave that agrees before it has 1. -/
def OpenBranch (slaves : List (Nat → Bool)) (w : Nat → Bool) (p : Nat) : Prop :=
  1 ≤ p ∧ p ≤ 64 ∧ w p = false ∧ ∃ v ∈ slaves, AgreeBelow p w v ∧ v p = true

/-- `d` is the highest unexplored branch beside `w`, 0 if there is none. -/
def IsCursor (slaves : List (Nat → Bool)) (w : Nat → Bool) (d : Nat) : Prop :=
  (∀ p, OpenBranch slaves w p → p ≤ d) ∧ (d = 0 ∨ OpenBranch slaves w d)

/-- The answers to a pass from `s` are those of ideal slaves that drop out where their bit is not the one written back
(R159): at position `p` the wired-AND, over the slaves that agree with the bits written before `p`, of their bits and
of the complements. -/
def IdealPass (slaves : List (Nat → Bool)) (s : State) (written : Nat → Bool) : Prop :=
  ∀ p, 1 ≤ p → p ≤ 64 →
    ((s.pairAt p).1 = true ↔ ∀ w ∈ slaves, AgreeBelow p written w → w p = true) ∧
    ((s.pairAt p).2 = true ↔ ∀ w ∈ slaves, AgreeBelow p written w → w p = false)

/-- The bits of a state's ROM buffer in the order a search walks them. -/
def State.found (s : State) : Nat → Bool := fun p => wireBit s.params.searchOrder s.rom p

/-! ## Invariants -/

/-- R112 and R107, R108, R130: where a slot stands decides the driver and the critical section. Before a slot's first
primitive the line is released and no section is open; inside, `DRV` is 1 exactly from `LOW` to `REL`. -/
def LineInv (s : State) : Prop :=
  (s.busy = false → s.drv = false ∧ s.atom = false) ∧
  (s.busy = true → s.atom = decide (0 < s.ph.val) ∧ s.drv = decide (s.ph.val = 2 ∨ s.ph.val = 3)) ∧
  (s.busy = true → s.op ≠ .idle ∧ ∀ slot, slotOf s = some slot → s.ph.val < (slot.prims s.params.slots).length)

/-- R29, R160: `STATUS.NF` is 1 exactly when `NEWDISC` is the sentinel; the discrepancy being accumulated is a
position. -/
def SearchInv (s : State) : Prop :=
  (s.nf = true ↔ s.newDisc = Config.searchFailed) ∧
  (s.newDisc = Config.searchFailed ∨ s.newDisc.toNat ≤ 64) ∧
  (s.busy = true → s.op = .search → s.stg ≠ .s0 → s.nd.toNat ≤ 64 ∧ s.p.toNat ≤ 64)

end Sys2Proof.Machine
end

