-- ==== Sys2Proof/Certificates/Slice0/Obligations.lean ====
section
/-!
DEFINITION. The statements for the provers, from the numbered rules of spec/. Every statement is about every state, and
so about every value of the parameters of R5 and every answer of the line, unless it names them.
-/

open Sys2Proof Sys2Proof.Machine

/-! ## Encoding and the step -/

/-- R71: the opcode map. Each opcode decodes to its command, and no other value decodes to it. -/
def Obligations.OpcodeMap : Prop :=
  decodeByte 0x01 = .ok .wbit ∧ decodeByte 0x02 = .ok .rbit ∧ decodeByte 0x03 = .ok .wbyte ∧
  decodeByte 0x04 = .ok .rbyte ∧ decodeByte 0x05 = .ok .reset ∧ decodeByte 0x06 = .ok .skip ∧
  decodeByte 0x07 = .ok .rdrom ∧ decodeByte 0x08 = .ok .matchRom ∧ decodeByte 0x09 = .ok .search ∧
  decodeByte 0x0A = .ok .crc8 ∧ ∀ v i, decodeByte v = .ok i ↔ v = encodeByte i

/-- R70, R71: a stream of encoded commands decodes to those commands, none lost, whatever byte follows a command. -/
def Obligations.CommandStreamRoundTrip : Prop :=
  (∀ i rest, i.wf = true → decode (encode i ++ rest) = .ok (i, rest)) ∧
  ∀ is : List Instr, decodeAll is.length (is.flatMap encode) = .ok is

/-- R81: the port transactions of a host program determine its statements, the values last read written out; R82: so do
those of every pseudo-instruction's expansion, whatever its reads return. -/
def Obligations.HostProgramRoundTrip : Prop :=
  (∀ prog : List (Byte × HostStmt), (∀ x ∈ prog, (x.2.settle x.1).wf = true) →
    (prog.map (fun x => encodeStmt x.1 x.2)).map decodeStmt = prog.map (fun x => x.2.settle x.1)) ∧
  ∀ (q : Pseudo) (v : Byte), (q.expand.map (encodeStmt v)).map decodeStmt = q.expand.map (HostStmt.settle v)

/-- R31, R53, R63: where a `CMD` write that selects a command stands at an idle block's port, the step is that
command's `exec`, the request used up. -/
def Obligations.StepRunsCommand : Prop :=
  (∀ (s : State) v i rest, s.busy = false → s.rstNow = false → s.host = some (.write 0x0 v) :: rest → decodeByte v = .ok i →
    step s = exec i { s with host := rest, rst := s.rst.tail }) ∧
  ∀ (s : State) (i : Instr), step (s.withFetchWord 8 (encodeByte i).toNat) = exec i { s with busy := false }

/-- R73: an illegal opcode performs no primitive, changes no register and sets `STATUS.ILL`. -/
def Obligations.IllegalOpcodes : Prop :=
  ∀ (s : State) (v : Byte) rest, v = 0x00 ∨ 0x0B ≤ v.toNat → s.busy = false → s.rstNow = false →
    s.host = some (.write 0x0 v) :: rest →
    step s = .next { s with ill := true, host := rest, rst := s.rst.tail }

/-! ## The host port -/

/-- R52: what a host read gives at each address, and that it changes nothing but the port's read data. -/
def Obligations.HostReads : Prop :=
  ∀ (s : State) a rest, s.busy = false → s.rstNow = false → s.host = some (.read a) :: rest →
    ∃ d, step s = .next { s with hRdata := d, host := rest, rst := s.rst.tail } ∧
      (a = 0x0 ∨ a = 0x7 → d = 0x00) ∧ (a = 0x1 → d = s.arg) ∧ (a = 0x2 → d = s.data) ∧
      (a = 0x3 → d.toNat = s.pres.toNat + 2 * s.nf.toNat + 4 * s.ill.toNat) ∧
      (a = 0x4 → d = s.crc) ∧ (a = 0x5 → d = s.lastDisc) ∧ (a = 0x6 → d = s.newDisc) ∧
      ∀ i : Fin 8, a.toNat = 8 + i.val → d = s.rom[i]

/-- R53, R54: what a host write does. `CMD` stores nothing and decodes the value; a writable register takes the value,
all else staying; read-only and reserved locations change no state, and `ILL` is not set. -/
def Obligations.HostWrites : Prop :=
  ∀ (s : State) a v rest, s.busy = false → s.rstNow = false → s.host = some (.write a v) :: rest →
    (a = 0x0 → ∀ i, decodeByte v = .ok i → step s = exec i { s with host := rest, rst := s.rst.tail }) ∧
    (a = 0x0 → (∀ i, decodeByte v ≠ .ok i) → step s = .next { s with ill := true, host := rest, rst := s.rst.tail }) ∧
    (a ≠ 0x0 → ∃ t, step s = .next t ∧
      (a = 0x1 → t = { s with arg := v, host := rest, rst := s.rst.tail }) ∧
      (a = 0x4 → t = { s with crc := v, host := rest, rst := s.rst.tail }) ∧
      (a = 0x5 → t = { s with lastDisc := v, host := rest, rst := s.rst.tail }) ∧
      (a = 0x2 ∨ a = 0x3 ∨ a = 0x6 ∨ a = 0x7 → t = { s with host := rest, rst := s.rst.tail }) ∧
      ∀ i : Fin 8, a.toNat = 8 + i.val →
        t = { s with rom := t.rom, host := rest, rst := s.rst.tail } ∧ ∀ j : Fin 8, t.rom[j] = if j = i then v else s.rom[j])

/-- R55: while `BUSY` the port is not ready and a host request is held: the step is the engine's, it keeps every
request, returns no data, and does not depend on what the host asks. -/
def Obligations.HostStall : Prop :=
  ∀ s : State, s.busy = true → s.rstNow = false → s.hReady = false ∧
    ∃ t, step s = .next t ∧ t.host = s.host ∧ t.hRdata = s.hRdata ∧
      ∀ h, step { s with host := h } = .next { t with host := h }

/-- R202, R205: an idle block with no request at the port changes nothing. -/
def Obligations.BlockIdles : Prop :=
  ∀ s : State, s.busy = false → s.rstNow = false → s.host = [] → step s = .next { s with rst := s.rst.tail }

/-! ## Primitives, the line and the slot timer -/

/-- R10: the six bus primitives, each with its effect and its event; a primitive touches nothing else. R91, R92 and log
entry 7, the model's choice: a `Delay` is one step and leaves the slot timer at 0. R61 and log entries 2 and 8, the
model's choices: a `Sample` uses up one answer, counts it, and keeps the level in the latch `smp`. -/
def Obligations.BusPrimitives : Prop :=
  ∀ s : State, doPrim .driveLow s = { s with drv := true, log := .low :: s.log } ∧
    doPrim .release s = { s with drv := false, log := .rel :: s.log } ∧
    doPrim .atomicBegin s = { s with atom := true, log := .atomBegin :: s.log } ∧
    doPrim .atomicEnd s = { s with atom := false, log := .atomEnd :: s.log } ∧
    (∀ n, doPrim (.delay n) s = { s with tmr := 0, log := .dly n :: s.log }) ∧
    doPrim .sample s = { s with smp := s.line, log := .smp s.line :: s.log, answers := s.answers.tail, samples := s.samples + 1 } ∧
    (doPrim .sample s).trace = s.trace ++ [.smp s.line]

/-- R60, R61: the wired-AND. With the driver on a sample is 0; released, it is the environment's level, which is the
first listed answer, or the free value where none is listed. -/
def Obligations.LineLevel : Prop :=
  ∀ s : State, (s.drv = true → s.line = false) ∧ (s.drv = false → s.line = s.envAt 0) ∧
    (∀ v l, s.answers = v :: l → s.envAt 0 = v) ∧ (s.answers = [] → s.envAt 0 = Config.envLevel s.samples)

/-- R92: the slot timer counts down one per tick, reaches 0 after its load's many ticks and not before, stays there and
never wraps; a `Delay` leaves it at 0; a time that does not fit `TMR_W` bits is refused. -/
def Obligations.SlotTimer : Prop :=
  (∀ (n : Micros) (k : Nat), (runTimer k n).toNat = n.toNat - k) ∧
  (∀ n s, (delay n s).tmr = 0 ∧ (delay n s).drv = s.drv ∧ (delay n s).trace = s.trace ++ [.dly n]) ∧
  ∀ t : SlotTimes, 512 ≤ t.tA ∨ 512 ≤ t.tB ∨ 512 ≤ t.tC ∨ 512 ≤ t.tD ∨ 512 ≤ t.tE ∨ 512 ≤ t.tF ∨
    512 ≤ t.tH ∨ 512 ≤ t.tI ∨ 512 ≤ t.tJ → Config.instantiate? t = none

/-! ## The commands: result and frame -/

/-- R109, R107: WBIT with a legal operand is one write slot of `ARG[0]` and changes no host-visible register; with an
illegal one it only sets `STATUS.ILL`. -/
def Obligations.WbitSends : Prop :=
  decodeByte 0x01 = .ok .wbit ∧
  (∀ s : State, s.arg.toNat ≤ 1 → NoReset 6 s →
    ∃ t, exec .wbit s = .next t ∧ t.regs = s.regs ∧
      t.trace = s.trace ++ writeEvents s.params.slots (decide (s.arg = 1)) ∧ RanBus 6 0 s t) ∧
  ∀ s : State, 1 < s.arg.toNat → exec .wbit s = .next { s with ill := true }

/-- R74: WBIT with `ARG[7:1]` not 0 is illegal: only `STATUS.ILL` changes. No other command has an illegal operand: in
every state, cut by a reset or not, it never sets `ILL`. -/
def Obligations.WbitIllegal : Prop :=
  (∀ s : State, s.arg.extractLsb 7 1 ≠ 0 → exec .wbit s = .next { s with ill := true }) ∧
  ∀ i (s : State), i ≠ .wbit → ∃ t, exec i s = .next t ∧ (t.ill = true → s.ill = true)

/-- R110, R108: RBIT is one read slot, and `DATA` is the sampled level, zero-extended, not inverted. -/
def Obligations.RbitReceives : Prop :=
  decodeByte 0x02 = .ok .rbit ∧ ∀ s : State, NoReset 8 s →
    ∃ t, exec .rbit s = .next t ∧ t.regs = { s.regs with data := if s.envAt 0 then 0x01 else 0x00 } ∧
      t.trace = s.trace ++ readEvents s.params.slots (s.envAt 0) ∧ RanBus 8 1 s t

/-- R122, R120: WBYTE is eight write slots of `ARG`, bit 0 first. -/
def Obligations.WbyteSends : Prop :=
  decodeByte 0x03 = .ok .wbyte ∧ ∀ s : State, NoReset 48 s →
    ∃ t, exec .wbyte s = .next t ∧ t.regs = s.regs ∧
      t.trace = s.trace ++ byteEvents s.params.slots s.arg ∧ RanBus 48 0 s t

/-- R123, R121: RBYTE is eight read slots, and bit `j` of `DATA` is the `j`-th sample. -/
def Obligations.RbyteReceives : Prop :=
  decodeByte 0x04 = .ok .rbyte ∧ ∀ s : State, NoReset 64 s →
    ∃ t, exec .rbyte s = .next t ∧ t.regs = { s.regs with data := t.data } ∧
      (∀ j, j < 8 → t.data.getLsbD j = s.envAt j) ∧
      t.trace = s.trace ++ readsEvents s.params.slots s.envAt 8 ∧ RanBus 64 8 s t

/-- R131, R130: RESET is the reset sequence, and `STATUS.PRES` is the inverted presence sample. -/
def Obligations.ResetDetects : Prop :=
  decodeByte 0x05 = .ok .reset ∧ ∀ s : State, NoReset 8 s →
    ∃ t, exec .reset s = .next t ∧ t.regs = { s.regs with pres := !s.envAt 0 } ∧
      t.trace = s.trace ++ resetEvents s.params.slots (s.envAt 0) ∧ RanBus 8 1 s t

/-- R134: SKIP sends the byte `CMD_SKIP_ROM` and changes no host-visible register. -/
def Obligations.SkipSends : Prop :=
  decodeByte 0x06 = .ok .skip ∧ ∀ s : State, NoReset 48 s →
    ∃ t, exec .skip s = .next t ∧ t.regs = s.regs ∧
      t.trace = s.trace ++ byteEvents s.params.slots s.params.cmdSkipRom ∧ RanBus 48 0 s t

/-- R135: RDROM sends `CMD_READ_ROM`, then reads 64 bits; the bit sampled at wire position `p` is stored at `loc(p)`
with DESC, so the first byte received is `ROM[7]` and the last `ROM[0]`. -/
def Obligations.RdromReads : Prop :=
  decodeByte 0x07 = .ok .rdrom ∧ ∀ s : State, NoReset 560 s →
    ∃ t, exec .rdrom s = .next t ∧ t.regs = { s.regs with rom := t.rom } ∧
      (∀ i j : Fin 8, (t.rom[i]).getLsbD j = s.envAt (8 * (7 - i.val) + j.val)) ∧
      (∀ p, 1 ≤ p → p ≤ 64 → wireBit .desc t.rom p = s.envAt (p - 1)) ∧
      t.trace = s.trace ++ byteEvents s.params.slots s.params.cmdReadRom ++ readsEvents s.params.slots s.envAt 64 ∧
      RanBus 560 64 s t

/-- R136: MATCH sends `CMD_MATCH_ROM`, then `ROM[7]` first and `ROM[0]` last, each bit 0 first: at wire position `p` the
bit at `loc(p)` with DESC. No host-visible register changes. -/
def Obligations.MatchSends : Prop :=
  decodeByte 0x08 = .ok .matchRom ∧ ∀ s : State, NoReset 432 s →
    ∃ t, exec .matchRom s = .next t ∧ t.regs = s.regs ∧
      t.trace = s.trace ++ byteEvents s.params.slots s.params.cmdMatchRom ++ romEvents s.params.slots s.rom ∧
      romEvents s.params.slots s.rom =
        (List.range 8).flatMap (fun k => byteEvents s.params.slots s.rom[Fin.ofNat 8 (7 - k)]) ∧
      RanBus 432 0 s t

/-- R151, R169: SEARCH makes the pass of the document's pseudocode, run on the line's answers, and leaves its buffer,
its new discrepancy (or the sentinel and `NF`) and its trace; every other host-visible register is unchanged. -/
def Obligations.SearchMakesPass : Prop :=
  decodeByte 0x09 = .ok .search ∧ ∀ s : State, NoReset (48 + s.pass.events.length) s →
    ∃ t, exec .search s = .next t ∧
      t.regs = { s.regs with
        rom := s.pass.rom, newDisc := s.pass.newDisc.getD 0xFF, nf := s.pass.newDisc.isNone } ∧
      t.trace = s.trace ++ byteEvents s.params.slots s.params.cmdSearchRom ++ s.pass.events ∧
      RanBus (48 + s.pass.events.length) s.pass.draws s t

/-- R178: CRC8 replaces `CRC` by `crc8(ARG, CRC)` within the `CMD` write and changes nothing else: no primitive, no
event, `BUSY` and the sequencer as they were. -/
def Obligations.Crc8Step : Prop :=
  decodeByte 0x0A = .ok .crc8 ∧ ∀ s : State, ∃ t, exec .crc8 s = .next t ∧ t = { s with crc := crc8 s.arg s.crc } ∧ t.trace = s.trace

/-! ## CRC8 -/

/-- R175, R177: the closed form of one step, and `crc8` as eight of them. -/
def Obligations.CrcClosedForm : Prop :=
  (∀ d s : Byte, crcStep d s = if (d ^^^ s).getLsbD 0 then (s >>> 1) ^^^ 0x8C else s >>> 1) ∧
  ∀ d s : Byte, crc8 d s = (List.range 8).foldl (fun s j => crcStep (d >>> j) s) s

/-- R179: a buffer with its CRC appended folds to 0, from seed 0; a byte folded into itself gives 0. -/
def Obligations.CrcSelfCheck : Prop :=
  (∀ v : Byte, crc8 v v = 0x00) ∧ ∀ b : List Byte, crcFold 0x00 (b ++ [crcFold 0x00 b]) = 0x00

/-- R180: flipping one bit of a buffer that folds to 0 makes its fold nonzero. -/
def Obligations.CrcSensitivity : Prop :=
  ∀ (b : List Byte) (j : Nat) (k : Fin 8) (x : Byte), crcFold 0x00 b = 0x00 → b[j]? = some x →
    crcFold 0x00 (b.set j (x ^^^ (1 <<< k.val))) ≠ 0x00

/-- R179, R178: folding a buffer on the block, seed 0 written first, leaves its fold in `CRC`, adds nothing to the
trace and changes no register but `ARG` and `CRC`. -/
def Obligations.CrcFoldOnBlock : Prop :=
  ∀ bs (s : State), ∃ t, hostFold bs (regWrite 0x4 0x00 s) = .next t ∧ regRead 0x4 t = crcFold 0x00 bs ∧
    t = { s with crc := t.crc, arg := t.arg }

/-! ## Status flags and write sets -/

/-- R30: `ILL` is set by an illegal `CMD` write and by nothing else, and no step but a block reset clears it. -/
def Obligations.IllSticky : Prop :=
  ∀ s t : State, NoReset 1457 s → step s = .next t →
    (s.ill = true → t.ill = true) ∧
    (∀ v rest, s.busy = false → s.host = some (.write 0x0 v) :: rest →
      v = 0x00 ∨ 0x0B ≤ v.toNat ∨ v = 0x01 ∧ 1 < s.arg.toNat → t.ill = true) ∧
    (s.ill = false → t.ill = true → s.busy = false ∧ ∃ v rest, s.host = some (.write 0x0 v) :: rest ∧
      (v = 0x00 ∨ 0x0B ≤ v.toNat ∨ v = 0x01 ∧ 1 < s.arg.toNat))

/-- R46, column "writes": a command leaves every address outside its write set reading as before, and each flag that
is not its own. -/
def Obligations.WriteSets : Prop :=
  ∀ i (s t : State), Legal i s → NoReset 1456 s → exec i s = .next t →
    (∀ a, a ∉ writeSet i → regRead a t = regRead a s) ∧ (i ≠ .reset → t.pres = s.pres) ∧
    (i ≠ .search → t.nf = s.nf) ∧ t.ill = s.ill

/-- R46, column "reads", and R133: what a command does depends only on its operands and the line's answers; in
particular no ROM command looks at `STATUS.PRES`. -/
def Obligations.ReadSets : Prop :=
  ∀ i (s u t v : State), SameOperands i s u → SameLine s u → Legal i s → NoReset 1456 s → NoReset 1456 u →
    exec i s = .next t → exec i u = .next v →
    (∃ es, t.trace = s.trace ++ es ∧ v.trace = u.trace ++ es) ∧
    (∀ a ∈ writeSet i, a ≠ 0x3 → regRead a t = regRead a v) ∧
    (i = .reset → t.pres = v.pres) ∧ (i = .search → t.nf = v.nf)

/-! ## The search engine -/

/-- R155: at the end of a position's second read, a pair that agrees records its first member in the buffer at the
current position, whatever `LASTDISC` and the old bit are; `ND` is unchanged. -/
def Obligations.SearchAgreement : Prop :=
  ∀ s : State, s.busy = true → s.op = .search → s.stg = .s2 → s.ph = 7 → s.rstNow = false → 1 ≤ s.p.toNat → s.p.toNat ≤ 64 →
    s.b1 ≠ s.smp →
    ∃ t, step s = .next t ∧ t.busy = true ∧ t.stg = .s3 ∧ t.bit = s.b1 ∧ t.nd = s.nd ∧
      ∀ q, 1 ≤ q → q ≤ 64 → wireBit s.params.searchOrder t.rom q =
        if q = s.p.toNat then s.b1 else wireBit s.params.searchOrder s.rom q

/-- R156, R157, R158: the three clauses for a discrepancy at position `P`, and the buffer after each. -/
def Obligations.SearchDiscrepancy : Prop :=
  ∀ s : State, s.busy = true → s.op = .search → s.stg = .s2 → s.ph = 7 → s.rstNow = false → 1 ≤ s.p.toNat → s.p.toNat ≤ 64 →
    s.b1 = false → s.smp = false →
    ∃ t, step s = .next t ∧ t.busy = true ∧ t.stg = .s3 ∧
      (s.p.toNat = s.lastDisc.toNat → t.bit = true ∧ t.nd = s.nd) ∧
      (s.p.toNat > s.lastDisc.toNat → t.bit = false ∧ t.nd.toNat = s.p.toNat) ∧
      (s.p.toNat < s.lastDisc.toNat → t.bit = wireBit s.params.searchOrder s.rom s.p.toNat ∧
        (t.bit = false → t.nd.toNat = s.p.toNat) ∧ (t.bit = true → t.nd = s.nd)) ∧
      ∀ q, 1 ≤ q → q ≤ 64 → wireBit s.params.searchOrder t.rom q =
        if q = s.p.toNat then t.bit else wireBit s.params.searchOrder s.rom q

/-- R164, R154: a pass whose first pair (1,1) is at position `P` aborts there: the sentinel and `NF`, the buffer as
the pass decided it before `P` and unchanged from `P` on, `LASTDISC` unchanged; on the wire 8 + 3(P-1) + 2 slots. -/
def Obligations.SearchAborts : Prop :=
  ∀ (s : State) P, 1 ≤ P → P ≤ 64 → (∀ p, 1 ≤ p → p < P → s.pairAt p ≠ (true, true)) → s.pairAt P = (true, true) →
    NoReset (48 + (P - 1) * 22 + 16) s →
    ∃ t, exec .search s = .next t ∧ t.newDisc = 0xFF ∧ t.nf = true ∧ t.lastDisc = s.lastDisc ∧ t.rom = s.pass.rom ∧
      (∀ q, P ≤ q → q ≤ 64 → wireBit s.params.searchOrder t.rom q = wireBit s.params.searchOrder s.rom q) ∧
      t.trace = s.trace ++ byteEvents s.params.slots s.params.cmdSearchRom ++ s.pass.events ∧
      (byteEvents s.params.slots s.params.cmdSearchRom ++ s.pass.events).count .atomBegin = 8 + 3 * (P - 1) + 2 ∧
      RanBus (48 + (P - 1) * 22 + 16) (2 * P) s t

/-- R167: with no slave the first search returns the sentinel at once and the buffer is unchanged. -/
def Obligations.SearchEmptyBus : Prop :=
  ∀ s : State, s.envAt 0 = true → s.envAt 1 = true → NoReset 64 s →
    ∃ t, exec .search s = .next t ∧ t.regs = { s.regs with newDisc := 0xFF, nf := true } ∧ RanBus 64 2 s t

/-- R160: a pass with no pair (1,1) completes, with `NF` = 0 and `NEWDISC` in 0..64. -/
def Obligations.SearchCompletes : Prop :=
  ∀ s : State, (∀ p, 1 ≤ p → p ≤ 64 → s.pairAt p ≠ (true, true)) → NoReset 1456 s →
    ∃ t, exec .search s = .next t ∧ t.nf = false ∧ t.newDisc.toNat ≤ 64 ∧ RanBus 1456 128 s t

/-- R162: with `LASTDISC` = 0 the pass takes the 0-branch at every discrepancy, `NEWDISC` is the highest discrepancy
position (0 if none), and the initial buffer has no influence on the result. -/
def Obligations.SearchFreshStart : Prop :=
  ∀ (s : State) r, s.lastDisc = 0x00 → (∀ p, 1 ≤ p → p ≤ 64 → s.pairAt p ≠ (true, true)) → NoReset 1456 s →
    ∃ t u, exec .search s = .next t ∧ exec .search { s with rom := r } = .next u ∧
      u.rom = t.rom ∧ u.newDisc = t.newDisc ∧ u.trace = t.trace ∧
      (∀ p, 1 ≤ p → p ≤ 64 → s.pairAt p = (false, false) →
        wireBit s.params.searchOrder t.rom p = false ∧ p ≤ t.newDisc.toNat) ∧
      (t.newDisc = 0x00 ∨ s.pairAt t.newDisc.toNat = (false, false))

/-- R163: with `LASTDISC` above 64 every discrepancy replays the buffer, and `NEWDISC` is the highest position where a
0 was replayed (0 if none). -/
def Obligations.SearchBeyondLast : Prop :=
  ∀ s : State, 64 < s.lastDisc.toNat → (∀ p, 1 ≤ p → p ≤ 64 → s.pairAt p ≠ (true, true)) → NoReset 1456 s →
    ∃ t, exec .search s = .next t ∧
      (∀ p, 1 ≤ p → p ≤ 64 → s.pairAt p = (false, false) →
        wireBit s.params.searchOrder t.rom p = wireBit s.params.searchOrder s.rom p ∧
        (wireBit s.params.searchOrder s.rom p = false → p ≤ t.newDisc.toNat)) ∧
      (t.newDisc = 0x00 ∨ s.pairAt t.newDisc.toNat = (false, false) ∧
        wireBit s.params.searchOrder s.rom t.newDisc.toNat = false)

/-- R155, R160: one slave alone, answering each position with its bit and the complement, is found whole, and the
enumeration is complete, whatever the cursor and the buffer held. -/
def Obligations.SearchOneSlave : Prop :=
  ∀ (s : State) (w : Nat → Bool), (∀ p, 1 ≤ p → p ≤ 64 → s.pairAt p = (w p, !w p)) → NoReset 1456 s →
    ∃ t, exec .search s = .next t ∧ t.newDisc = 0x00 ∧ t.nf = false ∧
      ∀ p, 1 ≤ p → p ≤ 64 → wireBit s.params.searchOrder t.rom p = w p

/-- R166: search determinism against ideal slaves. A pass with `LASTDISC` = 0 finds the first slave in lexicographic
order of the wire sequences; a pass chained on a slave and its cursor finds the next one; the cursor it returns is
again the highest unexplored branch, and it is 0 only beside the last slave. -/
def Obligations.SearchEnumerates : Prop :=
  ∀ (s : State) (slaves : List (Nat → Bool)), NoReset 1456 s →
    (∀ t, exec .search s = .next t → IdealPass slaves s t.found) →
    (s.lastDisc = 0x00 → slaves ≠ [] → ∃ t, ∃ u ∈ slaves, exec .search s = .next t ∧ t.nf = false ∧
      (∀ p, 1 ≤ p → p ≤ 64 → t.found p = u p) ∧ (∀ v ∈ slaves, ¬ LexBefore v u) ∧
      IsCursor slaves u t.newDisc.toNat) ∧
    (∀ w ∈ slaves, (∀ p, 1 ≤ p → p ≤ 64 → s.found p = w p) → IsCursor slaves w s.lastDisc.toNat → s.lastDisc ≠ 0x00 →
      ∃ t, ∃ u ∈ slaves, exec .search s = .next t ∧ t.nf = false ∧ (∀ p, 1 ≤ p → p ≤ 64 → t.found p = u p) ∧
        LexBefore w u ∧ (∀ v ∈ slaves, LexBefore w v → ¬ LexBefore v u) ∧ IsCursor slaves u t.newDisc.toNat) ∧
    ∀ w, IsCursor slaves w 0 → ∀ v ∈ slaves, ¬ LexBefore w v

/-! ## The wire -/

/-- R58: `loc` in closed form for both orders; different positions are different bits; `ROM[7][0]` is position 1 and
`ROM[0][7]` position 64 with DESC. -/
def Obligations.LocMap : Prop :=
  (∀ p : Fin 64, loc .desc (p.val + 1) = (Fin.ofNat 8 (7 - p.val / 8), Fin.ofNat 8 (p.val % 8)) ∧
    loc .asc (p.val + 1) = (Fin.ofNat 8 (p.val / 8), Fin.ofNat 8 (p.val % 8))) ∧
  (∀ o (p q : Fin 64), loc o (p.val + 1) = loc o (q.val + 1) → p = q) ∧
  loc .desc 1 = (7, 0) ∧ loc .desc 64 = (0, 7)

/-- R125: if the eight answers to RBYTE are the bits WBYTE sent, RBYTE returns the byte. -/
def Obligations.ByteRoundTrip : Prop :=
  ∀ s u : State, NoReset 64 u → (∀ j, j < 8 → u.envAt j = s.arg.getLsbD j) → NoReset 48 s →
    ∃ t v, exec .wbyte s = .next t ∧ t.trace = s.trace ++ byteEvents s.params.slots s.arg ∧
      exec .rbyte u = .next v ∧ v.data = s.arg

/-- R138: a ROM read by RDROM and passed to MATCH unchanged is sent, after the command byte, bit for bit in the order
it was received. -/
def Obligations.RomRoundTrip : Prop :=
  ∀ s : State, NoReset 992 s →
    ∃ t u, exec .rdrom s = .next t ∧ exec .matchRom t = .next u ∧ u.rom = t.rom ∧
      u.trace = t.trace ++ byteEvents s.params.slots s.params.cmdMatchRom ++
        (List.range 64).flatMap (fun j => writeEvents s.params.slots (s.envAt j))

/-- R60 with no slave (every answer 1): RBIT gives 1, RBYTE 0xFF, RESET no presence, RDROM eight bytes 0xFF. -/
def Obligations.EmptyLine : Prop :=
  ∀ s : State, (∀ n, n < 64 → s.envAt n = true) → NoReset 560 s →
    (∃ t, exec .rbit s = .next t ∧ t.data = 0x01) ∧ (∃ t, exec .rbyte s = .next t ∧ t.data = 0xFF) ∧
    (∃ t, exec .reset s = .next t ∧ t.pres = false) ∧
    ∃ t, exec .rdrom s = .next t ∧ ∀ i : Fin 8, t.rom[i] = 0xFF

/-- R20 (column "written by"), R107, R92: what a bus command leaves in the working registers: the slot timer has run out,
only SEARCH touches `P`, `B1`, `B2`, `BIT` and `ND`, and WBIT, RBIT and RESET leave `SH` (DEDUCED, log entry 3: `SH` is
written by `WriteByte` and `ReadByte`, and these commands call neither). -/
def Obligations.WorkingRegisters : Prop :=
  ∀ i op (s : State), busOp i = some op → Legal i s → NoReset 1456 s → ∃ t, exec i s = .next t ∧ t.tmr = 0 ∧
    (i ≠ .search → t.p = s.p ∧ t.b1 = s.b1 ∧ t.b2 = s.b2 ∧ t.bit = s.bit ∧ t.nd = s.nd) ∧
    (i = .wbit ∨ i = .rbit ∨ i = .reset → t.sh = s.sh)

/-- R105, R113, R124: a bus command that no block reset cuts opens and closes its critical sections in strict
alternation and leaves none open. -/
def Obligations.SectionsAlternate : Prop :=
  ∀ i op (s : State), busOp i = some op → Legal i s → NoReset 1456 s →
    ∃ t es, exec i s = .next t ∧ t.trace = s.trace ++ es ∧ alternates false es = true

/-- R228: primitives and nominal microseconds of every command with the default slot table. -/
def Obligations.CommandLengths : Prop :=
  ∀ i op (s : State), busOp i = some op → Legal i s → NoReset 1456 s → s.params.slots = Config.defaultTimes.toTable →
    ∃ t es, exec i s = .next t ∧ t.trace = s.trace ++ es ∧
      (i = .wbit → es.length = 6 ∧ micros es = 70) ∧ (i = .rbit → es.length = 8 ∧ micros es = 70) ∧
      (i = .wbyte ∨ i = .skip → es.length = 48 ∧ micros es = 560) ∧
      (i = .rbyte → es.length = 64 ∧ micros es = 560) ∧ (i = .reset → es.length = 8 ∧ micros es = 960) ∧
      (i = .rdrom → es.length = 560 ∧ micros es = 5040) ∧ (i = .matchRom → es.length = 432 ∧ micros es = 5040) ∧
      (i = .search → t.nf = false → es.length = 1456 ∧ micros es = 14000) ∧
      (i = .search → t.nf = true → ∃ P, 1 ≤ P ∧ P ≤ 64 ∧ s.pairAt P = (true, true) ∧
        es.length = 48 + (P - 1) * 22 + 16 ∧ micros es = 560 + (P - 1) * 210 + 140)

/-- R93, R94: real durations within `T_TOL` keep a bit slot and the reset sequence within a few `T_TOL` of their
nominal length. Durations and `T_TOL` are whole microseconds (log entry 21, the model's choice). -/
def Obligations.RealDurations : Prop :=
  ∀ i (s t : State) tol es, i = .rbit ∨ i = .reset → NoReset 8 s → exec i s = .next t → t.trace = s.trace ++ es.map Prod.fst →
    RealSlot tol es → realTime es ≤ micros (es.map Prod.fst) + 4 * tol ∧ micros (es.map Prod.fst) ≤ realTime es + 3 * tol

/-! ## Reset, engine and termination -/

/-- R205, R40: the state after block reset, at power-up and at any later reset. That the trace gains `RST` is R207; that
every step with `rst` asserted, the block idle or busy, appends one is the model's choice (log entry 5). -/
def Obligations.BlockReset : Prop :=
  ((∀ a, regRead a State.reset = 0x00) ∧ State.reset.pres = false ∧ State.reset.nf = false ∧
    State.reset.ill = false ∧ Ended State.reset ∧ State.reset.hReady = true) ∧
  ∀ s : State, s.rstNow = true → ∃ t, step s = .next t ∧ (∀ a, regRead a t = 0x00) ∧ t.pres = false ∧ t.nf = false ∧
    t.ill = false ∧ Ended t ∧ t.hReady = true ∧ t.trace = s.trace ++ [.rst]

/-- R207: a block reset after `n` primitives of a running command abandons it there: no further primitive, the trace
gains `RST` and no `REL` or `ATOM-` is owed, every register is reset, and a held host request is dropped. -/
def Obligations.ResetMidCommand : Prop :=
  ∀ i op (s : State) n, busOp i = some op → Legal i s → NoReset n s → s.rst[n]? = some true → n < 1456 →
    (runEngine n (launch op s)).busy = true →
    ∃ t, exec i s = .next t ∧ t.trace = (runEngine n (launch op s)).trace ++ [.rst] ∧ (∀ a, regRead a t = 0x00) ∧
      Ended t ∧ t.host = s.host.tail ∧ t.rst = s.rst.drop (n + 1)

/-- R6, R10: while a command runs, a step of the machine is one primitive: it adds exactly one event to the trace. -/
def Obligations.OnePrimitivePerStep : Prop :=
  ∀ (s : State) slot, s.busy = true → s.rstNow = false → slotOf s = some slot →
    s.ph.val < (slot.prims s.params.slots).length →
    ∃ t e, step s = .next t ∧ t.trace = s.trace ++ [e] ∧ e ≠ .rst

/-- R6, R55: a bus command is the run of the machine's own steps from its launch, with the host never served. -/
def Obligations.CommandIsSteps : Prop :=
  ∀ i op (s : State), busOp i = some op → Legal i s →
    ∃ k t, k ≤ 1456 ∧ exec i s = .next t ∧ Host.Core.run Sys2Proof.core k (launch op s) = .next t ∧
      ∀ m, m < k → ∃ u, Host.Core.run Sys2Proof.core m (launch op s) = .next u ∧ u.busy = true

/-- R165, R224: from any state, whatever the line answers, the engine comes to rest within 1456 primitives. -/
def Obligations.EngineTerminates : Prop := ∀ s : State, (runEngine 1456 s).busy = false

/-- R210, R113: every legal bus command, cut by a block reset or not, ends with the line released, no critical section
open, `BUSY` = 0 and the sequencer idle. -/
def Obligations.EveryCommandEnds : Prop :=
  ∀ i op (s : State), busOp i = some op → Legal i s → ∃ t, exec i s = .next t ∧ Ended t

/-! ## Invariants -/

/-- R40: the reset state meets the invariants. -/
def Obligations.ResetInvariants : Prop := LineInv State.reset ∧ SearchInv State.reset

/-- R112, R32, R33: the line discipline is kept by every step: the block pulls the line low only inside a critical
section, and no section is open while the engine rests. -/
def Obligations.LineDiscipline : Prop :=
  (∀ s t : State, LineInv s → step s = .next t → LineInv t) ∧ ∀ s : State, LineInv s → s.atom = false → s.drv = false

/-- R29: `NF` is 1 exactly when `NEWDISC` is the sentinel, kept by every step. -/
def Obligations.SentinelFlag : Prop := ∀ s t : State, SearchInv s → step s = .next t → SearchInv t

/-- R5, R203: no step changes a parameter. -/
def Obligations.ParamsFixed : Prop := ∀ s t : State, step s = .next t → t.params = s.params

/-- R11, R62: a step only appends to the trace, and it uses up exactly as many answers of the line as it samples. -/
def Obligations.TraceGrows : Prop :=
  ∀ s t : State, step s = .next t → ∃ es, t.trace = s.trace ++ es ∧
    ∃ n, t.samples = s.samples + n ∧ t.answers = s.answers.drop n ∧
      (es.filter (fun e => match e with
        | .smp _ => true
        | .atomBegin | .low | .dly _ | .rel | .atomEnd | .rst => false)).length = n

/-! ## Host programs -/

/-- R82: what each pseudo-instruction does on an idle block: its commands run on the registers it wrote, and its `R`
returns the register's value. SEARCHNEXT writes to `LASTDISC` the value it read from `NEWDISC`, and is used only where
that is in 1..64. The value read is the port's read data (log entries 4 and 10, the model's choices). -/
def Obligations.PseudoInstructions : Prop :=
  ∀ s : State, s.busy = false → NoReset 1460 s →
    let ends := fun (o : Host.Outcome State Fault Refusal) (f : State → Byte) (q : Option (Host.Outcome State Fault Refusal)) =>
      ∃ t, o = .next t ∧ q = some (.next { t with hRdata := f t, rst := t.rst.tail })
    (∀ b, performPseudo (.sendBit b) s = some (exec .wbit { s with arg := zext8 b, rst := s.rst.drop 2 })) ∧
    (∀ v, performPseudo (.sendByte v) s = some (exec .wbyte { s with arg := v, rst := s.rst.drop 2 })) ∧
    ends (exec .rbyte { s with rst := s.rst.tail }) State.data (performPseudo .recvByte s) ∧
    ends (exec .rbit { s with rst := s.rst.tail }) State.data (performPseudo .recvBit s) ∧
    ends (exec .reset { s with rst := s.rst.tail }) statusByte (performPseudo .present s) ∧
    performPseudo .crcInit s = some (.next { s with crc := 0x00, rst := s.rst.tail }) ∧
    (∀ v, performPseudo (.crcByte v) s = some (.next { s with arg := v, crc := crc8 v s.crc, rst := s.rst.drop 2 })) ∧
    (∀ b, performPseudo (.ldRom b) s = some (.next { s with rom := b, rst := s.rst.drop 8 })) ∧
    ends (exec .search { s with lastDisc := 0x00, rst := s.rst.drop 2 }) State.newDisc (performPseudo .searchFirst s) ∧
    (1 ≤ s.newDisc.toNat ∧ s.newDisc.toNat ≤ 64 →
      ends (exec .search { s with lastDisc := s.newDisc, hRdata := s.newDisc, rst := s.rst.drop 3 }) State.newDisc
        (performPseudo .searchNext s)) ∧
    (s.newDisc.toNat = 0 ∨ 64 < s.newDisc.toNat → performPseudo .searchNext s = none)
end

