-- ==== Sys2Proof/Laws/State.lean ====
section
/-!
SUPPORT. One lemma per field per update of the state, each true by unfolding the update once, so that no later proof
unfolds a record update.
-/

namespace Sys2Proof.Machine

/-! ## `emit` -/

@[simp] theorem emit_arg (e : Event) (s : State) : (emit e s).arg = s.arg := rfl
@[simp] theorem emit_data (e : Event) (s : State) : (emit e s).data = s.data := rfl
@[simp] theorem emit_pres (e : Event) (s : State) : (emit e s).pres = s.pres := rfl
@[simp] theorem emit_nf (e : Event) (s : State) : (emit e s).nf = s.nf := rfl
@[simp] theorem emit_ill (e : Event) (s : State) : (emit e s).ill = s.ill := rfl
@[simp] theorem emit_crc (e : Event) (s : State) : (emit e s).crc = s.crc := rfl
@[simp] theorem emit_lastDisc (e : Event) (s : State) : (emit e s).lastDisc = s.lastDisc := rfl
@[simp] theorem emit_newDisc (e : Event) (s : State) : (emit e s).newDisc = s.newDisc := rfl
@[simp] theorem emit_rom (e : Event) (s : State) : (emit e s).rom = s.rom := rfl
@[simp] theorem emit_drv (e : Event) (s : State) : (emit e s).drv = s.drv := rfl
@[simp] theorem emit_atom (e : Event) (s : State) : (emit e s).atom = s.atom := rfl
@[simp] theorem emit_busy (e : Event) (s : State) : (emit e s).busy = s.busy := rfl
@[simp] theorem emit_op (e : Event) (s : State) : (emit e s).op = s.op := rfl
@[simp] theorem emit_stg (e : Event) (s : State) : (emit e s).stg = s.stg := rfl
@[simp] theorem emit_i (e : Event) (s : State) : (emit e s).i = s.i := rfl
@[simp] theorem emit_k (e : Event) (s : State) : (emit e s).k = s.k := rfl
@[simp] theorem emit_ph (e : Event) (s : State) : (emit e s).ph = s.ph := rfl
@[simp] theorem emit_p (e : Event) (s : State) : (emit e s).p = s.p := rfl
@[simp] theorem emit_sh (e : Event) (s : State) : (emit e s).sh = s.sh := rfl
@[simp] theorem emit_b1 (e : Event) (s : State) : (emit e s).b1 = s.b1 := rfl
@[simp] theorem emit_b2 (e : Event) (s : State) : (emit e s).b2 = s.b2 := rfl
@[simp] theorem emit_bit (e : Event) (s : State) : (emit e s).bit = s.bit := rfl
@[simp] theorem emit_nd (e : Event) (s : State) : (emit e s).nd = s.nd := rfl
@[simp] theorem emit_tmr (e : Event) (s : State) : (emit e s).tmr = s.tmr := rfl
@[simp] theorem emit_smp (e : Event) (s : State) : (emit e s).smp = s.smp := rfl
@[simp] theorem emit_log (e : Event) (s : State) : (emit e s).log = e :: s.log := rfl
@[simp] theorem emit_answers (e : Event) (s : State) : (emit e s).answers = s.answers := rfl
@[simp] theorem emit_samples (e : Event) (s : State) : (emit e s).samples = s.samples := rfl
@[simp] theorem emit_rst (e : Event) (s : State) : (emit e s).rst = s.rst := rfl
@[simp] theorem emit_host (e : Event) (s : State) : (emit e s).host = s.host := rfl
@[simp] theorem emit_hRdata (e : Event) (s : State) : (emit e s).hRdata = s.hRdata := rfl
@[simp] theorem emit_params (e : Event) (s : State) : (emit e s).params = s.params := rfl

/-! ## `passRst` -/

@[simp] theorem passRst_arg (s : State) : (passRst s).arg = s.arg := rfl
@[simp] theorem passRst_data (s : State) : (passRst s).data = s.data := rfl
@[simp] theorem passRst_pres (s : State) : (passRst s).pres = s.pres := rfl
@[simp] theorem passRst_nf (s : State) : (passRst s).nf = s.nf := rfl
@[simp] theorem passRst_ill (s : State) : (passRst s).ill = s.ill := rfl
@[simp] theorem passRst_crc (s : State) : (passRst s).crc = s.crc := rfl
@[simp] theorem passRst_lastDisc (s : State) : (passRst s).lastDisc = s.lastDisc := rfl
@[simp] theorem passRst_newDisc (s : State) : (passRst s).newDisc = s.newDisc := rfl
@[simp] theorem passRst_rom (s : State) : (passRst s).rom = s.rom := rfl
@[simp] theorem passRst_drv (s : State) : (passRst s).drv = s.drv := rfl
@[simp] theorem passRst_atom (s : State) : (passRst s).atom = s.atom := rfl
@[simp] theorem passRst_busy (s : State) : (passRst s).busy = s.busy := rfl
@[simp] theorem passRst_op (s : State) : (passRst s).op = s.op := rfl
@[simp] theorem passRst_stg (s : State) : (passRst s).stg = s.stg := rfl
@[simp] theorem passRst_i (s : State) : (passRst s).i = s.i := rfl
@[simp] theorem passRst_k (s : State) : (passRst s).k = s.k := rfl
@[simp] theorem passRst_ph (s : State) : (passRst s).ph = s.ph := rfl
@[simp] theorem passRst_p (s : State) : (passRst s).p = s.p := rfl
@[simp] theorem passRst_sh (s : State) : (passRst s).sh = s.sh := rfl
@[simp] theorem passRst_b1 (s : State) : (passRst s).b1 = s.b1 := rfl
@[simp] theorem passRst_b2 (s : State) : (passRst s).b2 = s.b2 := rfl
@[simp] theorem passRst_bit (s : State) : (passRst s).bit = s.bit := rfl
@[simp] theorem passRst_nd (s : State) : (passRst s).nd = s.nd := rfl
@[simp] theorem passRst_tmr (s : State) : (passRst s).tmr = s.tmr := rfl
@[simp] theorem passRst_smp (s : State) : (passRst s).smp = s.smp := rfl
@[simp] theorem passRst_log (s : State) : (passRst s).log = s.log := rfl
@[simp] theorem passRst_answers (s : State) : (passRst s).answers = s.answers := rfl
@[simp] theorem passRst_samples (s : State) : (passRst s).samples = s.samples := rfl
@[simp] theorem passRst_rst (s : State) : (passRst s).rst = s.rst.tail := rfl
@[simp] theorem passRst_host (s : State) : (passRst s).host = s.host := rfl
@[simp] theorem passRst_hRdata (s : State) : (passRst s).hRdata = s.hRdata := rfl
@[simp] theorem passRst_params (s : State) : (passRst s).params = s.params := rfl

/-! ## `driveLow` -/

@[simp] theorem driveLow_arg (s : State) : (driveLow s).arg = s.arg := rfl
@[simp] theorem driveLow_data (s : State) : (driveLow s).data = s.data := rfl
@[simp] theorem driveLow_pres (s : State) : (driveLow s).pres = s.pres := rfl
@[simp] theorem driveLow_nf (s : State) : (driveLow s).nf = s.nf := rfl
@[simp] theorem driveLow_ill (s : State) : (driveLow s).ill = s.ill := rfl
@[simp] theorem driveLow_crc (s : State) : (driveLow s).crc = s.crc := rfl
@[simp] theorem driveLow_lastDisc (s : State) : (driveLow s).lastDisc = s.lastDisc := rfl
@[simp] theorem driveLow_newDisc (s : State) : (driveLow s).newDisc = s.newDisc := rfl
@[simp] theorem driveLow_rom (s : State) : (driveLow s).rom = s.rom := rfl
@[simp] theorem driveLow_drv (s : State) : (driveLow s).drv = true := rfl
@[simp] theorem driveLow_atom (s : State) : (driveLow s).atom = s.atom := rfl
@[simp] theorem driveLow_busy (s : State) : (driveLow s).busy = s.busy := rfl
@[simp] theorem driveLow_op (s : State) : (driveLow s).op = s.op := rfl
@[simp] theorem driveLow_stg (s : State) : (driveLow s).stg = s.stg := rfl
@[simp] theorem driveLow_i (s : State) : (driveLow s).i = s.i := rfl
@[simp] theorem driveLow_k (s : State) : (driveLow s).k = s.k := rfl
@[simp] theorem driveLow_ph (s : State) : (driveLow s).ph = s.ph := rfl
@[simp] theorem driveLow_p (s : State) : (driveLow s).p = s.p := rfl
@[simp] theorem driveLow_sh (s : State) : (driveLow s).sh = s.sh := rfl
@[simp] theorem driveLow_b1 (s : State) : (driveLow s).b1 = s.b1 := rfl
@[simp] theorem driveLow_b2 (s : State) : (driveLow s).b2 = s.b2 := rfl
@[simp] theorem driveLow_bit (s : State) : (driveLow s).bit = s.bit := rfl
@[simp] theorem driveLow_nd (s : State) : (driveLow s).nd = s.nd := rfl
@[simp] theorem driveLow_tmr (s : State) : (driveLow s).tmr = s.tmr := rfl
@[simp] theorem driveLow_smp (s : State) : (driveLow s).smp = s.smp := rfl
@[simp] theorem driveLow_log (s : State) : (driveLow s).log = .low :: s.log := rfl
@[simp] theorem driveLow_answers (s : State) : (driveLow s).answers = s.answers := rfl
@[simp] theorem driveLow_samples (s : State) : (driveLow s).samples = s.samples := rfl
@[simp] theorem driveLow_rst (s : State) : (driveLow s).rst = s.rst := rfl
@[simp] theorem driveLow_host (s : State) : (driveLow s).host = s.host := rfl
@[simp] theorem driveLow_hRdata (s : State) : (driveLow s).hRdata = s.hRdata := rfl
@[simp] theorem driveLow_params (s : State) : (driveLow s).params = s.params := rfl

/-! ## `release` -/

@[simp] theorem release_arg (s : State) : (release s).arg = s.arg := rfl
@[simp] theorem release_data (s : State) : (release s).data = s.data := rfl
@[simp] theorem release_pres (s : State) : (release s).pres = s.pres := rfl
@[simp] theorem release_nf (s : State) : (release s).nf = s.nf := rfl
@[simp] theorem release_ill (s : State) : (release s).ill = s.ill := rfl
@[simp] theorem release_crc (s : State) : (release s).crc = s.crc := rfl
@[simp] theorem release_lastDisc (s : State) : (release s).lastDisc = s.lastDisc := rfl
@[simp] theorem release_newDisc (s : State) : (release s).newDisc = s.newDisc := rfl
@[simp] theorem release_rom (s : State) : (release s).rom = s.rom := rfl
@[simp] theorem release_drv (s : State) : (release s).drv = false := rfl
@[simp] theorem release_atom (s : State) : (release s).atom = s.atom := rfl
@[simp] theorem release_busy (s : State) : (release s).busy = s.busy := rfl
@[simp] theorem release_op (s : State) : (release s).op = s.op := rfl
@[simp] theorem release_stg (s : State) : (release s).stg = s.stg := rfl
@[simp] theorem release_i (s : State) : (release s).i = s.i := rfl
@[simp] theorem release_k (s : State) : (release s).k = s.k := rfl
@[simp] theorem release_ph (s : State) : (release s).ph = s.ph := rfl
@[simp] theorem release_p (s : State) : (release s).p = s.p := rfl
@[simp] theorem release_sh (s : State) : (release s).sh = s.sh := rfl
@[simp] theorem release_b1 (s : State) : (release s).b1 = s.b1 := rfl
@[simp] theorem release_b2 (s : State) : (release s).b2 = s.b2 := rfl
@[simp] theorem release_bit (s : State) : (release s).bit = s.bit := rfl
@[simp] theorem release_nd (s : State) : (release s).nd = s.nd := rfl
@[simp] theorem release_tmr (s : State) : (release s).tmr = s.tmr := rfl
@[simp] theorem release_smp (s : State) : (release s).smp = s.smp := rfl
@[simp] theorem release_log (s : State) : (release s).log = .rel :: s.log := rfl
@[simp] theorem release_answers (s : State) : (release s).answers = s.answers := rfl
@[simp] theorem release_samples (s : State) : (release s).samples = s.samples := rfl
@[simp] theorem release_rst (s : State) : (release s).rst = s.rst := rfl
@[simp] theorem release_host (s : State) : (release s).host = s.host := rfl
@[simp] theorem release_hRdata (s : State) : (release s).hRdata = s.hRdata := rfl
@[simp] theorem release_params (s : State) : (release s).params = s.params := rfl

/-! ## `sample` -/

@[simp] theorem sample_arg (s : State) : (sample s).arg = s.arg := rfl
@[simp] theorem sample_data (s : State) : (sample s).data = s.data := rfl
@[simp] theorem sample_pres (s : State) : (sample s).pres = s.pres := rfl
@[simp] theorem sample_nf (s : State) : (sample s).nf = s.nf := rfl
@[simp] theorem sample_ill (s : State) : (sample s).ill = s.ill := rfl
@[simp] theorem sample_crc (s : State) : (sample s).crc = s.crc := rfl
@[simp] theorem sample_lastDisc (s : State) : (sample s).lastDisc = s.lastDisc := rfl
@[simp] theorem sample_newDisc (s : State) : (sample s).newDisc = s.newDisc := rfl
@[simp] theorem sample_rom (s : State) : (sample s).rom = s.rom := rfl
@[simp] theorem sample_drv (s : State) : (sample s).drv = s.drv := rfl
@[simp] theorem sample_atom (s : State) : (sample s).atom = s.atom := rfl
@[simp] theorem sample_busy (s : State) : (sample s).busy = s.busy := rfl
@[simp] theorem sample_op (s : State) : (sample s).op = s.op := rfl
@[simp] theorem sample_stg (s : State) : (sample s).stg = s.stg := rfl
@[simp] theorem sample_i (s : State) : (sample s).i = s.i := rfl
@[simp] theorem sample_k (s : State) : (sample s).k = s.k := rfl
@[simp] theorem sample_ph (s : State) : (sample s).ph = s.ph := rfl
@[simp] theorem sample_p (s : State) : (sample s).p = s.p := rfl
@[simp] theorem sample_sh (s : State) : (sample s).sh = s.sh := rfl
@[simp] theorem sample_b1 (s : State) : (sample s).b1 = s.b1 := rfl
@[simp] theorem sample_b2 (s : State) : (sample s).b2 = s.b2 := rfl
@[simp] theorem sample_bit (s : State) : (sample s).bit = s.bit := rfl
@[simp] theorem sample_nd (s : State) : (sample s).nd = s.nd := rfl
@[simp] theorem sample_tmr (s : State) : (sample s).tmr = s.tmr := rfl
@[simp] theorem sample_smp (s : State) : (sample s).smp = s.line := rfl
@[simp] theorem sample_log (s : State) : (sample s).log = .smp s.line :: s.log := rfl
@[simp] theorem sample_answers (s : State) : (sample s).answers = s.answers.tail := rfl
@[simp] theorem sample_samples (s : State) : (sample s).samples = s.samples + 1 := rfl
@[simp] theorem sample_rst (s : State) : (sample s).rst = s.rst := rfl
@[simp] theorem sample_host (s : State) : (sample s).host = s.host := rfl
@[simp] theorem sample_hRdata (s : State) : (sample s).hRdata = s.hRdata := rfl
@[simp] theorem sample_params (s : State) : (sample s).params = s.params := rfl

/-! ## `delay` -/

@[simp] theorem delay_arg (n : Micros) (s : State) : (delay n s).arg = s.arg := rfl
@[simp] theorem delay_data (n : Micros) (s : State) : (delay n s).data = s.data := rfl
@[simp] theorem delay_pres (n : Micros) (s : State) : (delay n s).pres = s.pres := rfl
@[simp] theorem delay_nf (n : Micros) (s : State) : (delay n s).nf = s.nf := rfl
@[simp] theorem delay_ill (n : Micros) (s : State) : (delay n s).ill = s.ill := rfl
@[simp] theorem delay_crc (n : Micros) (s : State) : (delay n s).crc = s.crc := rfl
@[simp] theorem delay_lastDisc (n : Micros) (s : State) : (delay n s).lastDisc = s.lastDisc := rfl
@[simp] theorem delay_newDisc (n : Micros) (s : State) : (delay n s).newDisc = s.newDisc := rfl
@[simp] theorem delay_rom (n : Micros) (s : State) : (delay n s).rom = s.rom := rfl
@[simp] theorem delay_drv (n : Micros) (s : State) : (delay n s).drv = s.drv := rfl
@[simp] theorem delay_atom (n : Micros) (s : State) : (delay n s).atom = s.atom := rfl
@[simp] theorem delay_busy (n : Micros) (s : State) : (delay n s).busy = s.busy := rfl
@[simp] theorem delay_op (n : Micros) (s : State) : (delay n s).op = s.op := rfl
@[simp] theorem delay_stg (n : Micros) (s : State) : (delay n s).stg = s.stg := rfl
@[simp] theorem delay_i (n : Micros) (s : State) : (delay n s).i = s.i := rfl
@[simp] theorem delay_k (n : Micros) (s : State) : (delay n s).k = s.k := rfl
@[simp] theorem delay_ph (n : Micros) (s : State) : (delay n s).ph = s.ph := rfl
@[simp] theorem delay_p (n : Micros) (s : State) : (delay n s).p = s.p := rfl
@[simp] theorem delay_sh (n : Micros) (s : State) : (delay n s).sh = s.sh := rfl
@[simp] theorem delay_b1 (n : Micros) (s : State) : (delay n s).b1 = s.b1 := rfl
@[simp] theorem delay_b2 (n : Micros) (s : State) : (delay n s).b2 = s.b2 := rfl
@[simp] theorem delay_bit (n : Micros) (s : State) : (delay n s).bit = s.bit := rfl
@[simp] theorem delay_nd (n : Micros) (s : State) : (delay n s).nd = s.nd := rfl
@[simp] theorem delay_tmr (n : Micros) (s : State) : (delay n s).tmr = runTimer n.toNat n := rfl
@[simp] theorem delay_smp (n : Micros) (s : State) : (delay n s).smp = s.smp := rfl
@[simp] theorem delay_log (n : Micros) (s : State) : (delay n s).log = .dly n :: s.log := rfl
@[simp] theorem delay_answers (n : Micros) (s : State) : (delay n s).answers = s.answers := rfl
@[simp] theorem delay_samples (n : Micros) (s : State) : (delay n s).samples = s.samples := rfl
@[simp] theorem delay_rst (n : Micros) (s : State) : (delay n s).rst = s.rst := rfl
@[simp] theorem delay_host (n : Micros) (s : State) : (delay n s).host = s.host := rfl
@[simp] theorem delay_hRdata (n : Micros) (s : State) : (delay n s).hRdata = s.hRdata := rfl
@[simp] theorem delay_params (n : Micros) (s : State) : (delay n s).params = s.params := rfl

/-! ## `atomicBegin` -/

@[simp] theorem atomicBegin_arg (s : State) : (atomicBegin s).arg = s.arg := rfl
@[simp] theorem atomicBegin_data (s : State) : (atomicBegin s).data = s.data := rfl
@[simp] theorem atomicBegin_pres (s : State) : (atomicBegin s).pres = s.pres := rfl
@[simp] theorem atomicBegin_nf (s : State) : (atomicBegin s).nf = s.nf := rfl
@[simp] theorem atomicBegin_ill (s : State) : (atomicBegin s).ill = s.ill := rfl
@[simp] theorem atomicBegin_crc (s : State) : (atomicBegin s).crc = s.crc := rfl
@[simp] theorem atomicBegin_lastDisc (s : State) : (atomicBegin s).lastDisc = s.lastDisc := rfl
@[simp] theorem atomicBegin_newDisc (s : State) : (atomicBegin s).newDisc = s.newDisc := rfl
@[simp] theorem atomicBegin_rom (s : State) : (atomicBegin s).rom = s.rom := rfl
@[simp] theorem atomicBegin_drv (s : State) : (atomicBegin s).drv = s.drv := rfl
@[simp] theorem atomicBegin_atom (s : State) : (atomicBegin s).atom = true := rfl
@[simp] theorem atomicBegin_busy (s : State) : (atomicBegin s).busy = s.busy := rfl
@[simp] theorem atomicBegin_op (s : State) : (atomicBegin s).op = s.op := rfl
@[simp] theorem atomicBegin_stg (s : State) : (atomicBegin s).stg = s.stg := rfl
@[simp] theorem atomicBegin_i (s : State) : (atomicBegin s).i = s.i := rfl
@[simp] theorem atomicBegin_k (s : State) : (atomicBegin s).k = s.k := rfl
@[simp] theorem atomicBegin_ph (s : State) : (atomicBegin s).ph = s.ph := rfl
@[simp] theorem atomicBegin_p (s : State) : (atomicBegin s).p = s.p := rfl
@[simp] theorem atomicBegin_sh (s : State) : (atomicBegin s).sh = s.sh := rfl
@[simp] theorem atomicBegin_b1 (s : State) : (atomicBegin s).b1 = s.b1 := rfl
@[simp] theorem atomicBegin_b2 (s : State) : (atomicBegin s).b2 = s.b2 := rfl
@[simp] theorem atomicBegin_bit (s : State) : (atomicBegin s).bit = s.bit := rfl
@[simp] theorem atomicBegin_nd (s : State) : (atomicBegin s).nd = s.nd := rfl
@[simp] theorem atomicBegin_tmr (s : State) : (atomicBegin s).tmr = s.tmr := rfl
@[simp] theorem atomicBegin_smp (s : State) : (atomicBegin s).smp = s.smp := rfl
@[simp] theorem atomicBegin_log (s : State) : (atomicBegin s).log = .atomBegin :: s.log := rfl
@[simp] theorem atomicBegin_answers (s : State) : (atomicBegin s).answers = s.answers := rfl
@[simp] theorem atomicBegin_samples (s : State) : (atomicBegin s).samples = s.samples := rfl
@[simp] theorem atomicBegin_rst (s : State) : (atomicBegin s).rst = s.rst := rfl
@[simp] theorem atomicBegin_host (s : State) : (atomicBegin s).host = s.host := rfl
@[simp] theorem atomicBegin_hRdata (s : State) : (atomicBegin s).hRdata = s.hRdata := rfl
@[simp] theorem atomicBegin_params (s : State) : (atomicBegin s).params = s.params := rfl

/-! ## `atomicEnd` -/

@[simp] theorem atomicEnd_arg (s : State) : (atomicEnd s).arg = s.arg := rfl
@[simp] theorem atomicEnd_data (s : State) : (atomicEnd s).data = s.data := rfl
@[simp] theorem atomicEnd_pres (s : State) : (atomicEnd s).pres = s.pres := rfl
@[simp] theorem atomicEnd_nf (s : State) : (atomicEnd s).nf = s.nf := rfl
@[simp] theorem atomicEnd_ill (s : State) : (atomicEnd s).ill = s.ill := rfl
@[simp] theorem atomicEnd_crc (s : State) : (atomicEnd s).crc = s.crc := rfl
@[simp] theorem atomicEnd_lastDisc (s : State) : (atomicEnd s).lastDisc = s.lastDisc := rfl
@[simp] theorem atomicEnd_newDisc (s : State) : (atomicEnd s).newDisc = s.newDisc := rfl
@[simp] theorem atomicEnd_rom (s : State) : (atomicEnd s).rom = s.rom := rfl
@[simp] theorem atomicEnd_drv (s : State) : (atomicEnd s).drv = s.drv := rfl
@[simp] theorem atomicEnd_atom (s : State) : (atomicEnd s).atom = false := rfl
@[simp] theorem atomicEnd_busy (s : State) : (atomicEnd s).busy = s.busy := rfl
@[simp] theorem atomicEnd_op (s : State) : (atomicEnd s).op = s.op := rfl
@[simp] theorem atomicEnd_stg (s : State) : (atomicEnd s).stg = s.stg := rfl
@[simp] theorem atomicEnd_i (s : State) : (atomicEnd s).i = s.i := rfl
@[simp] theorem atomicEnd_k (s : State) : (atomicEnd s).k = s.k := rfl
@[simp] theorem atomicEnd_ph (s : State) : (atomicEnd s).ph = s.ph := rfl
@[simp] theorem atomicEnd_p (s : State) : (atomicEnd s).p = s.p := rfl
@[simp] theorem atomicEnd_sh (s : State) : (atomicEnd s).sh = s.sh := rfl
@[simp] theorem atomicEnd_b1 (s : State) : (atomicEnd s).b1 = s.b1 := rfl
@[simp] theorem atomicEnd_b2 (s : State) : (atomicEnd s).b2 = s.b2 := rfl
@[simp] theorem atomicEnd_bit (s : State) : (atomicEnd s).bit = s.bit := rfl
@[simp] theorem atomicEnd_nd (s : State) : (atomicEnd s).nd = s.nd := rfl
@[simp] theorem atomicEnd_tmr (s : State) : (atomicEnd s).tmr = s.tmr := rfl
@[simp] theorem atomicEnd_smp (s : State) : (atomicEnd s).smp = s.smp := rfl
@[simp] theorem atomicEnd_log (s : State) : (atomicEnd s).log = .atomEnd :: s.log := rfl
@[simp] theorem atomicEnd_answers (s : State) : (atomicEnd s).answers = s.answers := rfl
@[simp] theorem atomicEnd_samples (s : State) : (atomicEnd s).samples = s.samples := rfl
@[simp] theorem atomicEnd_rst (s : State) : (atomicEnd s).rst = s.rst := rfl
@[simp] theorem atomicEnd_host (s : State) : (atomicEnd s).host = s.host := rfl
@[simp] theorem atomicEnd_hRdata (s : State) : (atomicEnd s).hRdata = s.hRdata := rfl
@[simp] theorem atomicEnd_params (s : State) : (atomicEnd s).params = s.params := rfl

/-! ## `endCommand` -/

@[simp] theorem endCommand_arg (s : State) : (endCommand s).arg = s.arg := rfl
@[simp] theorem endCommand_data (s : State) : (endCommand s).data = s.data := rfl
@[simp] theorem endCommand_pres (s : State) : (endCommand s).pres = s.pres := rfl
@[simp] theorem endCommand_nf (s : State) : (endCommand s).nf = s.nf := rfl
@[simp] theorem endCommand_ill (s : State) : (endCommand s).ill = s.ill := rfl
@[simp] theorem endCommand_crc (s : State) : (endCommand s).crc = s.crc := rfl
@[simp] theorem endCommand_lastDisc (s : State) : (endCommand s).lastDisc = s.lastDisc := rfl
@[simp] theorem endCommand_newDisc (s : State) : (endCommand s).newDisc = s.newDisc := rfl
@[simp] theorem endCommand_rom (s : State) : (endCommand s).rom = s.rom := rfl
@[simp] theorem endCommand_drv (s : State) : (endCommand s).drv = s.drv := rfl
@[simp] theorem endCommand_atom (s : State) : (endCommand s).atom = s.atom := rfl
@[simp] theorem endCommand_busy (s : State) : (endCommand s).busy = false := rfl
@[simp] theorem endCommand_op (s : State) : (endCommand s).op = .idle := rfl
@[simp] theorem endCommand_stg (s : State) : (endCommand s).stg = .s0 := rfl
@[simp] theorem endCommand_i (s : State) : (endCommand s).i = 0 := rfl
@[simp] theorem endCommand_k (s : State) : (endCommand s).k = 0 := rfl
@[simp] theorem endCommand_ph (s : State) : (endCommand s).ph = 0 := rfl
@[simp] theorem endCommand_p (s : State) : (endCommand s).p = s.p := rfl
@[simp] theorem endCommand_sh (s : State) : (endCommand s).sh = s.sh := rfl
@[simp] theorem endCommand_b1 (s : State) : (endCommand s).b1 = s.b1 := rfl
@[simp] theorem endCommand_b2 (s : State) : (endCommand s).b2 = s.b2 := rfl
@[simp] theorem endCommand_bit (s : State) : (endCommand s).bit = s.bit := rfl
@[simp] theorem endCommand_nd (s : State) : (endCommand s).nd = s.nd := rfl
@[simp] theorem endCommand_tmr (s : State) : (endCommand s).tmr = s.tmr := rfl
@[simp] theorem endCommand_smp (s : State) : (endCommand s).smp = s.smp := rfl
@[simp] theorem endCommand_log (s : State) : (endCommand s).log = s.log := rfl
@[simp] theorem endCommand_answers (s : State) : (endCommand s).answers = s.answers := rfl
@[simp] theorem endCommand_samples (s : State) : (endCommand s).samples = s.samples := rfl
@[simp] theorem endCommand_rst (s : State) : (endCommand s).rst = s.rst := rfl
@[simp] theorem endCommand_host (s : State) : (endCommand s).host = s.host := rfl
@[simp] theorem endCommand_hRdata (s : State) : (endCommand s).hRdata = s.hRdata := rfl
@[simp] theorem endCommand_params (s : State) : (endCommand s).params = s.params := rfl

/-! ## `blockReset` -/

@[simp] theorem blockReset_arg (s : State) : (blockReset s).arg = 0 := rfl
@[simp] theorem blockReset_data (s : State) : (blockReset s).data = 0 := rfl
@[simp] theorem blockReset_pres (s : State) : (blockReset s).pres = false := rfl
@[simp] theorem blockReset_nf (s : State) : (blockReset s).nf = false := rfl
@[simp] theorem blockReset_ill (s : State) : (blockReset s).ill = false := rfl
@[simp] theorem blockReset_crc (s : State) : (blockReset s).crc = 0 := rfl
@[simp] theorem blockReset_lastDisc (s : State) : (blockReset s).lastDisc = 0 := rfl
@[simp] theorem blockReset_newDisc (s : State) : (blockReset s).newDisc = 0 := rfl
@[simp] theorem blockReset_rom (s : State) : (blockReset s).rom = Vector.replicate 8 0 := rfl
@[simp] theorem blockReset_drv (s : State) : (blockReset s).drv = false := rfl
@[simp] theorem blockReset_atom (s : State) : (blockReset s).atom = false := rfl
@[simp] theorem blockReset_busy (s : State) : (blockReset s).busy = false := rfl
@[simp] theorem blockReset_op (s : State) : (blockReset s).op = .idle := rfl
@[simp] theorem blockReset_stg (s : State) : (blockReset s).stg = .s0 := rfl
@[simp] theorem blockReset_i (s : State) : (blockReset s).i = 0 := rfl
@[simp] theorem blockReset_k (s : State) : (blockReset s).k = 0 := rfl
@[simp] theorem blockReset_ph (s : State) : (blockReset s).ph = 0 := rfl
@[simp] theorem blockReset_p (s : State) : (blockReset s).p = 0 := rfl
@[simp] theorem blockReset_sh (s : State) : (blockReset s).sh = 0 := rfl
@[simp] theorem blockReset_b1 (s : State) : (blockReset s).b1 = false := rfl
@[simp] theorem blockReset_b2 (s : State) : (blockReset s).b2 = false := rfl
@[simp] theorem blockReset_bit (s : State) : (blockReset s).bit = false := rfl
@[simp] theorem blockReset_nd (s : State) : (blockReset s).nd = 0 := rfl
@[simp] theorem blockReset_tmr (s : State) : (blockReset s).tmr = 0 := rfl
@[simp] theorem blockReset_smp (s : State) : (blockReset s).smp = false := rfl
@[simp] theorem blockReset_log (s : State) : (blockReset s).log = .rst :: s.log := rfl
@[simp] theorem blockReset_answers (s : State) : (blockReset s).answers = s.answers := rfl
@[simp] theorem blockReset_samples (s : State) : (blockReset s).samples = s.samples := rfl
@[simp] theorem blockReset_rst (s : State) : (blockReset s).rst = s.rst.tail := rfl
@[simp] theorem blockReset_host (s : State) : (blockReset s).host = s.host.tail := rfl
@[simp] theorem blockReset_hRdata (s : State) : (blockReset s).hRdata = s.hRdata := rfl
@[simp] theorem blockReset_params (s : State) : (blockReset s).params = s.params := rfl

/-! ## `raiseStatus_noResponse` -/

@[simp] theorem raiseStatus_noResponse_arg (s : State) : (raiseStatus .noResponse s).arg = s.arg := rfl
@[simp] theorem raiseStatus_noResponse_data (s : State) : (raiseStatus .noResponse s).data = s.data := rfl
@[simp] theorem raiseStatus_noResponse_pres (s : State) : (raiseStatus .noResponse s).pres = s.pres := rfl
@[simp] theorem raiseStatus_noResponse_nf (s : State) : (raiseStatus .noResponse s).nf = true := rfl
@[simp] theorem raiseStatus_noResponse_ill (s : State) : (raiseStatus .noResponse s).ill = s.ill := rfl
@[simp] theorem raiseStatus_noResponse_crc (s : State) : (raiseStatus .noResponse s).crc = s.crc := rfl
@[simp] theorem raiseStatus_noResponse_lastDisc (s : State) : (raiseStatus .noResponse s).lastDisc = s.lastDisc := rfl
@[simp] theorem raiseStatus_noResponse_newDisc (s : State) : (raiseStatus .noResponse s).newDisc = Config.searchFailed := rfl
@[simp] theorem raiseStatus_noResponse_rom (s : State) : (raiseStatus .noResponse s).rom = s.rom := rfl
@[simp] theorem raiseStatus_noResponse_drv (s : State) : (raiseStatus .noResponse s).drv = s.drv := rfl
@[simp] theorem raiseStatus_noResponse_atom (s : State) : (raiseStatus .noResponse s).atom = s.atom := rfl
@[simp] theorem raiseStatus_noResponse_busy (s : State) : (raiseStatus .noResponse s).busy = false := rfl
@[simp] theorem raiseStatus_noResponse_op (s : State) : (raiseStatus .noResponse s).op = .idle := rfl
@[simp] theorem raiseStatus_noResponse_stg (s : State) : (raiseStatus .noResponse s).stg = .s0 := rfl
@[simp] theorem raiseStatus_noResponse_i (s : State) : (raiseStatus .noResponse s).i = 0 := rfl
@[simp] theorem raiseStatus_noResponse_k (s : State) : (raiseStatus .noResponse s).k = 0 := rfl
@[simp] theorem raiseStatus_noResponse_ph (s : State) : (raiseStatus .noResponse s).ph = 0 := rfl
@[simp] theorem raiseStatus_noResponse_p (s : State) : (raiseStatus .noResponse s).p = s.p := rfl
@[simp] theorem raiseStatus_noResponse_sh (s : State) : (raiseStatus .noResponse s).sh = s.sh := rfl
@[simp] theorem raiseStatus_noResponse_b1 (s : State) : (raiseStatus .noResponse s).b1 = s.b1 := rfl
@[simp] theorem raiseStatus_noResponse_b2 (s : State) : (raiseStatus .noResponse s).b2 = s.b2 := rfl
@[simp] theorem raiseStatus_noResponse_bit (s : State) : (raiseStatus .noResponse s).bit = s.bit := rfl
@[simp] theorem raiseStatus_noResponse_nd (s : State) : (raiseStatus .noResponse s).nd = s.nd := rfl
@[simp] theorem raiseStatus_noResponse_tmr (s : State) : (raiseStatus .noResponse s).tmr = s.tmr := rfl
@[simp] theorem raiseStatus_noResponse_smp (s : State) : (raiseStatus .noResponse s).smp = s.smp := rfl
@[simp] theorem raiseStatus_noResponse_log (s : State) : (raiseStatus .noResponse s).log = s.log := rfl
@[simp] theorem raiseStatus_noResponse_answers (s : State) : (raiseStatus .noResponse s).answers = s.answers := rfl
@[simp] theorem raiseStatus_noResponse_samples (s : State) : (raiseStatus .noResponse s).samples = s.samples := rfl
@[simp] theorem raiseStatus_noResponse_rst (s : State) : (raiseStatus .noResponse s).rst = s.rst := rfl
@[simp] theorem raiseStatus_noResponse_host (s : State) : (raiseStatus .noResponse s).host = s.host := rfl
@[simp] theorem raiseStatus_noResponse_hRdata (s : State) : (raiseStatus .noResponse s).hRdata = s.hRdata := rfl
@[simp] theorem raiseStatus_noResponse_params (s : State) : (raiseStatus .noResponse s).params = s.params := rfl

/-! ## `raiseStatus_absentDevice` -/

@[simp] theorem raiseStatus_absentDevice_arg (s : State) : (raiseStatus .absentDevice s).arg = s.arg := rfl
@[simp] theorem raiseStatus_absentDevice_data (s : State) : (raiseStatus .absentDevice s).data = s.data := rfl
@[simp] theorem raiseStatus_absentDevice_pres (s : State) : (raiseStatus .absentDevice s).pres = false := rfl
@[simp] theorem raiseStatus_absentDevice_nf (s : State) : (raiseStatus .absentDevice s).nf = s.nf := rfl
@[simp] theorem raiseStatus_absentDevice_ill (s : State) : (raiseStatus .absentDevice s).ill = s.ill := rfl
@[simp] theorem raiseStatus_absentDevice_crc (s : State) : (raiseStatus .absentDevice s).crc = s.crc := rfl
@[simp] theorem raiseStatus_absentDevice_lastDisc (s : State) : (raiseStatus .absentDevice s).lastDisc = s.lastDisc := rfl
@[simp] theorem raiseStatus_absentDevice_newDisc (s : State) : (raiseStatus .absentDevice s).newDisc = s.newDisc := rfl
@[simp] theorem raiseStatus_absentDevice_rom (s : State) : (raiseStatus .absentDevice s).rom = s.rom := rfl
@[simp] theorem raiseStatus_absentDevice_drv (s : State) : (raiseStatus .absentDevice s).drv = s.drv := rfl
@[simp] theorem raiseStatus_absentDevice_atom (s : State) : (raiseStatus .absentDevice s).atom = s.atom := rfl
@[simp] theorem raiseStatus_absentDevice_busy (s : State) : (raiseStatus .absentDevice s).busy = false := rfl
@[simp] theorem raiseStatus_absentDevice_op (s : State) : (raiseStatus .absentDevice s).op = .idle := rfl
@[simp] theorem raiseStatus_absentDevice_stg (s : State) : (raiseStatus .absentDevice s).stg = .s0 := rfl
@[simp] theorem raiseStatus_absentDevice_i (s : State) : (raiseStatus .absentDevice s).i = 0 := rfl
@[simp] theorem raiseStatus_absentDevice_k (s : State) : (raiseStatus .absentDevice s).k = 0 := rfl
@[simp] theorem raiseStatus_absentDevice_ph (s : State) : (raiseStatus .absentDevice s).ph = 0 := rfl
@[simp] theorem raiseStatus_absentDevice_p (s : State) : (raiseStatus .absentDevice s).p = s.p := rfl
@[simp] theorem raiseStatus_absentDevice_sh (s : State) : (raiseStatus .absentDevice s).sh = s.sh := rfl
@[simp] theorem raiseStatus_absentDevice_b1 (s : State) : (raiseStatus .absentDevice s).b1 = s.b1 := rfl
@[simp] theorem raiseStatus_absentDevice_b2 (s : State) : (raiseStatus .absentDevice s).b2 = s.b2 := rfl
@[simp] theorem raiseStatus_absentDevice_bit (s : State) : (raiseStatus .absentDevice s).bit = s.bit := rfl
@[simp] theorem raiseStatus_absentDevice_nd (s : State) : (raiseStatus .absentDevice s).nd = s.nd := rfl
@[simp] theorem raiseStatus_absentDevice_tmr (s : State) : (raiseStatus .absentDevice s).tmr = s.tmr := rfl
@[simp] theorem raiseStatus_absentDevice_smp (s : State) : (raiseStatus .absentDevice s).smp = s.smp := rfl
@[simp] theorem raiseStatus_absentDevice_log (s : State) : (raiseStatus .absentDevice s).log = s.log := rfl
@[simp] theorem raiseStatus_absentDevice_answers (s : State) : (raiseStatus .absentDevice s).answers = s.answers := rfl
@[simp] theorem raiseStatus_absentDevice_samples (s : State) : (raiseStatus .absentDevice s).samples = s.samples := rfl
@[simp] theorem raiseStatus_absentDevice_rst (s : State) : (raiseStatus .absentDevice s).rst = s.rst := rfl
@[simp] theorem raiseStatus_absentDevice_host (s : State) : (raiseStatus .absentDevice s).host = s.host := rfl
@[simp] theorem raiseStatus_absentDevice_hRdata (s : State) : (raiseStatus .absentDevice s).hRdata = s.hRdata := rfl
@[simp] theorem raiseStatus_absentDevice_params (s : State) : (raiseStatus .absentDevice s).params = s.params := rfl

/-! ## `illegalCommand` -/

@[simp] theorem illegalCommand_arg (s : State) : (illegalCommand s).arg = s.arg := rfl
@[simp] theorem illegalCommand_data (s : State) : (illegalCommand s).data = s.data := rfl
@[simp] theorem illegalCommand_pres (s : State) : (illegalCommand s).pres = s.pres := rfl
@[simp] theorem illegalCommand_nf (s : State) : (illegalCommand s).nf = s.nf := rfl
@[simp] theorem illegalCommand_ill (s : State) : (illegalCommand s).ill = true := rfl
@[simp] theorem illegalCommand_crc (s : State) : (illegalCommand s).crc = s.crc := rfl
@[simp] theorem illegalCommand_lastDisc (s : State) : (illegalCommand s).lastDisc = s.lastDisc := rfl
@[simp] theorem illegalCommand_newDisc (s : State) : (illegalCommand s).newDisc = s.newDisc := rfl
@[simp] theorem illegalCommand_rom (s : State) : (illegalCommand s).rom = s.rom := rfl
@[simp] theorem illegalCommand_drv (s : State) : (illegalCommand s).drv = s.drv := rfl
@[simp] theorem illegalCommand_atom (s : State) : (illegalCommand s).atom = s.atom := rfl
@[simp] theorem illegalCommand_busy (s : State) : (illegalCommand s).busy = s.busy := rfl
@[simp] theorem illegalCommand_op (s : State) : (illegalCommand s).op = s.op := rfl
@[simp] theorem illegalCommand_stg (s : State) : (illegalCommand s).stg = s.stg := rfl
@[simp] theorem illegalCommand_i (s : State) : (illegalCommand s).i = s.i := rfl
@[simp] theorem illegalCommand_k (s : State) : (illegalCommand s).k = s.k := rfl
@[simp] theorem illegalCommand_ph (s : State) : (illegalCommand s).ph = s.ph := rfl
@[simp] theorem illegalCommand_p (s : State) : (illegalCommand s).p = s.p := rfl
@[simp] theorem illegalCommand_sh (s : State) : (illegalCommand s).sh = s.sh := rfl
@[simp] theorem illegalCommand_b1 (s : State) : (illegalCommand s).b1 = s.b1 := rfl
@[simp] theorem illegalCommand_b2 (s : State) : (illegalCommand s).b2 = s.b2 := rfl
@[simp] theorem illegalCommand_bit (s : State) : (illegalCommand s).bit = s.bit := rfl
@[simp] theorem illegalCommand_nd (s : State) : (illegalCommand s).nd = s.nd := rfl
@[simp] theorem illegalCommand_tmr (s : State) : (illegalCommand s).tmr = s.tmr := rfl
@[simp] theorem illegalCommand_smp (s : State) : (illegalCommand s).smp = s.smp := rfl
@[simp] theorem illegalCommand_log (s : State) : (illegalCommand s).log = s.log := rfl
@[simp] theorem illegalCommand_answers (s : State) : (illegalCommand s).answers = s.answers := rfl
@[simp] theorem illegalCommand_samples (s : State) : (illegalCommand s).samples = s.samples := rfl
@[simp] theorem illegalCommand_rst (s : State) : (illegalCommand s).rst = s.rst := rfl
@[simp] theorem illegalCommand_host (s : State) : (illegalCommand s).host = s.host := rfl
@[simp] theorem illegalCommand_hRdata (s : State) : (illegalCommand s).hRdata = s.hRdata := rfl
@[simp] theorem illegalCommand_params (s : State) : (illegalCommand s).params = s.params := rfl

/-! ## `finishSearch` -/

@[simp] theorem finishSearch_arg (s : State) : (finishSearch s).arg = s.arg := rfl
@[simp] theorem finishSearch_data (s : State) : (finishSearch s).data = s.data := rfl
@[simp] theorem finishSearch_pres (s : State) : (finishSearch s).pres = s.pres := rfl
@[simp] theorem finishSearch_nf (s : State) : (finishSearch s).nf = false := rfl
@[simp] theorem finishSearch_ill (s : State) : (finishSearch s).ill = s.ill := rfl
@[simp] theorem finishSearch_crc (s : State) : (finishSearch s).crc = s.crc := rfl
@[simp] theorem finishSearch_lastDisc (s : State) : (finishSearch s).lastDisc = s.lastDisc := rfl
@[simp] theorem finishSearch_newDisc (s : State) : (finishSearch s).newDisc = s.nd := rfl
@[simp] theorem finishSearch_rom (s : State) : (finishSearch s).rom = s.rom := rfl
@[simp] theorem finishSearch_drv (s : State) : (finishSearch s).drv = s.drv := rfl
@[simp] theorem finishSearch_atom (s : State) : (finishSearch s).atom = s.atom := rfl
@[simp] theorem finishSearch_busy (s : State) : (finishSearch s).busy = false := rfl
@[simp] theorem finishSearch_op (s : State) : (finishSearch s).op = .idle := rfl
@[simp] theorem finishSearch_stg (s : State) : (finishSearch s).stg = .s0 := rfl
@[simp] theorem finishSearch_i (s : State) : (finishSearch s).i = 0 := rfl
@[simp] theorem finishSearch_k (s : State) : (finishSearch s).k = 0 := rfl
@[simp] theorem finishSearch_ph (s : State) : (finishSearch s).ph = 0 := rfl
@[simp] theorem finishSearch_p (s : State) : (finishSearch s).p = s.p := rfl
@[simp] theorem finishSearch_sh (s : State) : (finishSearch s).sh = s.sh := rfl
@[simp] theorem finishSearch_b1 (s : State) : (finishSearch s).b1 = s.b1 := rfl
@[simp] theorem finishSearch_b2 (s : State) : (finishSearch s).b2 = s.b2 := rfl
@[simp] theorem finishSearch_bit (s : State) : (finishSearch s).bit = s.bit := rfl
@[simp] theorem finishSearch_nd (s : State) : (finishSearch s).nd = s.nd := rfl
@[simp] theorem finishSearch_tmr (s : State) : (finishSearch s).tmr = s.tmr := rfl
@[simp] theorem finishSearch_smp (s : State) : (finishSearch s).smp = s.smp := rfl
@[simp] theorem finishSearch_log (s : State) : (finishSearch s).log = s.log := rfl
@[simp] theorem finishSearch_answers (s : State) : (finishSearch s).answers = s.answers := rfl
@[simp] theorem finishSearch_samples (s : State) : (finishSearch s).samples = s.samples := rfl
@[simp] theorem finishSearch_rst (s : State) : (finishSearch s).rst = s.rst := rfl
@[simp] theorem finishSearch_host (s : State) : (finishSearch s).host = s.host := rfl
@[simp] theorem finishSearch_hRdata (s : State) : (finishSearch s).hRdata = s.hRdata := rfl
@[simp] theorem finishSearch_params (s : State) : (finishSearch s).params = s.params := rfl

/-! ## `launch` -/

@[simp] theorem launch_arg (op : Op) (s : State) : (launch op s).arg = s.arg := rfl
@[simp] theorem launch_data (op : Op) (s : State) : (launch op s).data = s.data := rfl
@[simp] theorem launch_pres (op : Op) (s : State) : (launch op s).pres = s.pres := rfl
@[simp] theorem launch_nf (op : Op) (s : State) : (launch op s).nf = s.nf := rfl
@[simp] theorem launch_ill (op : Op) (s : State) : (launch op s).ill = s.ill := rfl
@[simp] theorem launch_crc (op : Op) (s : State) : (launch op s).crc = s.crc := rfl
@[simp] theorem launch_lastDisc (op : Op) (s : State) : (launch op s).lastDisc = s.lastDisc := rfl
@[simp] theorem launch_newDisc (op : Op) (s : State) : (launch op s).newDisc = s.newDisc := rfl
@[simp] theorem launch_rom (op : Op) (s : State) : (launch op s).rom = s.rom := rfl
@[simp] theorem launch_drv (op : Op) (s : State) : (launch op s).drv = s.drv := rfl
@[simp] theorem launch_atom (op : Op) (s : State) : (launch op s).atom = s.atom := rfl
@[simp] theorem launch_busy (op : Op) (s : State) : (launch op s).busy = true := rfl
@[simp] theorem launch_op (op : Op) (s : State) : (launch op s).op = op := rfl
@[simp] theorem launch_stg (op : Op) (s : State) : (launch op s).stg = .s0 := rfl
@[simp] theorem launch_i (op : Op) (s : State) : (launch op s).i = 0 := rfl
@[simp] theorem launch_k (op : Op) (s : State) : (launch op s).k = 0 := rfl
@[simp] theorem launch_ph (op : Op) (s : State) : (launch op s).ph = 0 := rfl
@[simp] theorem launch_p (op : Op) (s : State) : (launch op s).p = s.p := rfl
@[simp] theorem launch_sh (op : Op) (s : State) : (launch op s).sh = firstShift op s := rfl
@[simp] theorem launch_b1 (op : Op) (s : State) : (launch op s).b1 = s.b1 := rfl
@[simp] theorem launch_b2 (op : Op) (s : State) : (launch op s).b2 = s.b2 := rfl
@[simp] theorem launch_bit (op : Op) (s : State) : (launch op s).bit = s.bit := rfl
@[simp] theorem launch_nd (op : Op) (s : State) : (launch op s).nd = s.nd := rfl
@[simp] theorem launch_tmr (op : Op) (s : State) : (launch op s).tmr = s.tmr := rfl
@[simp] theorem launch_smp (op : Op) (s : State) : (launch op s).smp = s.smp := rfl
@[simp] theorem launch_log (op : Op) (s : State) : (launch op s).log = s.log := rfl
@[simp] theorem launch_answers (op : Op) (s : State) : (launch op s).answers = s.answers := rfl
@[simp] theorem launch_samples (op : Op) (s : State) : (launch op s).samples = s.samples := rfl
@[simp] theorem launch_rst (op : Op) (s : State) : (launch op s).rst = s.rst := rfl
@[simp] theorem launch_host (op : Op) (s : State) : (launch op s).host = s.host := rfl
@[simp] theorem launch_hRdata (op : Op) (s : State) : (launch op s).hRdata = s.hRdata := rfl
@[simp] theorem launch_params (op : Op) (s : State) : (launch op s).params = s.params := rfl

end Sys2Proof.Machine
end

