-- ==== Sys2Proof/Laws/Engine.lean ====
section
/-!
SUPPORT. What the engine does, said once: a primitive, a slot, a byte sent or received, a search position. Each
law takes the run of the engine from the start of that piece to its end, where no block reset falls in it.
-/

namespace Sys2Proof.Machine

/-! ## The timer and the environment -/

/-- R92: loaded with `n`, the timer is at 0 after `n` ticks. -/
theorem runTimer_self (n : Micros) : runTimer n.toNat n = 0 := by
  have key : ∀ (m : Nat) (t : Micros), t.toNat = m → runTimer m t = 0 := by
    intro m
    induction m with
    | zero => intro t h; exact BitVec.eq_of_toNat_eq (by simpa [runTimer] using h)
    | succ m ih =>
      intro t h
      have h0 : t ≠ 0 := by rintro rfl; simp at h
      refine ih _ ?_
      rw [tickTimer, if_neg h0]
      bv_omega
  exact key _ n rfl

theorem envAt_of_tail (s t : State) (ha : t.answers = s.answers.tail) (hs : t.samples = s.samples + 1) (n : Nat) :
    t.envAt n = s.envAt (n + 1) := by
  simp only [State.envAt, ha, hs, List.getElem?_tail]
  rw [show s.samples + 1 + n = s.samples + (n + 1) by omega]

theorem envAt_of_drop (s t : State) (d : Nat) (ha : t.answers = s.answers.drop d) (hs : t.samples = s.samples + d)
    (n : Nat) : t.envAt n = s.envAt (d + n) := by
  simp only [State.envAt, ha, hs, List.getElem?_drop]
  rw [show s.samples + d + n = s.samples + (d + n) by omega]

/-! ## Runs of the engine -/

theorem noReset_zero_rstNow {n : Nat} {s : State} (h : NoReset (n + 1) s) : s.rstNow = false := by
  unfold NoReset at h
  unfold State.rstNow
  cases hr : s.rst with
  | nil => rfl
  | cons v l =>
    rw [hr, List.take_succ_cons, List.mem_cons] at h
    cases v <;> simp_all

theorem noReset_tail {n : Nat} {s t : State} (h : NoReset (n + 1) s) (ht : t.rst = s.rst.tail) : NoReset n t := by
  unfold NoReset at *
  rw [ht]
  cases hr : s.rst with
  | nil => simp
  | cons v l => rw [hr, List.take_succ_cons, List.mem_cons] at h; simp_all

theorem noReset_drop {m n : Nat} {s t : State} (h : NoReset (m + n) s) (ht : t.rst = s.rst.drop m) : NoReset n t := by
  unfold NoReset at *
  rw [ht]
  intro hm
  apply h
  rw [List.take_drop] at hm
  exact List.mem_of_mem_drop hm

theorem noReset_mono {m n : Nat} {s : State} (h : NoReset n s) (hle : m ≤ n) : NoReset m s := by
  unfold NoReset at *
  exact fun hm => h ((List.take_sublist_take_left hle).mem hm)

theorem runEngine_idle {n : Nat} {s : State} (h : s.busy = false) : runEngine n s = s := by
  cases n with
  | zero => rfl
  | succ n => simp [runEngine, h]

theorem runEngine_add (m n : Nat) (s : State) : runEngine (m + n) s = runEngine n (runEngine m s) := by
  induction m generalizing s with
  | zero => simp [runEngine]
  | succ m ih =>
    rw [show m + 1 + n = (m + n) + 1 by omega]
    by_cases hb : s.busy
    · simp [runEngine, hb, ih]
    · simp only [Bool.not_eq_true] at hb
      simp [runEngine_idle hb]

/-! ## A slot -/

/-- How many primitives a slot has (R36). -/
def slotLength : Slot → Nat
  | .write _ => 6
  | .read => 8
  | .reset => 8

/-- The state a slot leaves before what follows it. -/
def afterSlot (slot : Slot) (s : State) : State :=
  match slot with
  | .write v =>
    { s with drv := false, atom := false, tmr := 0, ph := 0, rst := s.rst.drop 6
             log := (writeEvents s.params.slots v).reverse ++ s.log }
  | .read =>
    { s with drv := false, atom := false, tmr := 0, ph := 0, rst := s.rst.drop 8, smp := s.envAt 0
             answers := s.answers.tail, samples := s.samples + 1
             log := (readEvents s.params.slots (s.envAt 0)).reverse ++ s.log }
  | .reset =>
    { s with drv := false, atom := false, tmr := 0, ph := 0, rst := s.rst.drop 8, smp := s.envAt 0
             answers := s.answers.tail, samples := s.samples + 1
             log := (resetEvents s.params.slots (s.envAt 0)).reverse ++ s.log }

theorem prims_length (t : SlotTable) (slot : Slot) : (slot.prims t).length = slotLength slot := by
  cases slot with
  | write v => cases v <;> rfl
  | read => rfl
  | reset => rfl

/-- One engine step that is not the last of its slot. -/
theorem engineStep_inside {s : State} {slot : Slot} {q : Prim} (hs : slotOf s = some slot) (hr : s.rstNow = false)
    (hq : (slot.prims s.params.slots)[s.ph.val]? = some q) (hl : s.ph.val + 1 < slotLength slot) :
    engineStep s = { doPrim q (passRst s) with ph := s.ph + 1 } := by
  have hs' : slotOf (passRst s) = some slot := hs
  unfold engineStep enginePrim
  rw [hr, hs']
  simp [hq, prims_length, hl]

/-- The engine step of a slot's last primitive. -/
theorem engineStep_last {s : State} {slot : Slot} {q : Prim} (hs : slotOf s = some slot) (hr : s.rstNow = false)
    (hq : (slot.prims s.params.slots)[s.ph.val]? = some q) (hl : s.ph.val + 1 = slotLength slot) :
    engineStep s = slotNext { doPrim q (passRst s) with ph := 0 } := by
  have hs' : slotOf (passRst s) = some slot := hs
  unfold engineStep enginePrim
  rw [hr, hs']
  simp [hq, prims_length, hl]

theorem run_inside {n : Nat} {s : State} {slot : Slot} {q : Prim} (hb : s.busy = true) (hs : slotOf s = some slot)
    (hr : s.rstNow = false) (hq : (slot.prims s.params.slots)[s.ph.val]? = some q)
    (hl : s.ph.val + 1 < slotLength slot) :
    runEngine (n + 1) s = runEngine n { doPrim q (passRst s) with ph := s.ph + 1 } := by
  rw [runEngine, hb, if_pos rfl, engineStep_inside hs hr hq hl]

theorem run_last {n : Nat} {s : State} {slot : Slot} {q : Prim} (hb : s.busy = true) (hs : slotOf s = some slot)
    (hr : s.rstNow = false) (hq : (slot.prims s.params.slots)[s.ph.val]? = some q)
    (hl : s.ph.val + 1 = slotLength slot) :
    runEngine (n + 1) s = runEngine n (slotNext { doPrim q (passRst s) with ph := 0 }) := by
  rw [runEngine, hb, if_pos rfl, engineStep_last hs hr hq hl]

/-- The primitives `qs` one after another. -/
def runPrims (qs : List Prim) (s : State) : State := qs.foldl (fun s q => doPrim q (passRst s)) s

theorem doPrim_setPh (q : Prim) (s : State) (x : Fin 8) :
    doPrim q (passRst { s with ph := x }) = { doPrim q (passRst s) with ph := x } := by
  cases q <;> rfl

theorem runPrims_setPh (qs : List Prim) (s : State) (x : Fin 8) :
    runPrims qs { s with ph := x } = { runPrims qs s with ph := x } := by
  induction qs generalizing s with
  | nil => rfl
  | cons q qs ih =>
    simp only [runPrims, List.foldl_cons] at ih ⊢
    rw [doPrim_setPh, ih]

theorem slotOf_doPrim (q : Prim) (s : State) (x : Fin 8) :
    slotOf { doPrim q (passRst s) with ph := x } = slotOf s := by
  cases q <;> rfl

theorem run_prims {n : Nat} {slot : Slot} (qs done : List Prim) (s : State)
    (hd : slot.prims s.params.slots = done ++ qs) (hne : qs ≠ []) (hp : s.ph.val = done.length)
    (hb : s.busy = true) (hs : slotOf s = some slot) (hr : NoReset qs.length s) :
    runEngine (qs.length + n) s = runEngine n (slotNext { runPrims qs s with ph := 0 }) := by
  induction qs generalizing s done with
  | nil => exact absurd rfl hne
  | cons q qs ih =>
    have hq : (slot.prims s.params.slots)[s.ph.val]? = some q := by rw [hd, hp]; simp
    have hlen : done.length + (qs.length + 1) = slotLength slot := by
      rw [← prims_length s.params.slots slot, hd]; simp
    have hlt : slotLength slot ≤ 8 := by cases slot <;> simp [slotLength]
    have r0 := noReset_zero_rstNow hr
    rw [show (q :: qs).length + n = (qs.length + n) + 1 by simp; omega]
    by_cases hqs : qs = []
    · subst hqs
      rw [run_last hb hs r0 hq (by simp at hlen; omega)]
      simp [runPrims]
    · have hpos : 0 < qs.length := List.length_pos_of_ne_nil hqs
      rw [run_inside hb hs r0 hq (by omega)]
      have hph : (s.ph + 1).val = s.ph.val + 1 := by
        rw [Fin.val_add]; simp; omega
      rw [ih (done ++ [q]) { doPrim q (passRst s) with ph := s.ph + 1 } _ hqs _ _ _ _]
      · rw [runPrims_setPh]
        simp [runPrims]
      · rw [List.append_assoc, List.singleton_append, ← hd]; cases q <;> rfl
      · simp [hph, hp]
      · cases q <;> exact hb
      · rw [slotOf_doPrim]; exact hs
      · exact noReset_tail hr (by cases q <;> rfl)

/-- A slot from its first primitive to what follows it (R107, R108, R130). -/
theorem run_slot {n : Nat} {s : State} {slot : Slot} (hb : s.busy = true) (hp : s.ph = 0)
    (hs : slotOf s = some slot) (hr : NoReset (slotLength slot) s) :
    runEngine (slotLength slot + n) s = runEngine n (slotNext (afterSlot slot s)) := by
  have hl := prims_length s.params.slots slot
  rw [← hl] at hr ⊢
  rw [run_prims (slot.prims s.params.slots) [] s (by simp) (by intro h; rw [h] at hl; cases slot <;> simp [slotLength] at hl)
    (by simp [hp]) hb hs hr]
  congr 2
  cases slot with
  | write v => cases v <;> simp [runPrims, Slot.prims, doPrim, afterSlot, writeEvents, passRst, emit, atomicBegin, driveLow, delay, release, atomicEnd, runTimer_self, ← List.drop_one, List.drop_drop]
  | read => simp [runPrims, Slot.prims, doPrim, afterSlot, readEvents, passRst, emit, atomicBegin, driveLow, delay, release, atomicEnd, sample, runTimer_self, State.line, State.envAt, ← List.drop_one, List.drop_drop]
  | reset => simp [runPrims, Slot.prims, doPrim, afterSlot, resetEvents, passRst, emit, atomicBegin, driveLow, delay, release, atomicEnd, sample, runTimer_self, State.line, State.envAt, ← List.drop_one, List.drop_drop]

/-! ## A byte -/

/-- A control point that sends a byte: while the command and the stage stay, every slot is `WriteBit(SH[0])` and is
followed by the shift (R120). -/
def Sends (after : State → State) (s : State) : Prop :=
  ∀ u : State, u.op = s.op → u.stg = s.stg → slotOf u = some (sendSlot u) ∧ slotNext u = sendNext after u

/-- A control point that receives a byte (R121). -/
def Receives (after : State → State) (s : State) : Prop :=
  ∀ u : State, u.op = s.op → u.stg = s.stg → slotOf u = some .read ∧ slotNext u = recvNext after u

/-- The state after the last `c` bits of a byte were sent. -/
def sentBits (c : Nat) (s : State) : State :=
  { s with drv := false, atom := false, tmr := 0, ph := 0, k := 0, sh := s.sh >>> c, rst := s.rst.drop (6 * c)
           log := ((List.range c).flatMap (fun j => writeEvents s.params.slots (s.sh.getLsbD j))).reverse ++ s.log }

theorem run_send_bits {after : State → State} {n : Nat} (c : Nat) (s : State) (hs : Sends after s)
    (hb : s.busy = true) (hp : s.ph = 0) (hk : s.k.val + (c + 1) = 8) (hr : NoReset (6 * (c + 1)) s) :
    runEngine (6 * (c + 1) + n) s = runEngine n (after (sentBits (c + 1) s)) := by
  induction c generalizing s with
  | zero =>
    obtain ⟨h1, -⟩ := hs s rfl rfl
    obtain ⟨-, h2⟩ := hs (afterSlot (sendSlot s) s) rfl rfl
    have hk7 : s.k = 7 := Fin.ext (by simpa using hk)
    rw [show 6 * (0 + 1) + n = slotLength (sendSlot s) + n from rfl, run_slot hb hp h1 hr, h2]
    simp [sendNext, afterSlot, sendSlot, hk7, sentBits, shiftOut]
  | succ c ih =>
    obtain ⟨h1, -⟩ := hs s rfl rfl
    obtain ⟨-, h2⟩ := hs (afterSlot (sendSlot s) s) rfl rfl
    have hk7 : s.k ≠ 7 := fun h => by rw [h] at hk; omega
    have hk1 : (s.k + 1).val = s.k.val + 1 := by rw [Fin.val_add]; simp; omega
    rw [show 6 * (c + 1 + 1) + n = slotLength (sendSlot s) + (6 * (c + 1) + n) by simp only [slotLength, sendSlot]; omega,
      run_slot hb hp h1 (noReset_mono hr (by simp only [slotLength, sendSlot]; omega)), h2]
    have hne : (afterSlot (sendSlot s) s).k ≠ 7 := hk7
    rw [sendNext, if_neg hne, ih]
    · congr 2
      simp [sentBits, afterSlot, sendSlot, shiftOut, List.range_succ_eq_map (n := c + 1), List.flatMap_map,
        ← BitVec.shiftRight_add, Nat.add_comm 1, List.drop_drop]
      omega
    · exact hs
    · exact hb
    · rfl
    · show (s.k + 1).val + (c + 1) = 8
      omega
    · exact noReset_drop (m := 6) (noReset_mono hr (by omega)) rfl

/-- The state after `WriteByte` (R120) and before what follows it. -/
def sentByte (s : State) : State :=
  { s with drv := false, atom := false, tmr := 0, ph := 0, k := 0, sh := 0, rst := s.rst.drop 48
           log := (byteEvents s.params.slots s.sh).reverse ++ s.log }

/-- `WriteByte(SH)` from its first slot to what follows it (R120). -/
theorem run_send {after : State → State} {n : Nat} {s : State} (hs : Sends after s) (hb : s.busy = true)
    (hp : s.ph = 0) (hk : s.k = 0) (hr : NoReset 48 s) :
    runEngine (48 + n) s = runEngine n (after (sentByte s)) := by
  rw [show 48 + n = 6 * (7 + 1) + n from rfl, run_send_bits 7 s hs hb hp (by simp [hk]) hr]
  congr 2
  have h0 : s.sh >>> 8 = 0 := by bv_omega
  simp [sentBits, sentByte, byteEvents, h0]

/-- The byte whose bits are the next eight answers, the first in bit 0 (R121). -/
def answerByte (f : Nat → Bool) : Byte :=
  (List.range 8).foldl (fun b j => shiftIn b (f j)) 0

/-- The state after `c` read slots of a byte. -/
def receivedBits (c : Nat) (s : State) : State :=
  { s with drv := false, atom := false, tmr := 0, ph := 0, k := 0, rst := s.rst.drop (8 * c)
           smp := s.envAt (c - 1), answers := s.answers.drop c, samples := s.samples + c
           sh := (List.range c).foldl (fun b j => shiftIn b (s.envAt j)) s.sh
           log := (readsEvents s.params.slots s.envAt c).reverse ++ s.log }

theorem run_recv_bits {after : State → State} {n : Nat} (c : Nat) (s : State) (hs : Receives after s)
    (hb : s.busy = true) (hp : s.ph = 0) (hk : s.k.val + (c + 1) = 8) (hr : NoReset (8 * (c + 1)) s) :
    runEngine (8 * (c + 1) + n) s = runEngine n (after (receivedBits (c + 1) s)) := by
  induction c generalizing s with
  | zero =>
    obtain ⟨h1, -⟩ := hs s rfl rfl
    obtain ⟨-, h2⟩ := hs (afterSlot .read s) rfl rfl
    have hk7 : s.k = 7 := Fin.ext (by simpa using hk)
    rw [show 8 * (0 + 1) + n = slotLength .read + n from rfl, run_slot hb hp h1 hr, h2]
    simp [recvNext, afterSlot, hk7, receivedBits, readsEvents]
  | succ c ih =>
    obtain ⟨h1, -⟩ := hs s rfl rfl
    obtain ⟨-, h2⟩ := hs (afterSlot .read s) rfl rfl
    have hk7 : s.k ≠ 7 := fun h => by rw [h] at hk; omega
    have hk1 : (s.k + 1).val = s.k.val + 1 := by rw [Fin.val_add]; simp; omega
    rw [show 8 * (c + 1 + 1) + n = slotLength .read + (8 * (c + 1) + n) by simp only [slotLength]; omega,
      run_slot hb hp h1 (noReset_mono hr (by simp only [slotLength]; omega)), h2]
    have hne : (afterSlot .read s).k ≠ 7 := hk7
    rw [recvNext, if_neg hne, ih]
    · have he : State.envAt { afterSlot .read s with
          sh := shiftIn (afterSlot .read s).sh (afterSlot .read s).smp, k := (afterSlot .read s).k + 1 }
          = fun j => s.envAt (j + 1) := funext (envAt_of_tail s _ rfl rfl)
      simp only [receivedBits, he]
      simp [afterSlot, List.range_succ_eq_map (n := c + 1), List.foldl_map, readsEvents, List.flatMap_map,
        ← List.drop_one, List.drop_drop, show 1 + (c + 1) = c + 1 + 1 by omega,
        show s.samples + 1 + (c + 1) = s.samples + (c + 1 + 1) by omega,
        show 8 + 8 * (c + 1) = 8 * (c + 1 + 1) by omega]
    · exact hs
    · exact hb
    · rfl
    · show (s.k + 1).val + (c + 1) = 8
      omega
    · exact noReset_drop (m := 8) (noReset_mono hr (by omega)) rfl

/-- The state after `ReadByte` (R121) and before what follows it, where it began with `SH` = 0. -/
def receivedByte (s : State) : State :=
  { s with drv := false, atom := false, tmr := 0, ph := 0, k := 0, rst := s.rst.drop 64
           smp := s.envAt 7, answers := s.answers.drop 8, samples := s.samples + 8, sh := answerByte s.envAt
           log := (readsEvents s.params.slots s.envAt 8).reverse ++ s.log }

/-- `ReadByte()` from its first slot to what follows it (R121). -/
theorem run_recv {after : State → State} {n : Nat} {s : State} (hs : Receives after s) (hb : s.busy = true)
    (hp : s.ph = 0) (hk : s.k = 0) (h0 : s.sh = 0) (hr : NoReset 64 s) :
    runEngine (64 + n) s = runEngine n (after (receivedByte s)) := by
  rw [show 64 + n = 8 * (7 + 1) + n from rfl, run_recv_bits 7 s hs hb hp (by simp [hk]) hr]
  simp [receivedBits, receivedByte, answerByte, h0]

/-- R121: bit `j` of the byte received is the `j`-th answer. -/
theorem answerByte_bit (f : Nat → Bool) (j : Nat) (hj : j < 8) : (answerByte f).getLsbD j = f j := by
  have key : ∀ a b c d e g h i : Bool, ∀ j : Fin 8,
      ([a, b, c, d, e, g, h, i].foldl shiftIn 0).getLsbD j.val = [a, b, c, d, e, g, h, i][j.val]! := by decide
  have := key (f 0) (f 1) (f 2) (f 3) (f 4) (f 5) (f 6) (f 7) ⟨j, hj⟩
  interval_cases j <;> exact this

/-! ## Which control points send and receive -/

theorem sends_wbyte {s : State} (h : s.op = .wbyte) : Sends endCommand s := by
  intro u hu _
  have : u.op = .wbyte := hu.trans h
  simp [slotOf, slotNext, this, wbyteNext]

theorem receives_rbyte {s : State} (h : s.op = .rbyte) :
    Receives (fun s => endCommand { s with data := s.sh }) s := by
  intro u hu _
  have : u.op = .rbyte := hu.trans h
  simp [slotOf, slotNext, this, rbyteNext]

theorem sends_skip {s : State} (h : s.op = .skip) : Sends endCommand s := by
  intro u hu _
  have : u.op = .skip := hu.trans h
  simp [slotOf, slotNext, this, skipNext]

theorem sends_rdrom {s : State} (h : s.op = .rdrom) (hs : s.stg = .s0) :
    Sends (fun s => { s with stg := .s1, i := 7, sh := 0x00 }) s := by
  intro u hu hu'
  have h1 : u.op = .rdrom := hu.trans h
  have h2 : u.stg = .s0 := hu'.trans hs
  simp [slotOf, slotNext, h1, rdromNext, h2]

theorem receives_rdrom {s : State} (h : s.op = .rdrom) (hs : s.stg = .s1) :
    Receives (fun s =>
      if s.i = 0 then endCommand { s with rom := setRomByte s.rom s.i s.sh }
      else { s with rom := setRomByte s.rom s.i s.sh, i := s.i - 1, sh := 0x00 }) s := by
  intro u hu hu'
  have h1 : u.op = .rdrom := hu.trans h
  have h2 : u.stg = .s1 := hu'.trans hs
  simp [slotOf, slotNext, h1, rdromNext, h2]

theorem sends_match {s : State} (h : s.op = .matchRom) (hs : s.stg = .s0) :
    Sends (fun s => { s with stg := .s1, i := 7, sh := s.rom[(7 : Fin 8)] }) s := by
  intro u hu hu'
  have h1 : u.op = .matchRom := hu.trans h
  have h2 : u.stg = .s0 := hu'.trans hs
  simp [slotOf, slotNext, h1, matchNext, h2]

theorem sends_matchRom {s : State} (h : s.op = .matchRom) (hs : s.stg = .s1) :
    Sends (fun s => if s.i = 0 then endCommand s else { s with i := s.i - 1, sh := s.rom[s.i - 1] }) s := by
  intro u hu hu'
  have h1 : u.op = .matchRom := hu.trans h
  have h2 : u.stg = .s1 := hu'.trans hs
  simp [slotOf, slotNext, h1, matchNext, h2]

theorem sends_search {s : State} (h : s.op = .search) (hs : s.stg = .s0) :
    Sends (fun s => { s with nd := 0x00, p := 1, stg := .s1 }) s := by
  intro u hu hu'
  have h1 : u.op = .search := hu.trans h
  have h2 : u.stg = .s0 := hu'.trans hs
  simp [slotOf, slotNext, h1, searchNext, h2]

/-! ## A search position -/

/-- The state after the two reads of a position (R153), before the bit is decided. -/
def readPair (s : State) : State :=
  { s with drv := false, atom := false, tmr := 0, ph := 0, rst := s.rst.drop 16, smp := s.envAt 1
           answers := s.answers.drop 2, samples := s.samples + 2, stg := .s2, b1 := s.envAt 0, b2 := s.envAt 1
           log := (readEvents s.params.slots (s.envAt 0) ++ readEvents s.params.slots (s.envAt 1)).reverse ++ s.log }

/-- The two reads of a position, to the decision (R151, R153). -/
theorem run_readPair {n : Nat} {s : State} (hb : s.busy = true) (ho : s.op = .search) (hs : s.stg = .s1)
    (hp : s.ph = 0) (hr : NoReset 16 s) : runEngine (16 + n) s = runEngine n (searchDecide (readPair s)) := by
  have h1 : slotOf s = some .read := by simp [slotOf, ho, hs]
  rw [show 16 + n = slotLength .read + (slotLength .read + n) by simp only [slotLength]; omega,
    run_slot hb hp h1 (noReset_mono hr (by simp [slotLength]))]
  have e1 : slotNext (afterSlot .read s) = { afterSlot .read s with b1 := s.envAt 0, stg := .s2 } := by
    simp [slotNext, afterSlot, ho, searchNext, hs]
  have h2 : slotOf (slotNext (afterSlot .read s)) = some .read := by rw [e1]; simp [slotOf, afterSlot, ho]
  have hn : NoReset (slotLength .read) (slotNext (afterSlot .read s)) :=
    noReset_drop (m := 8) hr (by rw [e1]; rfl)
  rw [run_slot (by rw [e1]; exact hb) (by rw [e1]; rfl) h2 hn, e1]
  have he : ∀ u : State, u.answers = s.answers.tail → u.samples = s.samples + 1 → u.envAt 0 = s.envAt 1 :=
    fun u ha hu => envAt_of_tail s u ha hu 0
  have ht : s.answers.tail.tail = s.answers.drop 2 := by simp [← List.drop_one]
  congr 1
  simp [slotNext, afterSlot, ho, searchNext, readPair, List.drop_drop, he, ht]

/-- The write-back slot of a position, to what follows it (R159). -/
theorem run_writeBack {n : Nat} {s : State} (hb : s.busy = true) (ho : s.op = .search) (hs : s.stg = .s3)
    (hp : s.ph = 0) (hr : NoReset 6 s) :
    runEngine (6 + n) s = runEngine n (searchNext (afterSlot (.write s.bit) s)) := by
  have h1 : slotOf s = some (.write s.bit) := by simp [slotOf, ho, hs]
  rw [show 6 + n = slotLength (.write s.bit) + n from rfl, run_slot hb hp h1 hr]
  simp [slotNext, afterSlot, ho]

/-- A position whose pair is (1,1) ends the command (R154). -/
theorem run_position_abort {n : Nat} {s : State} (hb : s.busy = true) (ho : s.op = .search) (hs : s.stg = .s1)
    (hp : s.ph = 0) (h0 : s.envAt 0 = true) (h1 : s.envAt 1 = true) (hr : NoReset 16 s) :
    runEngine (16 + n) s = raiseStatus .noResponse (readPair s) := by
  rw [run_readPair hb ho hs hp hr]
  have : searchDecide (readPair s) = raiseStatus .noResponse (readPair s) := by
    simp [searchDecide, readPair, h0, h1, chooseBit]
  rw [this, runEngine_idle rfl]

/-- The state after a position that decided `v`, before what follows it (R159). -/
def positionDone (v : Bool) (nd : Byte) (s : State) : State :=
  { s with drv := false, atom := false, tmr := 0, ph := 0, rst := s.rst.drop 22, smp := s.envAt 1
           answers := s.answers.drop 2, samples := s.samples + 2, stg := .s3, b1 := s.envAt 0, b2 := s.envAt 1
           bit := v, nd := nd
           rom := setRomBit s.rom (loc s.params.searchOrder s.p.toNat).1 (loc s.params.searchOrder s.p.toNat).2 v
           log := (readEvents s.params.slots (s.envAt 0) ++ readEvents s.params.slots (s.envAt 1) ++
             writeEvents s.params.slots v).reverse ++ s.log }

/-- A position that decides a bit: two reads, the decision, the write-back, to what follows (R151, R155 to R159). -/
theorem run_position {n : Nat} {s : State} {v : Bool} {nd : Byte} (hb : s.busy = true) (ho : s.op = .search)
    (hs : s.stg = .s1) (hp : s.ph = 0)
    (hd : chooseBit (s.envAt 0) (s.envAt 1) (positionByte s.p) s.lastDisc
      (wireBit s.params.searchOrder s.rom s.p.toNat) s.nd = some (v, nd)) (hr : NoReset 22 s) :
    runEngine (22 + n) s = runEngine n (searchNext (positionDone v nd s)) := by
  rw [show 22 + n = 16 + (6 + n) by omega, run_readPair hb ho hs hp (noReset_mono hr (by omega))]
  have he : searchDecide (readPair s) =
      { readPair s with
        bit := v, nd := nd, stg := .s3
        rom := setRomBit s.rom (loc s.params.searchOrder s.p.toNat).1 (loc s.params.searchOrder s.p.toNat).2 v } := by
    simp only [searchDecide, readPair]
    simp only [wireBit] at hd
    rw [hd]
  generalize hu : searchDecide (readPair s) = u at he ⊢
  have h6 : NoReset 6 u := noReset_drop (m := 16) hr (by rw [he]; rfl)
  rw [run_writeBack (by rw [he]; exact hb) (by rw [he]; exact ho) (by rw [he]) (by rw [he]; rfl) h6]
  congr 2
  rw [he]
  simp [afterSlot, readPair, positionDone, List.drop_drop]

end Sys2Proof.Machine
end

