-- ==== Sys2Proof/Laws/Rom.lean ====
section
/-!
SUPPORT. The ROM buffer as 64 bits: reading a bit after a bit or a byte was written, and the map from wire positions
(20_memory.md R58).
-/

namespace Sys2Proof.Machine

theorem getLsbD_setBit (x : Byte) (b j : Fin 8) (v : Bool) :
    (setBit x b v).getLsbD j = if j = b then v else x.getLsbD j := by
  have hj := j.isLt
  have hb := b.isLt
  cases v
  · simp only [setBit, Bool.false_eq_true, if_false, BitVec.getLsbD_and, BitVec.getLsbD_not, BitVec.getLsbD_shiftLeft]
    by_cases h : j = b
    · subst h; simp
    · have : j.val ≠ b.val := fun e => h (Fin.ext e)
      by_cases hlt : j.val < b.val
      · simp [h, hlt, hj]
      · simp [h, hlt, hj, show ¬ (j.val - b.val = 0) by omega]
  · simp only [setBit, if_true, BitVec.getLsbD_or, BitVec.getLsbD_shiftLeft]
    by_cases h : j = b
    · subst h; simp
    · have : j.val ≠ b.val := fun e => h (Fin.ext e)
      by_cases hlt : j.val < b.val
      · simp [h, hlt]
      · simp [h, hlt, show ¬ (j.val - b.val = 0) by omega]

theorem romByte_setRomByte (rom : Vector Byte 8) (i i' : Fin 8) (v : Byte) :
    (setRomByte rom i v)[i'] = if i' = i then v else rom[i'] := by
  by_cases h : i' = i
  · subst h; simp [setRomByte]
  · have : i.val ≠ i'.val := fun e => h (Fin.ext e.symm)
    simp only [setRomByte, h, if_false]
    exact Vector.getElem_set_ne _ _ this

theorem romBit_setRomByte (rom : Vector Byte 8) (i i' b : Fin 8) (v : Byte) :
    romBit (setRomByte rom i v) i' b = if i' = i then v.getLsbD b else romBit rom i' b := by
  unfold romBit
  rw [romByte_setRomByte]
  split <;> rfl

theorem romBit_setRomBit (rom : Vector Byte 8) (i b i' b' : Fin 8) (v : Bool) :
    romBit (setRomBit rom i b v) i' b' = if i' = i ∧ b' = b then v else romBit rom i' b' := by
  have h := romBit_setRomByte rom i i' b' (setBit rom[i] b v)
  rw [getLsbD_setBit] at h
  rw [show setRomBit rom i b v = setRomByte rom i (setBit rom[i] b v) from rfl, h]
  by_cases hi : i' = i
  · subst hi; simp [romBit]
  · simp [hi]

/-- Two buffers with the same bits are the same buffer. -/
theorem rom_ext {r r' : Vector Byte 8} (h : ∀ i b, romBit r i b = romBit r' i b) : r = r' := by
  apply Vector.ext
  intro i hi
  apply BitVec.eq_of_getLsbD_eq
  intro b hb
  exact h ⟨i, hi⟩ ⟨b, hb⟩

/-- R58: different wire positions are different bits of the buffer. -/
theorem loc_injective (o : ByteOrder) (p q : Nat) (hp : 1 ≤ p ∧ p ≤ 64) (hq : 1 ≤ q ∧ q ≤ 64)
    (h : loc o p = loc o q) : p = q := by
  have key : ∀ o ∈ [ByteOrder.desc, ByteOrder.asc], ∀ p q : Fin 64, loc o (p.val + 1) = loc o (q.val + 1) → p = q := by
    decide +kernel
  have := key o (by cases o <;> simp) ⟨p - 1, by omega⟩ ⟨q - 1, by omega⟩
    (by simpa [Nat.sub_add_cancel hp.1, Nat.sub_add_cancel hq.1] using h)
  simp at this
  omega

/-- R58: every bit of the buffer is at some wire position. -/
theorem loc_surjective (o : ByteOrder) (i b : Fin 8) : ∃ p, 1 ≤ p ∧ p ≤ 64 ∧ loc o p = (i, b) := by
  have key : ∀ o ∈ [ByteOrder.desc, ByteOrder.asc], ∀ i b : Fin 8, ∃ p : Fin 64, loc o (p.val + 1) = (i, b) := by
    decide +kernel
  obtain ⟨p, hp⟩ := key o (by cases o <;> simp) i b
  exact ⟨p.val + 1, by omega, by omega, hp⟩

theorem wireBit_setRomBit (o : ByteOrder) (rom : Vector Byte 8) (p q : Nat) (v : Bool) (hp : 1 ≤ p ∧ p ≤ 64)
    (hq : 1 ≤ q ∧ q ≤ 64) :
    wireBit o (setRomBit rom (loc o p).1 (loc o p).2 v) q = if q = p then v else wireBit o rom q := by
  unfold wireBit
  rw [romBit_setRomBit]
  by_cases h : q = p
  · subst h; simp
  · have : loc o q ≠ loc o p := fun e => h (loc_injective o q p hq hp e)
    rw [if_neg h, if_neg (fun ⟨h1, h2⟩ => this (Prod.ext h1 h2))]

/-- Two buffers with the same bit at every wire position are the same buffer. -/
theorem wire_ext (o : ByteOrder) {r r' : Vector Byte 8} (h : ∀ p, 1 ≤ p → p ≤ 64 → wireBit o r p = wireBit o r' p) :
    r = r' := by
  apply rom_ext
  intro i b
  obtain ⟨p, h1, h64, hp⟩ := loc_surjective o i b
  have := h p h1 h64
  simpa [wireBit, hp] using this

end Sys2Proof.Machine
end

