-- ==== Sys2Proof/Laws/Pass.lean ====
section
/-!
SUPPORT. The reference pass of a search (44_search_engine.md R151) said once: what one position decides, and from
there the buffer, the new discrepancy and the length of a pass that completes and of one that aborts.
-/

namespace Sys2Proof.Machine

theorem positionByte_toNat (p : Position) : (positionByte p).toNat = p.toNat := by
  simp [positionByte]; omega

/-- The bit a position decides from its pair, where the pair is not (1,1) (R155 to R158). -/
def decidedBit (b1 b2 : Bool) (p last : Nat) (old : Bool) : Bool :=
  if b1 ≠ b2 then b1 else if p = last then true else if p > last then false else old

/-- Whether a position marks itself as the new discrepancy (R157, R158). -/
def marksPosition (b1 b2 : Bool) (p last : Nat) (old : Bool) : Bool :=
  b1 == b2 && p ≠ last && (decide (p > last) || !old)

/-- The engine's decision is the reference's (R151). -/
theorem chooseBit_eq (b1 b2 : Bool) (p : Position) (last nd : Byte) (old : Bool) (h : ¬ (b1 = true ∧ b2 = true)) :
    chooseBit b1 b2 (positionByte p) last old nd = some (decidedBit b1 b2 p.toNat last.toNat old,
      if marksPosition b1 b2 p.toNat last.toNat old then BitVec.ofNat 8 p.toNat else nd) := by
  have h1 : positionByte p = last ↔ p.toNat = last.toNat := by
    rw [← positionByte_toNat]; exact ⟨fun h => by rw [h], fun h => BitVec.eq_of_toNat_eq h⟩
  have h2 : positionByte p > last ↔ p.toNat > last.toNat := by
    rw [← positionByte_toNat p]; exact BitVec.lt_def
  have h3 : positionByte p = BitVec.ofNat 8 p.toNat := by
    apply BitVec.eq_of_toNat_eq; rw [positionByte_toNat]; simp; omega
  unfold chooseBit decidedBit marksPosition
  rw [h3] at h1 h2 ⊢
  by_cases e1 : p.toNat = last.toNat
  · have := h1.2 e1
    cases b1 <;> cases b2 <;> simp_all
  · have n1 : ¬ BitVec.ofNat 8 p.toNat = last := fun e => e1 (h1.1 e)
    by_cases e2 : p.toNat > last.toNat
    · have := h2.2 e2
      cases b1 <;> cases b2 <;> simp_all
    · have n2 : ¬ BitVec.ofNat 8 p.toNat > last := fun e => e2 (h2.1 e)
      simp only [if_neg n1, if_neg n2, e1, e2]
      cases b1 <;> cases b2 <;> cases old <;> simp_all

/-- A position that decides (R151, R159). -/
theorem refPass_succ (o : ByteOrder) (t : SlotTable) (last n p : Nat) (f : Nat → Bool) (rom : Vector Byte 8) (nd : Byte)
    (h : ¬ (f 0 = true ∧ f 1 = true)) :
    refPass o t last (n + 1) p f rom nd =
      let v := decidedBit (f 0) (f 1) p last (wireBit o rom p)
      let nd' := if marksPosition (f 0) (f 1) p last (wireBit o rom p) then BitVec.ofNat 8 p else nd
      let q := refPass o t last n (p + 1) (fun j => f (j + 2)) (setRomBit rom (loc o p).1 (loc o p).2 v) nd'
      { q with
        events := readEvents t (f 0) ++ readEvents t (f 1) ++ writeEvents t v ++ q.events, draws := q.draws + 2 } := by
  rw [refPass]
  simp only [if_neg h, decidedBit, marksPosition]
  by_cases e : f 0 = f 1
  · by_cases e1 : p = last
    · simp [e, e1]
    · by_cases e2 : p > last
      · simp [e, e1, e2]
      · cases hw : wireBit o rom p <;> simp [e, e1, e2]
  · simp [e]

/-- A position whose pair is (1,1) (R154). -/
theorem refPass_abort (o : ByteOrder) (t : SlotTable) (last n p : Nat) (f : Nat → Bool) (rom : Vector Byte 8) (nd : Byte)
    (h0 : f 0 = true) (h1 : f 1 = true) :
    refPass o t last (n + 1) p f rom nd =
      { rom := rom, newDisc := none, events := readEvents t (f 0) ++ readEvents t (f 1), draws := 2 } := by
  rw [refPass]; simp only [if_pos (And.intro h0 h1)]

/-- A pass never has more than three slots a position (R165). -/
theorem refPass_length_le (o : ByteOrder) (t : SlotTable) (last n p : Nat) (f : Nat → Bool) (rom : Vector Byte 8)
    (nd : Byte) : (refPass o t last n p f rom nd).events.length ≤ 22 * n := by
  induction n generalizing p f rom nd with
  | zero => simp [refPass]
  | succ n ih =>
    by_cases h : f 0 = true ∧ f 1 = true
    · rw [refPass_abort _ _ _ _ _ _ _ _ h.1 h.2]; simp [readEvents]; omega
    · rw [refPass_succ _ _ _ _ _ _ _ _ h]
      simp only [List.length_append, readEvents, writeEvents, List.length_cons, List.length_nil]
      have := ih (p + 1) (fun j => f (j + 2))
        (setRomBit rom (loc o p).1 (loc o p).2 (decidedBit (f 0) (f 1) p last (wireBit o rom p)))
        (if marksPosition (f 0) (f 1) p last (wireBit o rom p) then BitVec.ofNat 8 p else nd)
      omega

/-- A pass over positions `p`.. that meets no pair (1,1): each position holds the bit it decided, earlier ones are
untouched, and the new discrepancy is the last position marked, else what it was (R155 to R160). -/
theorem refPass_complete (o : ByteOrder) (t : SlotTable) (last n p : Nat) (f : Nat → Bool) (rom : Vector Byte 8)
    (nd : Byte) (hp : 1 ≤ p) (hn : p + n = 65)
    (h : ∀ q, p ≤ q → q ≤ 64 → ¬ (f (2 * (q - p)) = true ∧ f (2 * (q - p) + 1) = true)) :
    ∃ nd', (refPass o t last n p f rom nd).newDisc = some nd' ∧ (refPass o t last n p f rom nd).draws = 2 * n ∧
      (refPass o t last n p f rom nd).events.length = 22 * n ∧
      (∀ q, 1 ≤ q → q ≤ 64 → wireBit o (refPass o t last n p f rom nd).rom q =
        if q < p then wireBit o rom q
        else decidedBit (f (2 * (q - p))) (f (2 * (q - p) + 1)) q last (wireBit o rom q)) ∧
      (∀ q, p ≤ q → q ≤ 64 →
        marksPosition (f (2 * (q - p))) (f (2 * (q - p) + 1)) q last (wireBit o rom q) = true → q ≤ nd'.toNat) ∧
      ((nd' = nd ∧ ∀ q, p ≤ q → q ≤ 64 →
          marksPosition (f (2 * (q - p))) (f (2 * (q - p) + 1)) q last (wireBit o rom q) = false) ∨
        (p ≤ nd'.toNat ∧ nd'.toNat ≤ 64 ∧ marksPosition (f (2 * (nd'.toNat - p))) (f (2 * (nd'.toNat - p) + 1))
          nd'.toNat last (wireBit o rom nd'.toNat) = true)) := by
  induction n generalizing p f rom nd with
  | zero =>
    refine ⟨nd, rfl, rfl, rfl, ?_, ?_, .inl ⟨rfl, ?_⟩⟩
    · intro q h1 h2; rw [if_pos (by omega)]; rfl
    · intro q h1 h2; omega
    · intro q h1 h2; omega
  | succ n ih =>
    have h0 : ¬ (f 0 = true ∧ f 1 = true) := by simpa using h p (Nat.le_refl p) (by omega)
    rw [refPass_succ _ _ _ _ _ _ _ _ h0]
    obtain ⟨nd', e1, e2, e3, e4, e5, e6⟩ := ih (p + 1) (fun j => f (j + 2))
      (setRomBit rom (loc o p).1 (loc o p).2 (decidedBit (f 0) (f 1) p last (wireBit o rom p)))
      (if marksPosition (f 0) (f 1) p last (wireBit o rom p) then BitVec.ofNat 8 p else nd) (by omega) (by omega)
      (fun q hq hq' => by
        have := h q (by omega) hq'
        rwa [show 2 * (q - (p + 1)) + 2 = 2 * (q - p) by omega,
          show 2 * (q - (p + 1)) + 1 + 2 = 2 * (q - p) + 1 by omega])
    have hold : ∀ q, p + 1 ≤ q → q ≤ 64 → ∀ v, wireBit o (setRomBit rom (loc o p).1 (loc o p).2 v) q = wireBit o rom q :=
      fun q h1 h2 v => by rw [wireBit_setRomBit o rom p q v (by omega) (by omega), if_neg (by omega)]
    have hself : ∀ v, wireBit o (setRomBit rom (loc o p).1 (loc o p).2 v) p = v :=
      fun v => by rw [wireBit_setRomBit o rom p p v (by omega) (by omega), if_pos rfl]
    have hidx : ∀ q, p + 1 ≤ q → 2 * (q - (p + 1)) + 2 = 2 * (q - p) ∧ 2 * (q - (p + 1)) + 1 + 2 = 2 * (q - p) + 1 :=
      fun q hq => by omega
    have e5' : ∀ q, p + 1 ≤ q → q ≤ 64 →
        marksPosition (f (2 * (q - p))) (f (2 * (q - p) + 1)) q last (wireBit o rom q) = true → q ≤ nd'.toNat := by
      intro q h1 h2 hm
      have := e5 q h1 h2
      rw [(hidx q h1).1, (hidx q h1).2, hold q h1 h2] at this
      exact this hm
    refine ⟨nd', e1, ?_, ?_, ?_, ?_, ?_⟩
    · simp only [e2]; omega
    · simp only [List.length_append, e3, readEvents, writeEvents, List.length_cons, List.length_nil]; omega
    · intro q h1 h2
      rw [e4 q h1 h2]
      by_cases hq : q < p
      · rw [if_pos (by omega), if_pos hq, wireBit_setRomBit o rom p q _ (by omega) (by omega), if_neg (by omega)]
      · rw [if_neg hq]
        by_cases hq2 : q = p
        · subst hq2
          rw [if_pos (by omega), hself]
          simp
        · rw [if_neg (by omega), (hidx q (by omega)).1, (hidx q (by omega)).2, hold q (by omega) h2]
    · intro q h1 h2 hq
      by_cases hq2 : q = p
      · subst hq2
        simp only [Nat.sub_self, Nat.mul_zero, Nat.zero_add] at hq
        rcases e6 with ⟨e6, -⟩ | ⟨e6, -, -⟩
        · rw [e6, if_pos hq]; simp; omega
        · omega
      · exact e5' q (by omega) h2 hq
    · rcases e6 with ⟨e6, e7⟩ | ⟨h1, h2, e7⟩
      · by_cases hmp : marksPosition (f 0) (f 1) p last (wireBit o rom p) = true
        · rw [if_pos hmp] at e6
          have hnd : nd'.toNat = p := by rw [e6]; simp; omega
          right
          rw [hnd]
          exact ⟨Nat.le_refl p, by omega, by simpa using hmp⟩
        · left
          rw [if_neg hmp] at e6
          refine ⟨e6, fun q hq hq' => ?_⟩
          by_cases hq2 : q = p
          · subst hq2; simpa using hmp
          · have := e7 q (by omega) hq'
            rwa [(hidx q (by omega)).1, (hidx q (by omega)).2, hold q (by omega) hq'] at this
      · right
        refine ⟨by omega, h2, ?_⟩
        rwa [(hidx _ h1).1, (hidx _ h1).2, hold _ h1 h2] at e7

/-- A pass over positions `p`.. whose first pair (1,1) is at `P`: it fails there, positions from `P` on are untouched
and earlier ones hold the bits decided (R154, R164). -/
theorem refPass_aborts (o : ByteOrder) (t : SlotTable) (last n p P : Nat) (f : Nat → Bool) (rom : Vector Byte 8)
    (nd : Byte) (hp : 1 ≤ p) (hn : p + n = 65) (hP : p ≤ P) (hP' : P ≤ 64)
    (h : ∀ q, p ≤ q → q < P → ¬ (f (2 * (q - p)) = true ∧ f (2 * (q - p) + 1) = true))
    (h11 : f (2 * (P - p)) = true ∧ f (2 * (P - p) + 1) = true) :
    (refPass o t last n p f rom nd).newDisc = none ∧ (refPass o t last n p f rom nd).draws = 2 * (P - p) + 2 ∧
      (refPass o t last n p f rom nd).events.length = 22 * (P - p) + 16 ∧
      ∀ q, 1 ≤ q → q ≤ 64 → wireBit o (refPass o t last n p f rom nd).rom q =
        if p ≤ q ∧ q < P then decidedBit (f (2 * (q - p))) (f (2 * (q - p) + 1)) q last (wireBit o rom q)
        else wireBit o rom q := by
  induction n generalizing p f rom nd with
  | zero => omega
  | succ n ih =>
    by_cases he : p = P
    · subst he
      simp only [Nat.sub_self, Nat.mul_zero, Nat.zero_add] at h11
      rw [refPass_abort _ _ _ _ _ _ _ _ h11.1 h11.2]
      refine ⟨rfl, by simp, by simp [readEvents], fun q h1 h2 => ?_⟩
      rw [if_neg (by omega)]
    · have h0 : ¬ (f 0 = true ∧ f 1 = true) := by simpa using h p (Nat.le_refl p) (by omega)
      rw [refPass_succ _ _ _ _ _ _ _ _ h0]
      have hidx : ∀ q, p + 1 ≤ q → 2 * (q - (p + 1)) + 2 = 2 * (q - p) ∧ 2 * (q - (p + 1)) + 1 + 2 = 2 * (q - p) + 1 :=
        fun q hq => by omega
      obtain ⟨e1, e2, e3, e4⟩ := ih (p + 1) (fun j => f (j + 2))
        (setRomBit rom (loc o p).1 (loc o p).2 (decidedBit (f 0) (f 1) p last (wireBit o rom p)))
        (if marksPosition (f 0) (f 1) p last (wireBit o rom p) then BitVec.ofNat 8 p else nd) (by omega) (by omega)
        (by omega)
        (fun q hq hq' => by
          have := h q (by omega) hq'
          rwa [(hidx q hq).1, (hidx q hq).2])
        (by rwa [(hidx P (by omega)).1, (hidx P (by omega)).2])
      refine ⟨e1, ?_, ?_, ?_⟩
      · simp only [e2]; omega
      · simp only [List.length_append, e3, readEvents, writeEvents, List.length_cons, List.length_nil]; omega
      · intro q h1 h2
        rw [e4 q h1 h2]
        by_cases hq : q = p
        · subst hq
          rw [if_neg (by omega), if_pos (by omega), wireBit_setRomBit o rom q q _ (by omega) (by omega), if_pos rfl]
          simp
        · rw [wireBit_setRomBit o rom p q _ (by omega) (by omega), if_neg hq]
          by_cases hq2 : p ≤ q ∧ q < P
          · rw [if_pos (by omega), if_pos hq2, (hidx q (by omega)).1, (hidx q (by omega)).2]
          · rw [if_neg (by omega), if_neg hq2]

end Sys2Proof.Machine
end

