-- ==== Sys2Proof/Laws/Commands.lean ====
section
/-!
SUPPORT. The payloads of the multi-byte commands, each from its first control point to the end of the command: the
eight bytes of MATCH (R136) and RDROM (R135), and the positions of SEARCH (R151).
-/

namespace Sys2Proof.Machine

/-! ## MATCH -/

/-- The state in which the last `j` bytes of MATCH's payload leave the engine, from `ROM[I]` downward. -/
def sentRom (j : Nat) (s : State) : State :=
  { s with drv := false, atom := false, tmr := 0, ph := 0, k := 0, sh := 0, rst := s.rst.drop (48 * j), i := 0
           log := ((List.range j).flatMap
             (fun k => byteEvents s.params.slots s.rom[Fin.ofNat 8 (s.i.val - k)])).reverse ++ s.log }

theorem run_sendRom {n : Nat} (j : Nat) (s : State) (ho : s.op = .matchRom) (hs : s.stg = .s1) (hb : s.busy = true)
    (hp : s.ph = 0) (hk : s.k = 0) (hi : s.i.val = j) (hsh : s.sh = s.rom[s.i]) (hr : NoReset (48 * (j + 1)) s) :
    runEngine (48 * (j + 1) + n) s = endCommand (sentRom (j + 1) s) := by
  induction j generalizing s with
  | zero =>
    rw [show 48 * (0 + 1) + n = 48 + n from rfl, run_send (sends_matchRom ho hs) hb hp hk hr]
    have hi0 : s.i = 0 := Fin.ext (by simpa using hi)
    have : (sentByte s).i = 0 := hi0
    rw [if_pos this, runEngine_idle rfl]
    simp [sentRom, sentByte, endCommand, hsh, hi0]
  | succ j ih =>
    rw [show 48 * (j + 1 + 1) + n = 48 + (48 * (j + 1) + n) by omega,
      run_send (sends_matchRom ho hs) hb hp hk (noReset_mono hr (by omega))]
    have hi0 : (sentByte s).i ≠ 0 := fun h => by
      rw [show (sentByte s).i = s.i from rfl] at h; rw [h] at hi; simp at hi
    have hi1 : (s.i - 1).val = j := by rw [Fin.sub_def]; simp [hi]; omega
    rw [if_neg hi0, ih]
    · simp [sentRom, sentByte, endCommand, hsh, List.range_succ_eq_map (n := j + 1), List.flatMap_map, List.drop_drop,
        hi1, hi]
      refine ⟨?_, by omega⟩
      congr 2
      simp [show (j + 1) % 8 = j + 1 by omega]
    · exact ho
    · exact hs
    · exact hb
    · rfl
    · rfl
    · exact hi1
    · rfl
    · exact noReset_drop (m := 48) (noReset_mono hr (by omega)) rfl

/-- R136: the 64 bits in wire order are the eight bytes, `ROM[7]` first. -/
theorem romEvents_bytes (t : SlotTable) (rom : Vector Byte 8) :
    romEvents t rom = (List.range 8).flatMap (fun k => byteEvents t rom[Fin.ofNat 8 (7 - k)]) := by
  unfold romEvents byteEvents
  rw [show List.range 64 = (List.range 8).flatMap (fun k => (List.range 8).map (fun j => 8 * k + j)) by decide,
    List.flatMap_assoc]
  apply List.flatMap_congr
  intro k hk
  rw [List.flatMap_map]
  apply List.flatMap_congr
  intro j hj
  simp only [List.mem_range] at hk hj
  congr 1
  have key : ∀ k j : Fin 8, loc .desc (8 * k.val + j.val + 1) = (Fin.ofNat 8 (7 - k.val), Fin.ofNat 8 j.val) := by
    decide
  rw [wireBit, key ⟨k, hk⟩ ⟨j, hj⟩, romBit]
  congr 1
  simp [Nat.mod_eq_of_lt hj]

/-! ## RDROM -/

/-- The buffer after the last `j` bytes of RDROM's payload, answered by `f` from its `d`-th answer on. -/
def receivedRom (f : Nat → Bool) : (j d : Nat) → Vector Byte 8 → Vector Byte 8
  | 0, _, rom => rom
  | j + 1, d, rom => receivedRom f j (d + 8) (setRomByte rom (Fin.ofNat 8 j) (answerByte (fun n => f (d + n))))

theorem receivedRom_shift (f g : Nat → Bool) (j d : Nat) (rom : Vector Byte 8) (h : ∀ n, f n = g (8 + n)) :
    receivedRom f j d rom = receivedRom g j (d + 8) rom := by
  induction j generalizing d rom with
  | zero => rfl
  | succ j ih =>
    rw [receivedRom, receivedRom, ih (d + 8)]
    congr 3
    funext n
    rw [h]; congr 1; omega

/-- R135: bit `b` of byte `i` is the answer at its wire position. -/
theorem receivedRom_bit (f : Nat → Bool) (j d : Nat) (rom : Vector Byte 8) (i b : Fin 8) (hj : j ≤ 8) :
    romBit (receivedRom f j d rom) i b =
      if i.val < j then f (d + 8 * (j - 1 - i.val) + b.val) else romBit rom i b := by
  induction j generalizing d rom with
  | zero => simp [receivedRom]
  | succ j ih =>
    rw [receivedRom, ih _ _ (by omega), romBit_setRomByte]
    by_cases h : i.val < j
    · rw [if_pos h, if_pos (by omega)]
      congr 1
      omega
    · rw [if_neg h]
      by_cases h2 : i = Fin.ofNat 8 j
      · have h3 : i.val = j := by rw [h2]; simp; omega
        rw [if_pos h2, if_pos (by omega), answerByte_bit _ _ b.isLt]
        congr 1; omega
      · have h3 : i.val ≠ j := fun e => h2 (by apply Fin.ext; simp [e]; omega)
        rw [if_neg h2, if_neg (by omega)]

theorem readsEvents_add (t : SlotTable) (f : Nat → Bool) (m n : Nat) :
    readsEvents t f (m + n) = readsEvents t f m ++ readsEvents t (fun j => f (m + j)) n := by
  unfold readsEvents
  rw [List.range_add, List.flatMap_append, List.flatMap_map]

/-- The state in which the last `j` bytes of RDROM's payload leave the engine, into `ROM[I]` downward. -/
def gotRom (j : Nat) (s : State) : State :=
  { s with drv := false, atom := false, tmr := 0, ph := 0, k := 0, rst := s.rst.drop (64 * j), i := 0
           smp := s.envAt (8 * j - 1), answers := s.answers.drop (8 * j), samples := s.samples + 8 * j
           sh := answerByte (fun n => s.envAt (8 * (j - 1) + n))
           rom := receivedRom s.envAt j 0 s.rom
           log := (readsEvents s.params.slots s.envAt (8 * j)).reverse ++ s.log }

theorem run_recvRom {n : Nat} (j : Nat) (s : State) (ho : s.op = .rdrom) (hs : s.stg = .s1) (hb : s.busy = true)
    (hp : s.ph = 0) (hk : s.k = 0) (hi : s.i.val = j) (hsh : s.sh = 0) (hr : NoReset (64 * (j + 1)) s) :
    runEngine (64 * (j + 1) + n) s = endCommand (gotRom (j + 1) s) := by
  induction j generalizing s with
  | zero =>
    rw [show 64 * (0 + 1) + n = 64 + n from rfl, run_recv (receives_rdrom ho hs) hb hp hk hsh hr]
    have hi0 : s.i = 0 := Fin.ext (by simpa using hi)
    have : (receivedByte s).i = 0 := hi0
    rw [if_pos this, runEngine_idle rfl]
    simp [gotRom, receivedByte, endCommand, hi0, receivedRom]
  | succ j ih =>
    rw [show 64 * (j + 1 + 1) + n = 64 + (64 * (j + 1) + n) by omega,
      run_recv (receives_rdrom ho hs) hb hp hk hsh (noReset_mono hr (by omega))]
    have hi0 : (receivedByte s).i ≠ 0 := fun h => by
      rw [show (receivedByte s).i = s.i from rfl] at h; rw [h] at hi; simp at hi
    have hi1 : (s.i - 1).val = j := by rw [Fin.sub_def]; simp [hi]; omega
    rw [if_neg hi0, ih]
    · have he : ∀ u : State, u.answers = s.answers.drop 8 → u.samples = s.samples + 8 →
          u.envAt = fun j => s.envAt (8 + j) := by
        intro u ha hu; funext k; exact envAt_of_drop s u 8 ha hu k
      have hi2 : s.i = Fin.ofNat 8 (j + 1) := by apply Fin.ext; simp [hi]; have := s.i.isLt; omega
      have h1 := readsEvents_add s.params.slots s.envAt 8 (8 * (j + 1))
      have h2 := receivedRom_shift (fun j => s.envAt (8 + j)) s.envAt (j + 1) 0
        (setRomByte s.rom s.i (answerByte s.envAt)) (fun n => rfl)
      simp only [gotRom, receivedByte, endCommand]
      simp only [he]
      rw [h2]
      simp [show 8 * (j + 1 + 1) = 8 + 8 * (j + 1) by omega, h1, List.drop_drop, hi2, receivedRom, Nat.add_assoc,
        show 64 * (j + 1 + 1) = 64 + 64 * (j + 1) by omega]
      constructor
      · congr 1; funext n; congr 1; omega
      · congr 1; omega
    · exact ho
    · exact hs
    · exact hb
    · rfl
    · rfl
    · exact hi1
    · rfl
    · exact noReset_drop (m := 64) (noReset_mono hr (by omega)) rfl

/-! ## SEARCH -/

/-- `t` is where the pass `q` leaves the engine that began it in `s`. -/
def PassRan (q : Pass) (s t : State) : Prop :=
  t.regs = { s.regs with rom := q.rom, newDisc := q.newDisc.getD 0xFF, nf := q.newDisc.isNone } ∧
    t.log = q.events.reverse ++ s.log ∧ RanBus q.events.length q.draws s t

theorem searchNext_more {u : State} (h : u.stg = .s3) (hp : u.p.toNat < 64) :
    searchNext u = { u with p := u.p + 1, stg := .s1 } := by
  unfold searchNext
  rw [h]
  exact if_pos hp

theorem searchNext_last {u : State} (h : u.stg = .s3) (hp : u.p.toNat = 64) : searchNext u = finishSearch u := by
  unfold searchNext
  rw [h]
  exact if_neg (fun hlt => absurd (show u.p.toNat < 64 from hlt) (by omega))

/-- The positions left of a search, from the first read of position `P` to the end of the command, are the reference
pass over them (R151). -/
theorem run_pass (n m : Nat) (s : State) (hb : s.busy = true) (ho : s.op = .search) (hs : s.stg = .s1) (hp : s.ph = 0)
    (hP : s.p.toNat + n = 64) (h1 : 1 ≤ s.p.toNat) (q : Pass)
    (hq : refPass s.params.searchOrder s.params.slots s.lastDisc.toNat (n + 1) s.p.toNat s.envAt s.rom s.nd = q)
    (hr : NoReset q.events.length s) : PassRan q s (runEngine (q.events.length + m) s) := by
  induction n generalizing s q with
  | zero =>
    by_cases h11 : s.envAt 0 = true ∧ s.envAt 1 = true
    · rw [refPass_abort _ _ _ _ _ _ _ _ h11.1 h11.2] at hq
      subst hq
      have := run_position_abort (n := m) hb ho hs hp h11.1 h11.2 hr
      show PassRan _ s (runEngine (16 + m) s)
      rw [this]
      exact ⟨rfl, rfl, ⟨rfl, rfl, rfl, rfl, rfl, rfl, rfl, rfl⟩, rfl, rfl, rfl, rfl, rfl, rfl⟩
    · rw [refPass_succ _ _ _ _ _ _ _ _ h11] at hq
      have hc := chooseBit_eq (s.envAt 0) (s.envAt 1) s.p s.lastDisc s.nd
        (wireBit s.params.searchOrder s.rom s.p.toNat) h11
      generalize decidedBit (s.envAt 0) (s.envAt 1) s.p.toNat s.lastDisc.toNat
        (wireBit s.params.searchOrder s.rom s.p.toNat) = v at hq hc
      generalize (if marksPosition (s.envAt 0) (s.envAt 1) s.p.toNat s.lastDisc.toNat
        (wireBit s.params.searchOrder s.rom s.p.toNat) = true then BitVec.ofNat 8 s.p.toNat else s.nd) = d at hq hc
      simp only [refPass] at hq
      have hl : q.events.length = 22 := by rw [← hq]; rfl
      rw [hl] at hr ⊢
      rw [run_position hb ho hs hp hc hr, searchNext_last (u := positionDone v d s) rfl (show s.p.toNat = 64 from hP),
        runEngine_idle rfl, ← hq]
      refine ⟨rfl, ?_, ⟨rfl, rfl, rfl, rfl, rfl, rfl, rfl, rfl⟩, rfl, rfl, rfl, rfl, rfl, rfl⟩
      simp [positionDone]
  | succ n ih =>
    by_cases h11 : s.envAt 0 = true ∧ s.envAt 1 = true
    · rw [refPass_abort _ _ _ _ _ _ _ _ h11.1 h11.2] at hq
      subst hq
      have := run_position_abort (n := m) hb ho hs hp h11.1 h11.2 hr
      show PassRan _ s (runEngine (16 + m) s)
      rw [this]
      exact ⟨rfl, rfl, ⟨rfl, rfl, rfl, rfl, rfl, rfl, rfl, rfl⟩, rfl, rfl, rfl, rfl, rfl, rfl⟩
    · rw [refPass_succ _ _ _ _ _ _ _ _ h11] at hq
      have hc := chooseBit_eq (s.envAt 0) (s.envAt 1) s.p s.lastDisc s.nd
        (wireBit s.params.searchOrder s.rom s.p.toNat) h11
      generalize decidedBit (s.envAt 0) (s.envAt 1) s.p.toNat s.lastDisc.toNat
        (wireBit s.params.searchOrder s.rom s.p.toNat) = v at hq hc
      generalize (if marksPosition (s.envAt 0) (s.envAt 1) s.p.toNat s.lastDisc.toNat
        (wireBit s.params.searchOrder s.rom s.p.toNat) = true then BitVec.ofNat 8 s.p.toNat else s.nd) = d at hq hc
      simp only at hq
      generalize hq' : refPass s.params.searchOrder s.params.slots s.lastDisc.toNat (n + 1) (s.p.toNat + 1)
        (fun j => s.envAt (j + 2))
        (setRomBit s.rom (loc s.params.searchOrder s.p.toNat).1 (loc s.params.searchOrder s.p.toNat).2 v) d = q' at hq
      have hl : q.events.length = 22 + q'.events.length := by
        rw [← hq]; simp only [List.length_append, readEvents, writeEvents, List.length_cons, List.length_nil]
      rw [hl] at hr ⊢
      rw [show 22 + q'.events.length + m = 22 + (q'.events.length + m) by omega,
        run_position hb ho hs hp hc (noReset_mono hr (by omega)),
        searchNext_more (u := positionDone v d s) rfl (by show s.p.toNat < 64; omega)]
      generalize hu : ({ positionDone v d s with p := (positionDone v d s).p + 1, stg := .s1 } : State) = u
      have hup : u.p.toNat = s.p.toNat + 1 := by
        rw [← hu]; show (s.p + 1).toNat = _; rw [BitVec.toNat_add]; simp; omega
      have huE : u.envAt = fun j => s.envAt (j + 2) := by
        funext j
        rw [envAt_of_drop s u 2 (by rw [← hu]; rfl) (by rw [← hu]; rfl), Nat.add_comm]
      have hrst : u.rst = s.rst.drop 22 := by rw [← hu]; rfl
      obtain ⟨hregs, hlog, hend, h2, h3, h4, h5, h6, h7⟩ := ih u (by rw [← hu]; exact hb) (by rw [← hu]; exact ho)
        (by rw [← hu]) (by rw [← hu]; rfl) (by omega) (by omega) q' (by rw [hup, huE, ← hq', ← hu]; rfl)
        (noReset_drop (m := 22) hr hrst)
      refine ⟨?_, ?_, hend, ?_, ?_, ?_, ?_, ?_, ?_⟩
      · rw [hregs, ← hu, ← hq]; rfl
      · rw [hlog, ← hu, ← hq]; simp [positionDone]
      · rw [h2, hrst, List.drop_drop, hl]
      · rw [h3, ← hu, ← hq]
        show List.drop _ (List.drop 2 _) = List.drop (q'.draws + 2) _
        rw [List.drop_drop, Nat.add_comm]
      · rw [h4, ← hu, ← hq]; show s.samples + 2 + q'.draws = s.samples + (q'.draws + 2); omega
      · rw [h5, ← hu]; rfl
      · rw [h6, ← hu]; rfl
      · rw [h7, ← hu]; rfl

/-- The state at a search's first position, the command byte sent (R151). -/
def searchStart (s : State) : State := { sentByte (launch .search s) with nd := 0x00, p := 1, stg := .s1 }

/-- A search is its command byte and then the reference pass (R151). -/
theorem runCommand_search {s : State} (hr : NoReset (48 + s.pass.events.length) s) :
    PassRan s.pass (searchStart s) (runCommand .search s) := by
  have hl : s.pass.events.length ≤ 1408 := refPass_length_le _ _ _ 64 _ _ _ _
  have hrun : runCommand .search s =
      runEngine (s.pass.events.length + (1408 - s.pass.events.length)) (searchStart s) := by
    rw [runCommand,
      show Config.maxPrimitives = 48 + (s.pass.events.length + (1408 - s.pass.events.length)) by
        simp [Config.maxPrimitives]; omega,
      run_send (s := launch .search s) (sends_search rfl rfl) rfl rfl rfl (noReset_mono hr (by omega))]
    rfl
  rw [hrun]
  exact run_pass 63 _ (searchStart s) rfl rfl rfl rfl rfl (Nat.le_refl 1) s.pass rfl
    (noReset_drop (m := 48) hr rfl)

end Sys2Proof.Machine
end

