-- ==== Sys2Proof/Laws/PerInstr.lean ====
section
/-!
SUPPORT. Statements per command (LAWS.json): each command is one byte that decodes to it and to nothing else
(30_encoding.md R70, R71).
-/

namespace Sys2Proof.Laws

/-- R70, R71: a command is well-formed, one byte long, covered by exactly one row of the opcode map, and read back from
its encoding. -/
def RoundTrip.Statement (i : Instr) : Prop :=
  i.wf = true ∧ (encode i).length = 1 ∧ (opcodeMap.filter (fun r => r.covers (encodeByte i))).map OpcodeRow.instr = [i] ∧
    decodeTableWord 8 (encodeByte i).toNat = some i

theorem RoundTrip.wbit : RoundTrip.Statement .wbit := by refine ⟨rfl, rfl, ?_, ?_⟩ <;> decide
theorem RoundTrip.rbit : RoundTrip.Statement .rbit := by refine ⟨rfl, rfl, ?_, ?_⟩ <;> decide
theorem RoundTrip.wbyte : RoundTrip.Statement .wbyte := by refine ⟨rfl, rfl, ?_, ?_⟩ <;> decide
theorem RoundTrip.rbyte : RoundTrip.Statement .rbyte := by refine ⟨rfl, rfl, ?_, ?_⟩ <;> decide
theorem RoundTrip.reset : RoundTrip.Statement .reset := by refine ⟨rfl, rfl, ?_, ?_⟩ <;> decide
theorem RoundTrip.skip : RoundTrip.Statement .skip := by refine ⟨rfl, rfl, ?_, ?_⟩ <;> decide
theorem RoundTrip.rdrom : RoundTrip.Statement .rdrom := by refine ⟨rfl, rfl, ?_, ?_⟩ <;> decide
theorem RoundTrip.matchRom : RoundTrip.Statement .matchRom := by refine ⟨rfl, rfl, ?_, ?_⟩ <;> decide
theorem RoundTrip.search : RoundTrip.Statement .search := by refine ⟨rfl, rfl, ?_, ?_⟩ <;> decide
theorem RoundTrip.crc8 : RoundTrip.Statement .crc8 := by refine ⟨rfl, rfl, ?_, ?_⟩ <;> decide

end Sys2Proof.Laws
end

