-- ==== Sys2Proof/Laws/Port.lean ====
section
/-!
SUPPORT. What a step and a command answer, said once: always a next state (60_exceptions.md R185), and which.
-/

namespace Sys2Proof.Machine

/-- R185: every command completes in every state. -/
theorem exec_total (i : Instr) (s : State) : ∃ t, exec i s = .next t := by
  cases i <;> exact ⟨_, rfl⟩

/-- R74: the operand check in numbers. -/
theorem argBitLegal_iff (s : State) : argBitLegal s = true ↔ s.arg.toNat ≤ 1 := by
  have key : ∀ n : Fin 256, ((BitVec.ofNat 8 n.val).extractLsb 7 1 == 0) = decide (n.val ≤ 1) := by decide +kernel
  have h := key ⟨s.arg.toNat, s.arg.isLt⟩
  simp only [BitVec.ofNat_toNat, BitVec.setWidth_eq] at h
  rw [argBitLegal, h, decide_eq_true_eq]

/-- A legal bus command is the run of the engine from its launch (R35). -/
theorem exec_busOp {i : Instr} {op : Op} {s : State} (h : busOp i = some op)
    (hl : i = .wbit → argBitLegal s = true) : exec i s = .next (runCommand op s) := by
  cases i with
  | wbit => cases h; simp [exec, execWbit, hl rfl]
  | crc8 => cases h
  | rbit => cases h; rfl
  | wbyte => cases h; rfl
  | rbyte => cases h; rfl
  | reset => cases h; rfl
  | skip => cases h; rfl
  | rdrom => cases h; rfl
  | matchRom => cases h; rfl
  | search => cases h; rfl

/-- R74: WBIT with a reserved operand bit set. -/
theorem exec_wbit_illegal {s : State} (h : argBitLegal s = false) : exec .wbit s = .next { s with ill := true } := by
  simp [exec, execWbit, h, illegalCommand, recordStatus]

theorem commandWrite_cases (v : Byte) (s : State) :
    (∃ i, decodeByte v = .ok i ∧ commandWrite v s = exec i s) ∨
    ((∃ e, decodeByte v = .error e) ∧ commandWrite v s = .next { s with ill := true }) := by
  unfold commandWrite
  cases h : decodeByte v with
  | ok i => exact .inl ⟨i, rfl, rfl⟩
  | error e => exact .inr ⟨⟨e, rfl⟩, rfl⟩

/-- Everything a step can be: reset, an engine step, an idle action, or a request of the host. -/
theorem step_cases (s : State) :
    (s.rstNow = true ∧ step s = .next (blockReset s)) ∨
    (s.rstNow = false ∧ s.busy = true ∧ step s = .next (enginePrim (passRst s))) ∨
    (s.rstNow = false ∧ s.busy = false ∧ s.host = [] ∧ step s = .next (passRst s)) ∨
    (∃ rest, s.rstNow = false ∧ s.busy = false ∧ s.host = none :: rest ∧
      step s = .next { passRst s with host := rest }) ∨
    (∃ r rest, s.rstNow = false ∧ s.busy = false ∧ s.host = some r :: rest ∧
      step s = serve r { passRst s with host := rest }) := by
  unfold step action engineStep
  cases hr : s.rstNow <;> cases hb : s.busy <;> simp
  unfold hostAction
  cases hh : s.host with
  | nil => simp [hh]
  | cons r rest => cases r <;> simp [hh]

theorem serve_total (r : HostReq) (s : State) : ∃ t, serve r s = .next t := by
  cases r with
  | read a => exact ⟨_, rfl⟩
  | write a v =>
    by_cases h : a = 0x0
    · rcases commandWrite_cases v s with ⟨i, -, hi⟩ | ⟨-, hi⟩
      · obtain ⟨t, ht⟩ := exec_total i s
        exact ⟨t, (if_pos h).trans (hi.trans ht)⟩
      · exact ⟨_, (if_pos h).trans hi⟩
    · exact ⟨_, if_neg h⟩

/-- R185: every step answers a next state. -/
theorem step_total (s : State) : ∃ t, step s = .next t := by
  rcases step_cases s with ⟨-, h⟩ | ⟨-, -, h⟩ | ⟨-, -, -, h⟩ | ⟨_, -, -, -, h⟩ | ⟨r, rest, -, -, -, h⟩
  · exact ⟨_, h⟩
  · exact ⟨_, h⟩
  · exact ⟨_, h⟩
  · exact ⟨_, h⟩
  · obtain ⟨t, ht⟩ := serve_total r { passRst s with host := rest }
    exact ⟨t, h.trans ht⟩

/-- A ready port waits for nothing. -/
theorem awaitReady_idle {s : State} (h : s.busy = false) : awaitReady s = s := runEngine_idle h

/-- A host's statement at a ready port is its transaction served, the state otherwise as it was. -/
theorem performStmt_idle {s : State} (st : HostStmt) (hb : s.busy = false) (hr : s.rstNow = false) :
    performStmt st s = serve (encodeStmt s.hRdata st) (passRst s) := by
  rw [performStmt, awaitReady_idle hb, step, action, if_neg (by rw [show (offer st s).busy = s.busy from rfl, hb]; decide),
    if_neg (by rw [show (offer st s).rstNow = s.rstNow from rfl, hr]; decide)]
  rfl

/-- A host program goes on from where its first statement ends. -/
theorem performProgram_cons {st : HostStmt} {rest : List HostStmt} {s t : State} (h : performStmt st s = .next t) :
    performProgram (st :: rest) s = performProgram rest t := by
  simp [performProgram, h]

/-- A pseudo-instruction at a ready port is its expansion performed, where it is admitted. -/
theorem performPseudo_idle {q : Pseudo} {s : State} (hb : s.busy = false) :
    performPseudo q s = if q.admitted s then some (performProgram q.expand s) else none := by
  simp [performPseudo, awaitReady_idle hb]

end Sys2Proof.Machine
end

