-- ==== Sys2Proof/Tests/Slice0.lean ====
section
/-!
SUPPORT. The model's own tests: well-formedness, decoding, one step on a small state, and for each statement a state
and operands that meet its hypotheses. Expected results come from the spec: the encodings of 30_encoding.md R71 and
the vectors of 95_test_vectors.md, named in each docstring.
-/

namespace Sys2Proof.Machine.Tests

open Sys2Proof Sys2Proof.Machine

/-- The state an outcome answers. -/
def after (o : Host.Outcome State Fault Refusal) : State :=
  match o with
  | .next t => t
  | .fault _ => State.reset
  | .refused _ => State.reset

/-- The reset state with these answers of the line. -/
def answering (l : List Bool) : State := { State.reset with answers := l }

/-- The reset state with this operand. -/
def withArg (v : Byte) : State := { State.reset with arg := v }

/-- The reset state with these requests at the port. -/
def asking (l : List HostReq) : State := { State.reset with host := l.map some }

/-- One request on a state, then its `STATUS`. -/
def statusAfter (r : HostReq) (s : State) : Byte := regRead 0x3 (after (step { s with host := [some r] }))

/-! ## Well-formedness -/

/-- R92, R227, the timer vector: each entry of the slot table is checked. -/
theorem test_slots_refused :
    [ { Config.defaultTimes with tA := 512 }, { Config.defaultTimes with tB := 512 }, { Config.defaultTimes with tC := 512 },
      { Config.defaultTimes with tD := 512 }, { Config.defaultTimes with tE := 512 }, { Config.defaultTimes with tF := 512 },
      { Config.defaultTimes with tH := 512 }, { Config.defaultTimes with tI := 512 },
      { Config.defaultTimes with tJ := 512 } ].map SlotTimes.wf = List.replicate 9 false := by decide

/-- R90: the default table, and the largest time that fits, are accepted. -/
theorem test_slots_accepted :
    Config.defaultTimes.wf = true ∧ ({ Config.defaultTimes with tH := 511 } : SlotTimes).wf = true := by decide

/-- R81: a `CMD` write of an opcode is that command's mnemonic; of an illegal value it has no other form. -/
theorem test_stmt_wf :
    (HostStmt.write .cmd 0x03).wf = false ∧ (HostStmt.write .cmd 0x0B).wf = true ∧ (HostStmt.write .arg 0x03).wf = true := by
  decide

/-- R82: `SEARCHNEXT` is for cursors 1 to 64, as read from `NEWDISC`. -/
theorem test_pseudo_admitted :
    [(0 : Byte), 1, 64, 65, 0xFF].map (fun v => Pseudo.searchNext.admitted { State.reset with newDisc := v }) =
      [false, true, true, false, false] := by decide

/-- R82: the first two statements of `SEARCHNEXT` copy `NEWDISC` to `LASTDISC`. -/
theorem test_searchNext_copies :
    (after (performProgram (Pseudo.searchNext.expand.take 2) { State.reset with newDisc := 0x0B })).lastDisc = 0x0B := by
  decide +kernel

/-- Vector 6.2 as `CRCBYTE 0x01` on a zero seed, through the port. -/
theorem test_pseudo_crcByte : (performPseudo (.crcByte 0x01) State.reset).map (fun o => regRead 0x4 (after o)) = some 0x5E := by
  decide +kernel

/-! ## Decoding: the bytes of R71 bit by bit, bit 7 at the left -/

theorem test_decode_wbit : decode [0b00000001#8] = .ok (.wbit, []) := by rfl
theorem test_decode_rbit : decode [0b00000010#8] = .ok (.rbit, []) := by rfl
theorem test_decode_wbyte : decode [0b00000011#8] = .ok (.wbyte, []) := by rfl
theorem test_decode_rbyte : decode [0b00000100#8] = .ok (.rbyte, []) := by rfl
theorem test_decode_reset : decode [0b00000101#8] = .ok (.reset, []) := by rfl
theorem test_decode_skip : decode [0b00000110#8] = .ok (.skip, []) := by rfl
theorem test_decode_rdrom : decode [0b00000111#8] = .ok (.rdrom, []) := by rfl
theorem test_decode_match : decode [0b00001000#8] = .ok (.matchRom, []) := by rfl
theorem test_decode_search : decode [0b00001001#8] = .ok (.search, []) := by rfl
theorem test_decode_crc8 : decode [0b00001010#8] = .ok (.crc8, []) := by rfl

/-- R73: the values beside the map's ends, and the last, are illegal. -/
theorem test_decode_illegal :
    decode [0x00#8] = .error (.illegalOpcode 0x00) ∧ decode [0x0B#8] = .error (.illegalOpcode 0x0B) ∧
    decode [0xFF#8] = .error (.illegalOpcode 0xFF) := ⟨rfl, rfl, rfl⟩

/-- R71: no byte falls under two rows. -/
theorem test_rows_disjoint : opcodeMap.Pairwise (fun r q => r.value &&& q.mask ≠ q.value &&& r.mask) := by decide

/-- R70: the numbering of the opcode table, one byte a word; a longer word is no command. -/
theorem test_table_words :
    decodeTableWord 8 0x08 = some .matchRom ∧ decodeTableWord 8 0x0B = none ∧ decodeTableWord 16 0x0001 = none := by decide

/-- R71 through the port: the command `withFetchWord` places is the one the next step runs (vector 6.2). -/
theorem test_fetch_crc8 :
    regRead 0x4 (after (step ({ State.reset with arg := 0x01 }.withFetchWord 8 0x0A))) = 0x5E := by decide

/-! ## Commands on small states -/

/-- Vector 3.1. -/
theorem test_wbit_one : (after (exec .wbit (withArg 0x01))).trace =
    [.atomBegin, .low, .dly 6, .rel, .dly 64, .atomEnd] := by decide +kernel

/-- Vector 3.4: bit 0 is 1 but `ARG[7:1]` is not 0. -/
theorem test_wbit_illegal : (after (exec .wbit (withArg 0x03))).trace = [] ∧
    statusByte (after (exec .wbit (withArg 0x03))) = 0x04 := by decide +kernel

/-- Vector 3.7. -/
theorem test_rbit_one : (after (exec .rbit (answering [true]))).data = 0x01 ∧
    (after (exec .rbit (answering [true]))).trace =
      [.atomBegin, .low, .dly 6, .rel, .dly 9, .smp true, .dly 55, .atomEnd] := by decide +kernel

/-- Vector 3.9: the second result overwrites the first. -/
theorem test_rbit_overwrites :
    (after (exec .rbit (after (exec .rbit (answering [true, false]))))).data = 0x00 := by decide +kernel

/-- Vector 4.1: 0xA5 crosses as bits 1, 0, 1, 0, 0, 1, 0, 1; the low times tell them. -/
theorem test_wbyte_a5 :
    (after (exec .wbyte (withArg 0xA5))).trace.filter (fun e => e = .dly 6 ∨ e = .dly 60) =
      [.dly 6, .dly 60, .dly 6, .dly 60, .dly 60, .dly 6, .dly 60, .dly 6] := by decide +kernel

/-- Vector 4.2: the first answer is bit 0. -/
theorem test_rbyte_91 :
    (after (exec .rbyte (answering [true, false, false, false, true, false, false, true]))).data = 0x91 := by
  decide +kernel

/-- Vectors 4.3 and 4.3a. -/
theorem test_reset_presence :
    statusByte (after (exec .reset (answering [false]))) = 0x01 ∧
    statusByte (after (exec .reset (answering [true]))) = 0x00 := by decide +kernel

/-- Vector 4.3: the trace. -/
theorem test_reset_trace : (after (exec .reset (answering [false]))).trace =
    [.atomBegin, .low, .dly 480, .rel, .dly 70, .smp false, .dly 410, .atomEnd] := by decide +kernel

/-- Vector 4.4: 0xCC is sent. -/
theorem test_skip_cc :
    (after (exec .skip State.reset)).trace.filter (fun e => e = .dly 6 ∨ e = .dly 60) =
      [.dly 60, .dly 60, .dly 6, .dly 6, .dly 60, .dly 60, .dly 6, .dly 6] := by decide +kernel

/-- Vector 5.1 with the buffer of the vector. -/
theorem test_search_empty :
    let t := after (exec .search { answering [true, true] with rom := Vector.replicate 8 0xAA })
    t.newDisc = 0xFF ∧ t.nf = true ∧ t.rom = Vector.replicate 8 0xAA ∧ t.trace.length = 64 := by decide +kernel

/-- R135, the first byte of vector 4.5: after the eighth read slot `ROM[7]` is written and `I` is 6. -/
theorem test_rdrom_first_byte :
    let s : State := { State.reset with
      busy := true, op := .rdrom, stg := .s1, i := 7, k := 7, ph := 7, sh := 0x51, smp := false, atom := true }
    (after (step s)).rom[(7 : Fin 8)] = 0x28 ∧ (after (step s)).i = 6 ∧ (after (step s)).busy = true := by decide +kernel

/-- R136, the second payload byte of vector 4.6: after `ROM[7]` comes `ROM[6]`. -/
theorem test_match_second_byte :
    let s : State := { State.reset with
      busy := true, op := .matchRom, stg := .s1, i := 7, k := 7, ph := 5, atom := true
      rom := #v[0x72, 0x00, 0x00, 0x00, 0x00, 0x00, 0x11, 0x28] }
    (after (step s)).sh = 0x11 ∧ (after (step s)).i = 6 ∧ (after (step s)).k = 0 := by decide +kernel

/-- Vector 5.4, pass 4, position 9: a replayed 1 leaves no mark; and pass 2, a replayed 0 does. -/
theorem test_search_replay :
    chooseBit false false 9 11 true 0 = some (true, 0) ∧ chooseBit false false 9 11 false 0 = some (false, 9) ∧
    chooseBit false false 11 11 false 9 = some (true, 9) ∧ chooseBit false false 11 9 true 0 = some (false, 11) := by decide

/-- Vector 6.1. -/
theorem test_crc8_steps :
    crc8 0x01 0x00 = 0x5E ∧ crc8 0xFF 0x00 = 0x35 ∧ crc8 0x28 0x00 = 0xE1 ∧ crc8 0xA5 0x5E = 0x54 ∧
    crc8 0x80 0x00 = 0x8C ∧ crc8 0xFF 0xFF = 0x00 := by decide

/-- Vector 6.3: slave A in wire order, and reversed. -/
theorem test_crc8_folds :
    crcFold 0x00 [0x28, 0x11, 0x00, 0x00, 0x00, 0x00, 0x00, 0x72] = 0x00 ∧
    crcFold 0x00 [0x72, 0x00, 0x00, 0x00, 0x00, 0x00, 0x11, 0x28] = 0xFA ∧
    crcFold 0x00 [0x31, 0x32, 0x33, 0x34, 0x35, 0x36, 0x37, 0x38, 0x39] = 0xA1 := by decide +kernel

/-! ## The port and block reset -/

/-- Vector 7.1. -/
theorem test_reads_after_reset : ∀ a : Fin 16, regRead (BitVec.ofNat 4 a.val) State.reset = 0x00 := by decide +kernel

/-- Vector 7.2, `W STATUS, 0xFF`, and 7.3, `W ROM[3], 0x77`. -/
theorem test_writes :
    regRead 0x3 (after (step (asking [.write 0x3 0xFF]))) = 0x00 ∧
    regRead 0xB (after (step (asking [.write 0xB 0x77]))) = 0x77 := by decide

/-- Vectors 7.4, 7.5, 7.6. -/
theorem test_illegal_status :
    statusAfter (.write 0x0 0x00) State.reset = 0x04 ∧ statusAfter (.write 0x0 0x0B) State.reset = 0x04 ∧
    statusAfter (.write 0x0 0xFF) State.reset = 0x04 := by decide

/-- Vector 7.7: `ILL` stays across a legal command. -/
theorem test_ill_stays : statusAfter (.write 0x0 0x05) { answering [false] with ill := true } = 0x05 := by decide +kernel

/-- Vector 7.9: `rst` in the third slot of a WBYTE, after its `LOW` and `DLY(60)`: fifteen primitives, then `RST`. -/
theorem test_reset_mid_wbyte :
    let t := after (exec .wbyte { withArg 0x00 with crc := 0x3C, rst := List.replicate 15 false ++ [true] })
    t.trace.drop 12 = [.atomBegin, .low, .dly 60, .rst] ∧ t.drv = false ∧ t.atom = false ∧ t.busy = false ∧
      t.crc = 0x00 := by decide +kernel

/-! ## Witnesses: for each statement with hypotheses, what meets them -/

theorem noReset_none {n : Nat} {s : State} (h : s.rst = []) : NoReset n s := by simp [NoReset, h]

/-- Position by position, answers that stand in the list. -/
theorem pairs_of_list {s : State} {q : Nat → Bool × Bool} (h : ∀ p : Fin 64, s.pairAt (p.val + 1) = q (p.val + 1))
    (p : Nat) (h1 : 1 ≤ p) (h2 : p ≤ 64) : s.pairAt p = q p := by
  have := h ⟨p - 1, by omega⟩
  rwa [show p - 1 + 1 = p by omega] at this

theorem witness_CommandStreamRoundTrip : Instr.search.wf = true := rfl

theorem witness_HostProgramRoundTrip :
    ∀ x ∈ [((0x00 : Byte), HostStmt.write .cmd 0xFF), (0x00, .writeRead .cmd), (0x0B, .writeRead .lastDisc),
        (0x00, .command .wbit), (0x00, .command .crc8), (0x00, .read .cmd), (0x00, .write (.rom 7) 0x28)],
      (x.2.settle x.1).wf = true := by decide

theorem witness_StepRunsCommand : (asking [.write 0x0 0x05]).busy = false ∧ (asking [.write 0x0 0x05]).rstNow = false ∧
    (asking [.write 0x0 0x05]).host = some (.write 0x0 0x05) :: [] ∧ decodeByte 0x05 = .ok .reset := ⟨rfl, rfl, rfl, rfl⟩

theorem witness_IllegalOpcodes : ∀ v ∈ [(0x00 : Byte), 0x0B, 0xFF], (v = 0x00 ∨ 0x0B ≤ v.toNat) ∧
    (asking [.write 0x0 v]).busy = false ∧ (asking [.write 0x0 v]).rstNow = false ∧
    (asking [.write 0x0 v]).host = some (.write 0x0 v) :: [] := by decide

/-- Every address, so every clause at its ends. -/
theorem witness_HostReads : ∀ n : Fin 16, (asking [.read (BitVec.ofNat 4 n.val)]).busy = false ∧
    (asking [.read (BitVec.ofNat 4 n.val)]).rstNow = false ∧
    (asking [.read (BitVec.ofNat 4 n.val)]).host = some (.read (BitVec.ofNat 4 n.val)) :: [] := by decide

/-- The last clause of HostReads at its ends. -/
theorem witness_HostReads_rom : (0x8 : Addr).toNat = 8 + (0 : Fin 8).val ∧ (0xF : Addr).toNat = 8 + (7 : Fin 8).val := by
  decide

theorem witness_HostWrites : ∀ n : Fin 16, (asking [.write (BitVec.ofNat 4 n.val) 0x5A]).busy = false ∧
    (asking [.write (BitVec.ofNat 4 n.val) 0x5A]).rstNow = false ∧
    (asking [.write (BitVec.ofNat 4 n.val) 0x5A]).host = some (.write (BitVec.ofNat 4 n.val) 0x5A) :: [] := by decide

/-- The two `CMD` clauses of HostWrites. -/
theorem witness_HostWrites_cmd : decodeByte 0x05 = .ok .reset ∧ ∀ i, decodeByte 0x0B ≠ .ok i :=
  ⟨rfl, fun i h => by cases h⟩

theorem witness_HostWrites_rom : (0x8 : Addr).toNat = 8 + (0 : Fin 8).val ∧ (0xF : Addr).toNat = 8 + (7 : Fin 8).val := by
  decide

theorem witness_HostStall :
    (launch .search (asking [.read 0x6])).busy = true ∧ (launch .search (asking [.read 0x6])).rstNow = false := ⟨rfl, rfl⟩

theorem witness_BlockIdles : State.reset.busy = false ∧ State.reset.rstNow = false ∧ State.reset.host = [] :=
  ⟨rfl, rfl, rfl⟩

/-- The clauses of LineLevel: driver on, driver off with an answer, driver off without one. -/
theorem witness_LineLevel : (driveLow State.reset).drv = true ∧ State.reset.drv = false ∧
    (answering [true]).answers = true :: [] ∧ State.reset.answers = [] := ⟨rfl, rfl, rfl, rfl⟩

theorem witness_SlotTimer : 512 ≤ ({ Config.defaultTimes with tH := 512 } : SlotTimes).tH := by decide

theorem witness_WbitSends : ∀ v ∈ [(0x00 : Byte), 0x01], (withArg v).arg.toNat ≤ 1 ∧ NoReset 6 (withArg v) := by
  intro v hv
  refine ⟨?_, noReset_none rfl⟩
  revert v; decide

theorem witness_WbitSends_illegal : ∀ v ∈ [(0x02 : Byte), 0x03, 0xFF], 1 < (withArg v).arg.toNat := by decide

theorem witness_WbitIllegal : ∀ v ∈ [(0x02 : Byte), 0x03, 0xFF], (withArg v).arg.extractLsb 7 1 ≠ 0 := by decide

/-- Its second clause. -/
theorem witness_WbitIllegal_others : Instr.crc8 ≠ .wbit ∧ Instr.search ≠ .wbit := by decide

theorem witness_RbitReceives : NoReset 8 (answering [true]) := noReset_none rfl

theorem witness_WbyteSends : NoReset 48 (withArg 0xA5) := noReset_none rfl

theorem witness_RbyteReceives : NoReset 64 (answering [true]) := noReset_none rfl

/-- A reset that comes just after the command does not count. -/
theorem witness_ResetDetects : NoReset 8 { State.reset with rst := List.replicate 8 false ++ [true] } := by
  simp [NoReset]

theorem witness_SkipSends : NoReset 48 State.reset := noReset_none rfl

theorem witness_RdromReads : NoReset 560 State.reset := noReset_none rfl

theorem witness_MatchSends : NoReset 432 State.reset := noReset_none rfl

theorem witness_SearchMakesPass : NoReset (48 + State.reset.pass.events.length) State.reset := noReset_none rfl

/-- Vector 6.3's buffer, its first and its last bit. -/
theorem witness_CrcSensitivity : crcFold 0x00 [0x02, 0x1C, 0xB8, 0x01, 0x00, 0x00, 0x00, 0xA2] = 0x00 ∧
    ([0x02, 0x1C, 0xB8, 0x01, 0x00, 0x00, 0x00, 0xA2] : List Byte)[0]? = some 0x02 ∧
    ([0x02, 0x1C, 0xB8, 0x01, 0x00, 0x00, 0x00, 0xA2] : List Byte)[7]? = some 0xA2 := by decide +kernel

/-- The first clause, and the second for each of its three causes. -/
theorem witness_IllSticky :
    (∃ s t : State, NoReset 1457 s ∧ step s = .next t ∧ s.ill = true) ∧
    ∀ q ∈ [((0x00 : Byte), (0x00 : Byte)), (0x0B, 0x00), (0x01, 0x02)], ∃ s t : State, s.arg = q.2 ∧
      s.host = some (.write 0x0 q.1) :: [] ∧ NoReset 1457 s ∧ step s = .next t ∧ s.ill = false ∧ t.ill = true := by
  refine ⟨⟨{ State.reset with ill := true }, _, noReset_none rfl, rfl, rfl⟩, ?_⟩
  intro q hq
  refine ⟨{ asking [.write 0x0 q.1] with arg := q.2 }, { asking [] with arg := q.2, ill := true }, rfl, rfl,
    noReset_none rfl, ?_, rfl, rfl⟩
  simp only [List.mem_cons, List.not_mem_nil, or_false] at hq
  rcases hq with rfl | rfl | rfl <;> rfl

theorem witness_WriteSets : ∀ i ∈ [Instr.wbit, .rbit, .wbyte, .rbyte, .reset, .skip, .rdrom, .matchRom, .search, .crc8],
    Legal i State.reset ∧ NoReset 1456 State.reset ∧ ∃ t, exec i State.reset = .next t :=
  fun i _ => ⟨fun _ => by decide, noReset_none rfl, exec_total i _⟩

/-- Two states that differ in every register a search does not read. -/
theorem witness_ReadSets :
    let u : State := { State.reset with arg := 0x01, data := 0x02, pres := true, crc := 0x03, newDisc := 0x04, nd := 0x05 }
    SameOperands .search State.reset u ∧ SameLine State.reset u ∧ Legal .search State.reset ∧
      NoReset 1456 State.reset ∧ NoReset 1456 u ∧ (∃ t, exec .search State.reset = .next t) ∧ ∃ v, exec .search u = .next v :=
  ⟨⟨rfl, rfl⟩, ⟨fun _ => rfl, rfl⟩, (fun h => nomatch h), noReset_none rfl, noReset_none rfl, exec_total _ _, exec_total _ _⟩

/-- A search at the end of a position's second read: position, first read, second read and `LASTDISC`. -/
def secondRead (p : Position) (b1 b2 : Bool) (last : Byte) : State :=
  { State.reset with
    busy := true, op := .search, stg := .s2, ph := 7, p := p, b1 := b1, smp := b2, lastDisc := last, atom := true }

theorem witness_SearchAgreement : ∀ s ∈ [secondRead 1 true false 0, secondRead 64 false true 64],
    s.busy = true ∧ s.op = .search ∧ s.stg = .s2 ∧ s.ph = 7 ∧ s.rstNow = false ∧ 1 ≤ s.p.toNat ∧ s.p.toNat ≤ 64 ∧
      s.b1 ≠ s.smp := by decide

theorem witness_SearchDiscrepancy :
    (∀ s ∈ [secondRead 1 false false 1, secondRead 64 false false 64, secondRead 1 false false 0,
        secondRead 64 false false 63, secondRead 1 false false 2, secondRead 64 false false 65, secondRead 64 false false 0xFF],
      s.busy = true ∧ s.op = .search ∧ s.stg = .s2 ∧ s.ph = 7 ∧ s.rstNow = false ∧ 1 ≤ s.p.toNat ∧ s.p.toNat ≤ 64 ∧
        s.b1 = false ∧ s.smp = false) ∧
    (secondRead 64 false false 64).p.toNat = (secondRead 64 false false 64).lastDisc.toNat ∧
    (secondRead 64 false false 63).p.toNat > (secondRead 64 false false 63).lastDisc.toNat ∧
    (secondRead 64 false false 65).p.toNat < (secondRead 64 false false 65).lastDisc.toNat := by decide

/-- The empty line (P = 1), and a line that empties before the last position (P = 64). -/
theorem witness_SearchAborts :
    (∀ p, 1 ≤ p → p < 1 → (answering [true, true]).pairAt p ≠ (true, true)) ∧
    (answering [true, true]).pairAt 1 = (true, true) ∧ NoReset (48 + (1 - 1) * 22 + 16) (answering [true, true]) ∧
    (∀ p, 1 ≤ p → p < 64 → (answering (List.replicate 126 false ++ [true, true])).pairAt p ≠ (true, true)) ∧
    (answering (List.replicate 126 false ++ [true, true])).pairAt 64 = (true, true) ∧
    NoReset (48 + (64 - 1) * 22 + 16) (answering (List.replicate 126 false ++ [true, true])) := by
  have h : ∀ p : Fin 63, (answering (List.replicate 126 false ++ [true, true])).pairAt (p.val + 1) ≠ (true, true) := by
    decide
  refine ⟨by omega, rfl, noReset_none rfl, ?_, rfl, noReset_none rfl⟩
  intro p h1 h2
  have := h ⟨p - 1, by omega⟩
  rwa [show p - 1 + 1 = p by omega] at this

theorem witness_SearchEmptyBus : (answering [true, true]).envAt 0 = true ∧ (answering [true, true]).envAt 1 = true ∧
    NoReset 64 (answering [true, true]) := ⟨rfl, rfl, noReset_none rfl⟩

/-- A discrepancy at every position. -/
def allDiscrepant : State := answering (List.replicate 128 false)

theorem allDiscrepant_pairs (p : Nat) (h1 : 1 ≤ p) (h2 : p ≤ 64) : allDiscrepant.pairAt p = (false, false) :=
  pairs_of_list (q := fun _ => (false, false)) (by decide) p h1 h2

theorem witness_SearchCompletes :
    (∀ p, 1 ≤ p → p ≤ 64 → allDiscrepant.pairAt p ≠ (true, true)) ∧ NoReset 1456 allDiscrepant :=
  ⟨fun p h1 h2 => by rw [allDiscrepant_pairs p h1 h2]; decide, noReset_none rfl⟩

theorem witness_SearchFreshStart : allDiscrepant.lastDisc = 0x00 ∧
    (∀ p, 1 ≤ p → p ≤ 64 → allDiscrepant.pairAt p ≠ (true, true)) ∧ NoReset 1456 allDiscrepant ∧
    allDiscrepant.pairAt 1 = (false, false) ∧ allDiscrepant.pairAt 64 = (false, false) :=
  ⟨rfl, fun p h1 h2 => by rw [allDiscrepant_pairs p h1 h2]; decide, noReset_none rfl, rfl, rfl⟩

theorem witness_SearchBeyondLast : ∀ v ∈ [(65 : Byte), 0xFF], 64 < ({ allDiscrepant with lastDisc := v } : State).lastDisc.toNat ∧
    (∀ p, 1 ≤ p → p ≤ 64 → ({ allDiscrepant with lastDisc := v } : State).pairAt p ≠ (true, true)) ∧
    NoReset 1456 ({ allDiscrepant with lastDisc := v } : State) := by
  intro v hv
  refine ⟨?_, fun p h1 h2 => ?_, noReset_none rfl⟩
  · revert v; decide
  · rw [show ({ allDiscrepant with lastDisc := v } : State).pairAt p = allDiscrepant.pairAt p from rfl,
      allDiscrepant_pairs p h1 h2]
    decide

/-- The pairs of one slave whose bits alternate, 0 first. -/
def alternating : State := answering ((List.range 64).flatMap (fun j => [j % 2 == 1, j % 2 == 0]))

theorem witness_SearchOneSlave : (∀ p, 1 ≤ p → p ≤ 64 → alternating.pairAt p = (p % 2 == 0, !(p % 2 == 0))) ∧
    NoReset 1456 alternating :=
  ⟨pairs_of_list (q := fun p => (p % 2 == 0, !(p % 2 == 0))) (by decide), noReset_none rfl⟩

/-! ### Vector 5.5: two slaves that differ only at position 1 -/

/-- Slave X. -/
def slaveX : Nat → Bool := fun p => p == 1

/-- Slave Y. -/
def slaveY : Nat → Bool := fun _ => false

/-- Pass 1 of vector 5.5: a discrepancy at position 1, then Y alone. -/
def pass1 : State := answering ([false, false] ++ (List.replicate 63 [false, true]).flatten)

/-- Pass 2 of vector 5.5: the same answers, X alone after position 1. -/
def pass2 : State := { pass1 with lastDisc := 0x01 }

theorem pass_pairs (p : Nat) (h1 : 1 ≤ p) (h2 : p ≤ 64) : pass1.pairAt p = (false, !(p == 1)) :=
  pairs_of_list (q := fun p => (false, !(p == 1))) (by decide) p h1 h2

/-- Bits written back that are Y's or X's make those answers ideal. -/
theorem ideal_pass {s : State} {b : Bool} {f : Nat → Bool} (hs : ∀ p, s.pairAt p = pass1.pairAt p)
    (hf : ∀ p, 1 ≤ p → p ≤ 64 → f p = (b && p == 1)) : IdealPass [slaveX, slaveY] s f := by
  intro p h1 h2
  rw [hs, pass_pairs p h1 h2]
  by_cases hp : p = 1
  · subst hp
    constructor
    · simp only [Bool.false_eq_true, false_iff]
      intro h
      exact absurd (h slaveY (by simp) (fun q hq hq' => by omega)) (by decide)
    · simp only [beq_self_eq_true, Bool.not_true, Bool.false_eq_true, false_iff]
      intro h
      exact absurd (h slaveX (by simp) (fun q hq hq' => by omega)) (by decide)
  · have hx : slaveX p = false := by simp [slaveX, hp]
    constructor
    · simp only [Bool.false_eq_true, false_iff]
      intro h
      cases b
      · refine absurd (h slaveY (by simp) (fun q hq hq' => ?_)) (by simp [slaveY])
        rw [hf q hq (by omega)]; rfl
      · refine absurd (h slaveX (by simp) (fun q hq hq' => ?_)) (by simp [hx])
        rw [hf q hq (by omega)]; simp [slaveX]
    · have : (!(p == 1)) = true := by simp [hp]
      simp only [this, true_iff]
      intro w hw _
      rcases List.mem_cons.1 hw with rfl | hw
      · exact hx
      · rw [List.mem_singleton.1 hw]; rfl

theorem pass_found {s t : State} {b : Bool} (hr : s.rst = []) (ho : s.params.searchOrder = .desc)
    (hb : ∀ p : Fin 64, wireBit .desc s.pass.rom (p.val + 1) = (b && p.val + 1 == 1)) (h : exec .search s = .next t)
    (p : Nat) (h1 : 1 ≤ p) (h2 : p ≤ 64) : t.found p = (b && p == 1) := by
  obtain ⟨hregs, -, -, -, -, -, -, -, hpar⟩ := runCommand_search (s := s) (noReset_none hr)
  have ht : t = runCommand .search s := by
    have := h.symm
    exact Host.Outcome.next.inj this
  have hrom : t.rom = s.pass.rom := by
    rw [ht]; exact congrArg HostRegs.rom hregs
  have hord : t.params.searchOrder = .desc := by
    rw [ht, hpar]; exact ho
  have := hb ⟨p - 1, by omega⟩
  rw [show p - 1 + 1 = p by omega] at this
  rw [State.found, hord, hrom]
  exact this

/-- A cursor beside Y: position 1, where X has 1. -/
theorem cursor_y : IsCursor [slaveX, slaveY] slaveY 1 := by
  refine ⟨fun p hp => ?_, .inr ⟨by omega, by omega, rfl, slaveX, by simp, fun q hq hq' => by omega, rfl⟩⟩
  obtain ⟨h1, -, -, v, hv, -, hvp⟩ := hp
  by_contra hc
  rcases List.mem_cons.1 hv with rfl | hv
  · simp [slaveX] at hvp; omega
  · rw [List.mem_singleton.1 hv] at hvp; simp [slaveY] at hvp

/-- The first pass of an enumeration. -/
theorem witness_SearchEnumerates_first : NoReset 1456 pass1 ∧
    (∀ t, exec .search pass1 = .next t → IdealPass [slaveX, slaveY] pass1 t.found) ∧
    pass1.lastDisc = 0x00 ∧ [slaveX, slaveY] ≠ [] :=
  ⟨noReset_none rfl,
    fun _ h => ideal_pass (b := false) (fun _ => rfl) (pass_found rfl rfl (by decide +kernel) h), rfl, by simp⟩

/-- The second pass: the buffer holds Y, the cursor is 1. -/
theorem witness_SearchEnumerates_next : NoReset 1456 pass2 ∧
    (∀ t, exec .search pass2 = .next t → IdealPass [slaveX, slaveY] pass2 t.found) ∧
    slaveY ∈ [slaveX, slaveY] ∧ (∀ p, 1 ≤ p → p ≤ 64 → pass2.found p = slaveY p) ∧
    IsCursor [slaveX, slaveY] slaveY pass2.lastDisc.toNat ∧ pass2.lastDisc ≠ 0x00 := by
  refine ⟨noReset_none rfl,
    fun _ h => ideal_pass (b := true) (fun _ => rfl) (pass_found rfl rfl (by decide +kernel) h), by simp, ?_, cursor_y, by decide⟩
  have h : ∀ p : Fin 64, wireBit .desc (Vector.replicate 8 0x00) (p.val + 1) = false := by decide +kernel
  intro p h1 h2
  have := h ⟨p - 1, by omega⟩
  rw [show p - 1 + 1 = p by omega] at this
  exact this

/-- The last slave: beside X no branch is open. -/
theorem witness_SearchEnumerates_last : IsCursor [slaveX, slaveY] slaveX 0 := by
  refine ⟨fun p hp => ?_, .inl rfl⟩
  obtain ⟨h1, -, hw, v, hv, -, hvp⟩ := hp
  rcases List.mem_cons.1 hv with rfl | hv
  · rw [hw] at hvp; cases hvp
  · rw [List.mem_singleton.1 hv] at hvp; simp [slaveY] at hvp

theorem witness_LocMap : loc .asc ((0 : Fin 64).val + 1) = loc .asc ((0 : Fin 64).val + 1) := rfl

theorem witness_ByteRoundTrip :
    let u := answering [true, false, true, false, false, true, false, true]
    NoReset 64 u ∧ (∀ j, j < 8 → u.envAt j = (withArg 0xA5).arg.getLsbD j) ∧ NoReset 48 (withArg 0xA5) :=
  ⟨noReset_none rfl, by decide, noReset_none rfl⟩

theorem witness_RomRoundTrip : NoReset 992 State.reset := noReset_none rfl

theorem witness_EmptyLine :
    (∀ n, n < 64 → (answering (List.replicate 64 true)).envAt n = true) ∧ NoReset 560 (answering (List.replicate 64 true)) :=
  ⟨by decide, noReset_none rfl⟩

/-- Every bus command, from reset: WorkingRegisters, SectionsAlternate, CommandIsSteps, EveryCommandEnds. -/
theorem witness_BusCommands :
    ∀ i ∈ [Instr.wbit, .rbit, .wbyte, .rbyte, .reset, .skip, .rdrom, .matchRom, .search],
      (busOp i).isSome = true ∧ Legal i State.reset ∧ NoReset 1456 State.reset := by
  intro i hi
  refine ⟨?_, fun _ => by decide, noReset_none rfl⟩
  revert i; decide

theorem witness_CommandLengths :
    State.reset.params.slots = Config.defaultTimes.toTable ∧ busOp .search = some .search ∧ Legal .search State.reset ∧
      NoReset 1456 State.reset := ⟨rfl, rfl, (fun h => nomatch h), noReset_none rfl⟩

/-- The last clause of CommandLengths: a pass that fails at once. -/
theorem witness_CommandLengths_failed :
    (after (exec .search (answering [true, true]))).nf = true ∧
    (answering [true, true]).params.slots = Config.defaultTimes.toTable := by decide +kernel

theorem pass_completed {s : State} (hr : s.rst = []) (h : s.pass.newDisc.isNone = false) :
    (after (exec .search s)).nf = false := by
  obtain ⟨hregs, -⟩ := runCommand_search (s := s) (noReset_none hr)
  exact (congrArg HostRegs.nf hregs).trans h

/-- The clause before it: a pass that completes. -/
theorem witness_CommandLengths_completed : (after (exec .search pass1)).nf = false :=
  pass_completed rfl (by decide +kernel)

/-- A read slot of a software port: each delay 5 us long, the rest 4 us together. -/
theorem witness_RealDurations :
    let es : List (Event × Nat) :=
      [(.atomBegin, 1), (.low, 1), (.dly 6, 11), (.rel, 1), (.dly 9, 14), (.smp true, 1), (.dly 55, 60), (.atomEnd, 0)]
    NoReset 8 (answering [true]) ∧ (after (exec .rbit (answering [true]))).trace = (answering [true]).trace ++ es.map Prod.fst ∧
      RealSlot 5 es := by
  refine ⟨noReset_none rfl, by decide +kernel, by decide, by decide, fun n d h => ?_⟩
  simp only [List.mem_cons, Prod.mk.injEq, reduceCtorEq, false_and, Event.dly.injEq, List.not_mem_nil, or_false, false_or] at h
  rcases h with ⟨rfl, rfl⟩ | ⟨rfl, rfl⟩ | ⟨rfl, rfl⟩ <;> decide

theorem witness_BlockReset : ({ State.reset with rst := [true] } : State).rstNow = true := rfl

/-- Vector 7.9, and a reset before the first primitive. -/
theorem witness_ResetMidCommand :
    ∀ n ∈ [0, 15], busOp .wbyte = some .wbyte ∧
      NoReset n { State.reset with rst := List.replicate n false ++ [true] } ∧
      (List.replicate n false ++ [true])[n]? = some true ∧ n < 1456 ∧
      (runEngine n (launch .wbyte { State.reset with rst := List.replicate n false ++ [true] })).busy = true := by
  intro n hn
  simp only [List.mem_cons, List.not_mem_nil, or_false] at hn
  rcases hn with rfl | rfl
  · exact ⟨rfl, by simp [NoReset], rfl, by decide, rfl⟩
  · exact ⟨rfl, by simp [NoReset], by decide, by decide, by decide +kernel⟩

/-- The first primitive of a slot, and the last of a read slot. -/
theorem witness_OnePrimitivePerStep :
    (launch .rbit State.reset).busy = true ∧ (launch .rbit State.reset).rstNow = false ∧
    slotOf (launch .rbit State.reset) = some .read ∧
    (launch .rbit State.reset).ph.val < (Slot.read.prims State.reset.params.slots).length ∧
    ({ launch .rbit State.reset with ph := 7 } : State).ph.val < (Slot.read.prims State.reset.params.slots).length := by
  decide

/-- The invariants in the middle of a command: `LOW` is done, the line is held. -/
theorem witness_LineDiscipline :
    let s : State := { launch .rbit State.reset with ph := 2, drv := true, atom := true }
    LineInv s ∧ (∃ t, step s = .next t) ∧ LineInv State.reset ∧ State.reset.atom = false := by
  refine ⟨⟨by decide, by decide, fun _ => ⟨by decide, fun slot h => ?_⟩⟩, step_total _,
    ⟨fun _ => ⟨rfl, rfl⟩, (fun h => nomatch h), fun h => nomatch h⟩, rfl⟩
  cases h
  decide

theorem witness_SentinelFlag :
    let s : State := { secondRead 64 true true 0 with nd := 64 }
    SearchInv s ∧ ∃ t, step s = .next t :=
  ⟨⟨by decide, by decide, by decide⟩, step_total _⟩

/-- ParamsFixed and TraceGrows: a step that launches a command. -/
theorem witness_Step : ∃ t, step (asking [.write 0x0 0x04]) = .next t := step_total _

/-- The clauses of PseudoInstructions: no premise of its own, and `NEWDISC` inside and outside 1..64. -/
theorem witness_PseudoInstructions : ∀ v ∈ [(0x00 : Byte), 0x01, 0x40, 0x41, 0xFF],
    let s : State := { State.reset with newDisc := v }
    s.busy = false ∧ NoReset 1460 s ∧
      ((1 ≤ s.newDisc.toNat ∧ s.newDisc.toNat ≤ 64) ∨ s.newDisc.toNat = 0 ∨ 64 < s.newDisc.toNat) := by
  intro v hv
  refine ⟨rfl, noReset_none rfl, ?_⟩
  show (1 ≤ v.toNat ∧ v.toNat ≤ 64) ∨ v.toNat = 0 ∨ 64 < v.toNat
  omega

end Sys2Proof.Machine.Tests
end

section
/-!
SUPPORT. What a step adds to the observation (00_scope.md R11, 20_memory.md R62): one relation `Gains es s t`, kept by
every operation from a primitive up to a step, and the statements of 00_scope.md that follow from it.
-/

namespace Sys2Proof.Machine

/-! ## Gaining events -/

/-- Whether an event is a sample of the line. -/
def Event.isSmp : Event → Bool
  | .smp _ => true
  | .atomBegin | .low | .dly _ | .rel | .atomEnd | .rst => false

/-- The number of samples in a piece of trace. -/
def samplesOf (es : List Event) : Nat := (es.filter Event.isSmp).length

theorem samplesOf_append (es fs : List Event) : samplesOf (es ++ fs) = samplesOf es + samplesOf fs := by
  simp [samplesOf]

/-- From `s` to `t` the trace gains the events `es`, oldest first, one answer of the line is used up for each sample
among them, and the parameters stay. -/
structure Gains (es : List Event) (s t : State) : Prop where
  log : t.log = es.reverse ++ s.log
  samples : t.samples = s.samples + samplesOf es
  answers : t.answers = s.answers.drop (samplesOf es)
  params : t.params = s.params

theorem Gains.trace {es : List Event} {s t : State} (h : Gains es s t) : t.trace = s.trace ++ es := by
  simp [State.trace, h.log]

theorem Gains.refl (s : State) : Gains [] s s := ⟨rfl, rfl, rfl, rfl⟩

theorem Gains.trans {es fs : List Event} {s t u : State} (h : Gains es s t) (h' : Gains fs t u) :
    Gains (es ++ fs) s u where
  log := by simp [h'.log, h.log]
  samples := by rw [h'.samples, h.samples, samplesOf_append, Nat.add_assoc]
  answers := by rw [h'.answers, h.answers, samplesOf_append, List.drop_drop]
  params := h'.params.trans h.params

/-- Nothing gained first. The later part is the first argument, so that unification meets its start before the `rfl`s
of a record update do. -/
theorem Gains.after_silent {es : List Event} {s t u : State} (h : Gains es t u) (h' : Gains [] s t) : Gains es s u :=
  h'.trans h

/-- Nothing gained last. -/
theorem Gains.then_silent {es : List Event} {s t u : State} (h : Gains es s t) (h' : Gains [] t u) : Gains es s u := by
  simpa using h.trans h'

/-! ## The operations that gain nothing -/

theorem passRst_gains (s : State) : Gains [] s (passRst s) := ⟨rfl, rfl, rfl, rfl⟩

theorem endCommand_gains (s : State) : Gains [] s (endCommand s) := ⟨rfl, rfl, rfl, rfl⟩

theorem launch_gains (op : Op) (s : State) : Gains [] s (launch op s) := ⟨rfl, rfl, rfl, rfl⟩

theorem raiseStatus_gains (st : Status) (s : State) : Gains [] s (raiseStatus st s) := by
  cases st <;> exact ⟨rfl, rfl, rfl, rfl⟩

theorem regWrite_gains (a : Addr) (v : Byte) (s : State) : Gains [] s (regWrite a v s) := by
  unfold regWrite
  split <;> exact ⟨rfl, rfl, rfl, rfl⟩

theorem sendNext_gains {next : State → State} (h : ∀ u, Gains [] u (next u)) (s : State) :
    Gains [] s (sendNext next s) := by
  unfold sendNext
  split
  · exact (h _).after_silent ⟨rfl, rfl, rfl, rfl⟩
  · exact ⟨rfl, rfl, rfl, rfl⟩

theorem recvNext_gains {next : State → State} (h : ∀ u, Gains [] u (next u)) (s : State) :
    Gains [] s (recvNext next s) := by
  unfold recvNext
  split
  · exact (h _).after_silent ⟨rfl, rfl, rfl, rfl⟩
  · exact ⟨rfl, rfl, rfl, rfl⟩

theorem finishPresence_gains (s : State) : Gains [] s (finishPresence s) := by
  unfold finishPresence
  split
  · exact raiseStatus_gains .absentDevice s
  · exact ⟨rfl, rfl, rfl, rfl⟩

theorem rdromNext_gains (s : State) : Gains [] s (rdromNext s) := by
  unfold rdromNext
  split
  case h_1 =>
    refine sendNext_gains (fun _ => ?_) s
    exact ⟨rfl, rfl, rfl, rfl⟩
  all_goals
    refine recvNext_gains (fun _ => ?_) s
    split <;> exact ⟨rfl, rfl, rfl, rfl⟩

theorem matchNext_gains (s : State) : Gains [] s (matchNext s) := by
  unfold matchNext
  split
  case h_1 =>
    refine sendNext_gains (fun _ => ?_) s
    exact ⟨rfl, rfl, rfl, rfl⟩
  all_goals
    refine sendNext_gains (fun _ => ?_) s
    split <;> exact ⟨rfl, rfl, rfl, rfl⟩

theorem searchDecide_gains (s : State) : Gains [] s (searchDecide s) := by
  unfold searchDecide
  dsimp only
  split
  · exact raiseStatus_gains .noResponse s
  · exact ⟨rfl, rfl, rfl, rfl⟩

theorem searchNext_gains (s : State) : Gains [] s (searchNext s) := by
  unfold searchNext
  split
  · refine sendNext_gains (fun _ => ?_) s
    exact ⟨rfl, rfl, rfl, rfl⟩
  · exact ⟨rfl, rfl, rfl, rfl⟩
  · exact (searchDecide_gains _).after_silent ⟨rfl, rfl, rfl, rfl⟩
  · split <;> exact ⟨rfl, rfl, rfl, rfl⟩

/-- What follows a slot is no primitive. -/
theorem slotNext_gains (s : State) : Gains [] s (slotNext s) := by
  unfold slotNext
  split
  · exact endCommand_gains s
  · exact endCommand_gains s
  · exact ⟨rfl, rfl, rfl, rfl⟩
  · exact sendNext_gains endCommand_gains s
  · refine recvNext_gains (fun _ => ?_) s
    exact ⟨rfl, rfl, rfl, rfl⟩
  · exact finishPresence_gains s
  · exact sendNext_gains endCommand_gains s
  · exact rdromNext_gains s
  · exact matchNext_gains s
  · exact searchNext_gains s

/-! ## The engine -/

theorem blockReset_gains (s : State) : Gains [.rst] s (blockReset s) := ⟨rfl, rfl, rfl, rfl⟩

/-- R10: a primitive appends one event, and it is not a block reset's. -/
theorem doPrim_gains (q : Prim) (s : State) : ∃ e, e ≠ Event.rst ∧ Gains [e] s (doPrim q s) := by
  cases q with
  | sample => exact ⟨.smp s.line, nofun, rfl, rfl, List.drop_one.symm, rfl⟩
  | atomicBegin => exact ⟨.atomBegin, nofun, rfl, rfl, rfl, rfl⟩
  | driveLow => exact ⟨.low, nofun, rfl, rfl, rfl, rfl⟩
  | delay n => exact ⟨.dly n, nofun, rfl, rfl, rfl, rfl⟩
  | release => exact ⟨.rel, nofun, rfl, rfl, rfl, rfl⟩
  | atomicEnd => exact ⟨.atomEnd, nofun, rfl, rfl, rfl, rfl⟩

/-- R6: inside a slot the engine's step is one primitive, whether it is the slot's last or not. -/
theorem enginePrim_gains_one {s : State} {slot : Slot} (hs : slotOf s = some slot)
    (hp : s.ph.val < (slot.prims s.params.slots).length) : ∃ e, e ≠ Event.rst ∧ Gains [e] s (enginePrim s) := by
  obtain ⟨e, he, hg⟩ := doPrim_gains ((slot.prims s.params.slots)[s.ph.val]) s
  refine ⟨e, he, ?_⟩
  simp only [enginePrim, hs, List.getElem?_eq_getElem hp]
  split
  · exact hg.then_silent ⟨rfl, rfl, rfl, rfl⟩
  · exact hg.then_silent ((slotNext_gains _).after_silent ⟨rfl, rfl, rfl, rfl⟩)

theorem enginePrim_gains (s : State) : ∃ es, Gains es s (enginePrim s) := by
  cases hs : slotOf s with
  | none =>
    refine ⟨[], ?_⟩
    simp only [enginePrim, hs]
    exact slotNext_gains s
  | some slot =>
    by_cases hp : s.ph.val < (slot.prims s.params.slots).length
    · obtain ⟨e, -, hg⟩ := enginePrim_gains_one hs hp
      exact ⟨[e], hg⟩
    · refine ⟨[], ?_⟩
      simp only [enginePrim, hs, List.getElem?_eq_none (Nat.le_of_not_lt hp)]
      rw [if_neg (by omega)]
      exact (slotNext_gains _).after_silent ⟨rfl, rfl, rfl, rfl⟩

theorem engineStep_of_rst {s : State} (h : s.rstNow = true) : engineStep s = blockReset s := by
  simp [engineStep, h]

theorem engineStep_of_not_rst {s : State} (h : s.rstNow = false) : engineStep s = enginePrim (passRst s) := by
  simp [engineStep, h]

theorem engineStep_gains (s : State) : ∃ es, Gains es s (engineStep s) := by
  cases h : s.rstNow with
  | true => exact ⟨[.rst], engineStep_of_rst h ▸ blockReset_gains s⟩
  | false =>
    obtain ⟨es, hg⟩ := enginePrim_gains (passRst s)
    exact ⟨es, engineStep_of_not_rst h ▸ hg.after_silent (passRst_gains s)⟩

theorem runEngine_gains (n : Nat) (s : State) : ∃ es, Gains es s (runEngine n s) := by
  induction n generalizing s with
  | zero => exact ⟨[], Gains.refl s⟩
  | succ n ih =>
    unfold runEngine
    split
    · obtain ⟨es, h⟩ := engineStep_gains s
      obtain ⟨fs, h'⟩ := ih (engineStep s)
      exact ⟨es ++ fs, h.trans h'⟩
    · exact ⟨[], Gains.refl s⟩

theorem runCommand_gains (op : Op) (s : State) : ∃ es, Gains es s (runCommand op s) := by
  obtain ⟨es, h⟩ := runEngine_gains Config.maxPrimitives (launch op s)
  exact ⟨es, h.after_silent (launch_gains op s)⟩

/-! ## Commands and steps -/

/-- A legal bus command is the run of the engine from its launch (R35, R74). -/
theorem exec_legal {i : Instr} {op : Op} {s : State} (h : busOp i = some op) (hl : Legal i s) :
    exec i s = .next (runCommand op s) :=
  exec_busOp h fun hi => (argBitLegal_iff s).2 (hl hi)

/-- R35: CRC8 alone has no place in the sequencer. -/
theorem busOp_eq_none_iff {i : Instr} : busOp i = none ↔ i = .crc8 := by
  cases i <;> simp [busOp]

/-- Everything a command can be: a run of the engine, WBIT with an illegal operand, or CRC8. -/
theorem exec_cases (i : Instr) (s : State) :
    (∃ op, busOp i = some op ∧ Legal i s ∧ exec i s = .next (runCommand op s)) ∨
    (i = .wbit ∧ 1 < s.arg.toNat ∧ exec i s = .next { s with ill := true }) ∨
    (i = .crc8 ∧ exec i s = .next { s with crc := crc8 s.arg s.crc }) := by
  by_cases hl : Legal i s
  · cases h : busOp i with
    | some op => exact .inl ⟨op, rfl, hl, exec_legal h hl⟩
    | none =>
      obtain rfl := busOp_eq_none_iff.1 h
      exact .inr (.inr ⟨rfl, rfl⟩)
  · obtain ⟨rfl, ha⟩ : i = .wbit ∧ ¬ s.arg.toNat ≤ 1 := by simpa [Legal] using hl
    have hf : argBitLegal s = false := Bool.eq_false_iff.2 fun h => ha ((argBitLegal_iff s).1 h)
    exact .inr (.inl ⟨rfl, Nat.lt_of_not_le ha, exec_wbit_illegal hf⟩)

theorem exec_gains {i : Instr} {s t : State} (h : exec i s = .next t) : ∃ es, Gains es s t := by
  rcases exec_cases i s with ⟨op, -, -, he⟩ | ⟨-, -, he⟩ | ⟨-, he⟩ <;> cases he.symm.trans h
  · exact runCommand_gains op s
  · exact ⟨[], rfl, rfl, rfl, rfl⟩
  · exact ⟨[], rfl, rfl, rfl, rfl⟩

theorem commandWrite_gains {v : Byte} {s t : State} (h : commandWrite v s = .next t) : ∃ es, Gains es s t := by
  rcases commandWrite_cases v s with ⟨i, -, he⟩ | ⟨-, he⟩
  · exact exec_gains (he.symm.trans h)
  · cases he.symm.trans h
    exact ⟨[], rfl, rfl, rfl, rfl⟩

theorem serve_gains {r : HostReq} {s t : State} (h : serve r s = .next t) : ∃ es, Gains es s t := by
  cases r with
  | read a =>
    cases h
    exact ⟨[], rfl, rfl, rfl, rfl⟩
  | write a v =>
    by_cases ha : a = 0x0
    · exact commandWrite_gains ((if_pos ha).symm.trans h)
    · cases (if_neg ha).symm.trans h
      exact ⟨[], regWrite_gains a v s⟩

/-- R11, R62: every step gains events, and uses up one answer for each sample among them. -/
theorem step_gains {s t : State} (h : step s = .next t) : ∃ es, Gains es s t := by
  rcases step_cases s with ⟨-, he⟩ | ⟨-, -, he⟩ | ⟨-, -, -, he⟩ | ⟨rest, -, -, -, he⟩ | ⟨r, rest, -, -, -, he⟩
  · cases he.symm.trans h
    exact ⟨[.rst], blockReset_gains s⟩
  · cases he.symm.trans h
    obtain ⟨es, hg⟩ := enginePrim_gains (passRst s)
    exact ⟨es, hg.after_silent (passRst_gains s)⟩
  · cases he.symm.trans h
    exact ⟨[], passRst_gains s⟩
  · cases he.symm.trans h
    exact ⟨[], rfl, rfl, rfl, rfl⟩
  · obtain ⟨es, hg⟩ := serve_gains (he.symm.trans h)
    exact ⟨es, hg.after_silent ⟨rfl, rfl, rfl, rfl⟩⟩

/-- R6, R55: while `BUSY` is 1 the step is the engine's. -/
theorem step_busy {s : State} (h : s.busy = true) : step s = .next (engineStep s) := by
  simp [step, action, h]

/-! ## The machine's run -/

theorem coreRun_succ {M : Host.Core} {s t : M.State} (h : M.step s = .next t) (k : Nat) :
    M.run (k + 1) s = M.run k t := by
  rw [Host.Core.run, h]

/-- R6: the engine's run is a run of the machine's own steps, `BUSY` before each. -/
theorem runEngine_is_run (n : Nat) (s : State) :
    ∃ k, k ≤ n ∧ Host.Core.run Sys2Proof.core k s = .next (runEngine n s) ∧
      ∀ m, m < k → ∃ u : State, Host.Core.run Sys2Proof.core m s = .next u ∧ u.busy = true := by
  induction n generalizing s with
  | zero => exact ⟨0, Nat.le_refl 0, rfl, nofun⟩
  | succ n ih =>
    cases hb : s.busy with
    | false => exact ⟨0, Nat.zero_le _, congrArg _ (runEngine_idle hb).symm, nofun⟩
    | true =>
      obtain ⟨k, hk, hrun, hbusy⟩ := ih (engineStep s)
      have hstep : Sys2Proof.core.step s = .next (engineStep s) := step_busy hb
      refine ⟨k + 1, Nat.succ_le_succ hk, ?_, fun m hm => ?_⟩
      · rw [coreRun_succ hstep, hrun, runEngine, if_pos hb]
      · cases m with
        | zero => exact ⟨s, rfl, hb⟩
        | succ m =>
          obtain ⟨u, hu, hub⟩ := hbusy m (Nat.lt_of_succ_lt_succ hm)
          exact ⟨u, (coreRun_succ hstep m).trans hu, hub⟩

/-! ## The obligations -/

/-- Settles O10: each primitive is its record update; the timer's end is `runTimer_self`. -/
theorem busPrimitives : Obligations.BusPrimitives := by
  intro s
  refine ⟨rfl, rfl, rfl, rfl, fun n => ?_, rfl, ?_⟩
  · simp [doPrim, delay, emit, runTimer_self]
  · simp [State.trace, doPrim]

/-- Settles O50: the step is the engine's, and inside a slot that is one primitive. -/
theorem onePrimitivePerStep : Obligations.OnePrimitivePerStep := by
  intro s slot hb hr hs hp
  obtain ⟨e, he, hg⟩ := enginePrim_gains_one (s := passRst s) hs hp
  refine ⟨enginePrim (passRst s), e, ?_, (hg.after_silent (passRst_gains s)).trace, he⟩
  rw [step_busy hb, engineStep_of_not_rst hr]

/-- Settles O51: a legal bus command is the engine's run from its launch, which is a run of the machine's steps. -/
theorem commandIsSteps : Obligations.CommandIsSteps := by
  intro i op s hop hl
  obtain ⟨k, hk, hrun, hbusy⟩ := runEngine_is_run Config.maxPrimitives (launch op s)
  exact ⟨k, runCommand op s, hk, exec_legal hop hl, hrun, hbusy⟩

/-- Settles O57: no step changes what `Gains` keeps. -/
theorem paramsFixed : Obligations.ParamsFixed := by
  intro s t h
  obtain ⟨_, hg⟩ := step_gains h
  exact hg.params

/-- Settles O58: the events a step gains are those it appends, and their samples the answers it used up. -/
theorem traceGrows : Obligations.TraceGrows := by
  intro s t h
  obtain ⟨es, hg⟩ := step_gains h
  exact ⟨es, hg.trace, samplesOf es, hg.samples, hg.answers, rfl⟩

end Sys2Proof.Machine
end

section
/-!
SUPPORT. What a step can do, said once for the state's invariants: the frame of the engine (10_state.md R20), the cases
of a step, the result and the trace of every command (R46), and the statements about flags, registers and operands
that follow.
-/

namespace Sys2Proof.Machine

/-! ## The frame of the engine -/

/-- The sequencer's commands that use `SH` (R20: it is written by `WriteByte` and `ReadByte`). -/
def Op.shifts : Op → Bool
  | .idle | .wbit | .rbit | .reset => false
  | .wbyte | .rbyte | .skip | .rdrom | .matchRom | .search => true

/-- What the engine, running `op`, keeps from `s` to `t` while it uses up `n` levels of `rst`: the registers no bus
command writes, those only a search writes, `SH` unless `op` sends or receives bytes, and a timer that has run out. -/
structure Frame (op : Op) (n : Nat) (s t : State) : Prop where
  rst : t.rst = s.rst.drop n
  ill : t.ill = s.ill
  flag : op ≠ .search → t.nf = s.nf ∧ t.newDisc = s.newDisc
  search : op ≠ .search → t.p = s.p ∧ t.b1 = s.b1 ∧ t.b2 = s.b2 ∧ t.bit = s.bit ∧ t.nd = s.nd
  sh : op.shifts = false → t.sh = s.sh
  tmr : s.tmr = 0 → t.tmr = 0
  op : (s.busy = true → s.op = op) → t.busy = true → t.op = op

theorem Frame.refl (op : Op) (s : State) : Frame op 0 s s := by constructor <;> simp

theorem Frame.trans {op : Op} {m n : Nat} {s t u : State} (h : Frame op m s t) (h' : Frame op n t u) :
    Frame op (m + n) s u where
  rst := by rw [h'.rst, h.rst, List.drop_drop]
  ill := h'.ill.trans h.ill
  flag ho := by rw [(h'.flag ho).1, (h'.flag ho).2]; exact h.flag ho
  search ho := by
    obtain ⟨hp, h1, h2, hb, hn⟩ := h'.search ho
    rw [hp, h1, h2, hb, hn]
    exact h.search ho
  sh ho := (h'.sh ho).trans (h.sh ho)
  tmr h0 := h'.tmr (h.tmr h0)
  op hb := h'.op (h.op hb)

theorem sendNext_frame {op : Op} {next : State → State} (hop : op.shifts = true) (h : ∀ u, Frame op 0 u (next u))
    (s : State) : Frame op 0 s (sendNext next s) := by
  unfold sendNext
  split
  · refine Frame.trans (t := { s with sh := shiftOut s.sh, k := 0 }) ?_ (h _)
    constructor <;> simp [hop]
  · constructor <;> simp [hop]

theorem recvNext_frame {op : Op} {next : State → State} (hop : op.shifts = true) (h : ∀ u, Frame op 0 u (next u))
    (s : State) : Frame op 0 s (recvNext next s) := by
  unfold recvNext
  split
  · refine Frame.trans (t := { s with sh := shiftIn s.sh s.smp, k := 0 }) ?_ (h _)
    constructor <;> simp [hop]
  · constructor <;> simp [hop]

theorem endCommand_frame (op : Op) (s : State) : Frame op 0 s (endCommand s) := by constructor <;> simp

theorem finishPresence_frame (s : State) : Frame .reset 0 s (finishPresence s) := by
  unfold finishPresence
  split <;> constructor <;> simp

theorem rdromNext_frame (s : State) : Frame .rdrom 0 s (rdromNext s) := by
  unfold rdromNext
  split
  case h_1 =>
    refine sendNext_frame rfl (fun _ => ?_) s
    constructor <;> simp [Op.shifts]
  all_goals
    refine recvNext_frame rfl (fun _ => ?_) s
    split <;> constructor <;> simp [Op.shifts]

theorem matchNext_frame (s : State) : Frame .matchRom 0 s (matchNext s) := by
  unfold matchNext
  split
  case h_1 =>
    refine sendNext_frame rfl (fun _ => ?_) s
    constructor <;> simp [Op.shifts]
  all_goals
    refine sendNext_frame rfl (fun _ => ?_) s
    split <;> constructor <;> simp [Op.shifts]

theorem searchDecide_frame (s : State) : Frame .search 0 s (searchDecide s) := by
  unfold searchDecide
  dsimp only
  split <;> constructor <;> simp

theorem searchNext_frame (s : State) : Frame .search 0 s (searchNext s) := by
  unfold searchNext
  split
  · refine sendNext_frame rfl (fun _ => ?_) s
    constructor <;> simp
  · constructor <;> simp
  · refine Frame.trans (t := { s with b2 := s.smp }) ?_ (searchDecide_frame _)
    constructor <;> simp
  · split <;> constructor <;> simp

/-- What follows a slot of `op` keeps `op`'s frame. -/
theorem slotNext_frame (s : State) : Frame s.op 0 s (slotNext s) := by
  cases h : s.op <;> simp only [slotNext, h]
  case idle => exact endCommand_frame .idle s
  case wbit => exact endCommand_frame .wbit s
  case rbit =>
    refine Frame.trans (t := { s with data := zext8 s.smp }) ?_ (endCommand_frame .rbit _)
    constructor <;> simp
  case wbyte => exact sendNext_frame rfl (endCommand_frame .wbyte) s
  case rbyte =>
    refine recvNext_frame rfl (fun _ => ?_) s
    constructor <;> simp
  case reset => exact finishPresence_frame s
  case skip => exact sendNext_frame rfl (endCommand_frame .skip) s
  case rdrom => exact rdromNext_frame s
  case matchRom => exact matchNext_frame s
  case search => exact searchNext_frame s

/-- A primitive keeps every command's frame; a delay leaves the timer at 0 (R92). -/
theorem doPrim_frame (op : Op) (q : Prim) (s : State) : Frame op 0 s (doPrim q s) := by
  cases q with
  | delay n => constructor <;> simp [doPrim, delay, runTimer_self]
  | atomicBegin => constructor <;> simp [doPrim]
  | driveLow => constructor <;> simp [doPrim]
  | release => constructor <;> simp [doPrim]
  | sample => constructor <;> simp [doPrim]
  | atomicEnd => constructor <;> simp [doPrim]

/-- `u` is `s` after at most one primitive, wherever the slot then stands. -/
def AfterPrim (s u : State) : Prop :=
  ∃ x, u = { s with ph := x } ∨ ∃ q, u = { doPrim q s with ph := x }

theorem AfterPrim.op {s u : State} (h : AfterPrim s u) : u.op = s.op := by
  obtain ⟨x, rfl | ⟨q, rfl⟩⟩ := h
  · rfl
  · cases q <;> rfl

theorem AfterPrim.busy {s u : State} (h : AfterPrim s u) : u.busy = s.busy := by
  obtain ⟨x, rfl | ⟨q, rfl⟩⟩ := h
  · rfl
  · cases q <;> rfl

theorem setPh_frame (op : Op) (x : Fin 8) (s : State) : Frame op 0 s { s with ph := x } := by
  constructor <;> simp

theorem AfterPrim.frame (op : Op) {s u : State} (h : AfterPrim s u) : Frame op 0 s u := by
  obtain ⟨x, rfl | ⟨q, rfl⟩⟩ := h
  · exact setPh_frame op x s
  · exact (doPrim_frame op q s).trans (setPh_frame op x _)

/-- Everything the engine does in a step: at most one primitive, and at a slot's end what follows it. -/
theorem enginePrim_cases (s : State) :
    ∃ u, AfterPrim s u ∧ (enginePrim s = u ∨ enginePrim s = slotNext u) := by
  cases hs : slotOf s with
  | none => exact ⟨s, ⟨s.ph, .inl rfl⟩, .inr (by simp only [enginePrim, hs])⟩
  | some slot =>
    simp only [enginePrim, hs]
    cases (slot.prims s.params.slots)[s.ph.val]? with
    | none =>
      split
      · exact ⟨_, ⟨_, .inl rfl⟩, .inl rfl⟩
      · exact ⟨_, ⟨_, .inl rfl⟩, .inr rfl⟩
    | some q =>
      split
      · exact ⟨_, ⟨_, .inr ⟨q, rfl⟩⟩, .inl rfl⟩
      · exact ⟨_, ⟨_, .inr ⟨q, rfl⟩⟩, .inr rfl⟩

/-- A step of the engine keeps the frame of the command it runs. -/
theorem enginePrim_frame (s : State) : Frame s.op 0 s (enginePrim s) := by
  obtain ⟨u, hu, he⟩ := enginePrim_cases s
  rcases he with he | he <;> rw [he]
  · exact hu.frame s.op
  · exact (hu.frame s.op).trans (hu.op ▸ slotNext_frame u)

theorem passRst_frame (op : Op) (s : State) : Frame op 1 s (passRst s) := by constructor <;> simp

theorem engineStep_frame {s : State} (h : s.rstNow = false) : Frame s.op 1 s (engineStep s) := by
  rw [engineStep_of_not_rst h]
  exact (passRst_frame s.op s).trans (enginePrim_frame (passRst s))

/-- The engine's run keeps the frame of the command it runs, where no block reset cuts it. -/
theorem runEngine_frame {op : Op} {n : Nat} {s : State} (ho : s.busy = true → s.op = op) (hr : NoReset n s) :
    ∃ m, Frame op m s (runEngine n s) := by
  induction n generalizing s with
  | zero => exact ⟨0, Frame.refl op s⟩
  | succ n ih =>
    unfold runEngine
    split
    next hb =>
      have hf : Frame op 1 s (engineStep s) := ho hb ▸ engineStep_frame (noReset_zero_rstNow hr)
      obtain ⟨m, h⟩ := ih (hf.op ho) (noReset_tail hr (hf.rst.trans List.drop_one))
      exact ⟨1 + m, hf.trans h⟩
    next => exact ⟨0, Frame.refl op s⟩

theorem launch_frame (op : Op) (s : State) : Frame op 0 s (launch op s) := by
  constructor
  case sh => cases op <;> simp [Op.shifts, firstShift]
  all_goals simp

/-- What a command keeps, from before its launch to its end, where no block reset cuts it. -/
theorem runCommand_frame {op : Op} {s : State} (hr : NoReset 1456 s) : ∃ m, Frame op m s (runCommand op s) := by
  obtain ⟨m, h⟩ := runEngine_frame (op := op) (n := Config.maxPrimitives) (s := launch op s) (fun _ => rfl) hr
  exact ⟨0 + m, (launch_frame op s).trans h⟩

/-! ## The cases of a step -/

/-- What a ready port may change besides running a command: its own side, the registers a host writes, and `ILL`. -/
def PortAction (s t : State) : Prop :=
  ∃ arg ill crc lastDisc rom rst host hRdata, t =
    { s with arg := arg, ill := ill, crc := crc, lastDisc := lastDisc, rom := rom, rst := rst, host := host
             hRdata := hRdata }

theorem PortAction.trans {s t u : State} (h : PortAction s t) (h' : PortAction t u) : PortAction s u := by
  obtain ⟨_, _, _, _, _, _, _, _, rfl⟩ := h
  obtain ⟨_, _, _, _, _, _, _, _, rfl⟩ := h'
  exact ⟨_, _, _, _, _, _, _, _, rfl⟩

theorem regWrite_portAction (a : Addr) (v : Byte) (s : State) : PortAction s (regWrite a v s) := by
  unfold regWrite
  split <;> exact ⟨_, _, _, _, _, _, _, _, rfl⟩

theorem busOp_ne_idle {i : Instr} {op : Op} (h : busOp i = some op) : op ≠ .idle := by
  cases i <;> cases h <;> exact Op.noConfusion

/-- A command at the port is a run of the engine from a launch, or an action of the port alone. -/
theorem exec_outcome {i : Instr} {s t : State} (h : exec i s = .next t) :
    (∃ op, op ≠ .idle ∧ t = runCommand op s) ∨ PortAction s t := by
  rcases exec_cases i s with ⟨op, hop, -, he⟩ | ⟨-, -, he⟩ | ⟨-, he⟩ <;> cases he.symm.trans h
  · exact .inl ⟨op, busOp_ne_idle hop, rfl⟩
  · exact .inr ⟨_, _, _, _, _, _, _, _, rfl⟩
  · exact .inr ⟨_, _, _, _, _, _, _, _, rfl⟩

theorem serve_outcome {r : HostReq} {s t : State} (h : serve r s = .next t) :
    (∃ op, op ≠ .idle ∧ t = runCommand op s) ∨ PortAction s t := by
  cases r with
  | read a =>
    cases h
    exact .inr ⟨_, _, _, _, _, _, _, _, rfl⟩
  | write a v =>
    by_cases ha : a = 0x0
    · have hc : commandWrite v s = .next t := (if_pos ha).symm.trans h
      rcases commandWrite_cases v s with ⟨i, -, he⟩ | ⟨-, he⟩
      · exact exec_outcome (he.symm.trans hc)
      · cases he.symm.trans hc
        exact .inr ⟨_, _, _, _, _, _, _, _, rfl⟩
    · cases (if_neg ha).symm.trans h
      exact .inr (regWrite_portAction a v s)

/-- Everything a step can do: a block reset, a step of the engine, or at an idle block an action of the port, which
may launch a command and run it. -/
theorem step_outcome {s t : State} (h : step s = .next t) :
    t = blockReset s ∨ (s.busy = true ∧ t = enginePrim (passRst s)) ∨
    (s.busy = false ∧ ∃ u, PortAction s u ∧ (t = u ∨ ∃ op, op ≠ .idle ∧ t = runCommand op u)) := by
  rcases step_cases s with ⟨-, he⟩ | ⟨-, hb, he⟩ | ⟨-, hb, -, he⟩ | ⟨rest, -, hb, -, he⟩ | ⟨r, rest, -, hb, -, he⟩
  · cases he.symm.trans h
    exact .inl rfl
  · cases he.symm.trans h
    exact .inr (.inl ⟨hb, rfl⟩)
  · cases he.symm.trans h
    exact .inr (.inr ⟨hb, _, ⟨_, _, _, _, _, _, _, _, rfl⟩, .inl rfl⟩)
  · cases he.symm.trans h
    exact .inr (.inr ⟨hb, _, ⟨_, _, _, _, _, _, _, _, rfl⟩, .inl rfl⟩)
  · have hp : PortAction s { passRst s with host := rest } := ⟨_, _, _, _, _, _, _, _, rfl⟩
    rcases serve_outcome (he.symm.trans h) with hrun | hact
    · exact .inr (.inr ⟨hb, _, hp, .inr hrun⟩)
    · exact .inr (.inr ⟨hb, t, hp.trans hact, .inl rfl⟩)

/-! ## Invariants -/

/-- What every step of the running engine keeps, its run keeps. -/
theorem runEngine_keeps {Inv : State → Prop} (hstep : ∀ s, s.busy = true → Inv s → Inv (engineStep s)) (n : Nat)
    {s : State} (h : Inv s) : Inv (runEngine n s) := by
  induction n generalizing s with
  | zero => exact h
  | succ n ih =>
    unfold runEngine
    split
    next hb => exact ih (hstep s hb h)
    next => exact h

/-- A property is kept by every step where block reset, a primitive of the engine, an action of the port and a launch
keep it. -/
theorem step_keeps {Inv : State → Prop} (hreset : ∀ s, Inv s → Inv (blockReset s))
    (hprim : ∀ s, s.busy = true → Inv s → Inv (enginePrim s)) (hport : ∀ s t, PortAction s t → Inv s → Inv t)
    (hlaunch : ∀ op s, op ≠ .idle → s.busy = false → Inv s → Inv (launch op s)) {s t : State} (hs : Inv s)
    (h : step s = .next t) : Inv t := by
  have hpass : ∀ u, PortAction u (passRst u) := fun u => ⟨_, _, _, _, _, _, _, _, rfl⟩
  have hengine : ∀ u, u.busy = true → Inv u → Inv (engineStep u) := by
    intro u hb hu
    cases hr : u.rstNow with
    | true => exact engineStep_of_rst hr ▸ hreset u hu
    | false => exact engineStep_of_not_rst hr ▸ hprim _ hb (hport _ _ (hpass u) hu)
  rcases step_outcome h with rfl | ⟨hb, rfl⟩ | ⟨hb, u, hu, rfl | ⟨op, hop, rfl⟩⟩
  · exact hreset s hs
  · exact hprim _ hb (hport _ _ (hpass s) hs)
  · exact hport _ _ hu hs
  · have hub : u.busy = false := by
      obtain ⟨_, _, _, _, _, _, _, _, rfl⟩ := hu
      exact hb
    exact runEngine_keeps hengine _ (hlaunch op u hop hub (hport _ _ hu hs))

/-- R157, R158: the discrepancy a position leaves is the one before or the position itself. -/
theorem chooseBit_nd {b1 b2 old v : Bool} {p last nd nd' : Byte} (h : chooseBit b1 b2 p last old nd = some (v, nd')) :
    nd' = nd ∨ nd' = p := by
  unfold chooseBit at h
  split_ifs at h <;> cases h
  · exact .inl rfl
  · exact .inl rfl
  · exact .inr rfl
  · exact .inl rfl
  · exact .inr rfl

theorem afterPrim_searchInv {s u : State} (h : SearchInv s) (hu : AfterPrim s u) : SearchInv u := by
  obtain ⟨x, rfl | ⟨q, rfl⟩⟩ := hu
  · exact h
  · cases q <;> exact h

theorem portAction_searchInv (s t : State) (hp : PortAction s t) (h : SearchInv s) : SearchInv t := by
  obtain ⟨_, _, _, _, _, _, _, _, rfl⟩ := hp
  exact h

/-- A failed pass leaves the sentinel and `NF` (R154). -/
theorem noResponse_searchInv (s : State) : SearchInv (raiseStatus .noResponse s) :=
  ⟨⟨fun _ => rfl, fun _ => rfl⟩, .inl rfl, nofun⟩

/-- A completed pass leaves a position, so not the sentinel, and clears `NF` (R160). -/
theorem finishSearch_searchInv {s : State} (h : s.nd.toNat ≤ 64) : SearchInv (finishSearch s) := by
  have hne : s.nd ≠ Config.searchFailed := fun he => by rw [he] at h; exact absurd h (by decide)
  exact ⟨⟨nofun, fun he => absurd he hne⟩, .inr h, nofun⟩

theorem searchDecide_searchInv {s : State} (h : SearchInv s) (hnd : s.nd.toNat ≤ 64) (hp : s.p.toNat ≤ 64) :
    SearchInv (searchDecide s) := by
  obtain ⟨hnf, hdisc, -⟩ := h
  unfold searchDecide
  dsimp only
  split
  next => exact noResponse_searchInv s
  next v nd hc =>
    refine ⟨hnf, hdisc, fun _ _ _ => ⟨?_, hp⟩⟩
    rcases chooseBit_nd hc with rfl | rfl
    · exact hnd
    · exact (positionByte_toNat s.p).trans_le hp

/-- R151: what follows a slot of a running search keeps `SearchInv`. -/
theorem searchNext_searchInv {s : State} (hb : s.busy = true) (ho : s.op = .search) (h : SearchInv s) :
    SearchInv (searchNext s) := by
  have ⟨hnf, hdisc, hrange⟩ := h
  unfold searchNext
  split
  next hs =>
    unfold sendNext
    split
    · exact ⟨hnf, hdisc, fun _ _ _ => ⟨Nat.zero_le 64, show 1 ≤ 64 by decide⟩⟩
    · exact ⟨hnf, hdisc, fun _ _ h0 => absurd hs h0⟩
  next hs =>
    exact ⟨hnf, hdisc, fun _ _ _ => hrange hb ho (by simp [hs])⟩
  next hs =>
    obtain ⟨hnd, hp⟩ := hrange hb ho (by simp [hs])
    exact searchDecide_searchInv (s := { s with b2 := s.smp }) h hnd hp
  next hs =>
    obtain ⟨hnd, hp⟩ := hrange hb ho (by simp [hs])
    split
    next hlt =>
      refine ⟨hnf, hdisc, fun _ _ _ => ⟨hnd, ?_⟩⟩
      simp only [Config.romBits] at hlt
      show (s.p + 1).toNat ≤ 64
      rw [BitVec.toNat_add]
      simp
      omega
    next => exact finishSearch_searchInv hnd

/-- A command other than SEARCH writes neither `NEWDISC` nor `NF`, so only the search's own steps remain. -/
theorem slotNext_searchInv {s : State} (hb : s.busy = true) (h : SearchInv s) : SearchInv (slotNext s) := by
  by_cases ho : s.op = .search
  · have he : slotNext s = searchNext s := by simp only [slotNext, ho]
    exact he ▸ searchNext_searchInv hb ho h
  · obtain ⟨hnf, hdisc, -⟩ := h
    have hf := slotNext_frame s
    obtain ⟨e1, e2⟩ := hf.flag ho
    refine ⟨by rw [e1, e2]; exact hnf, by rw [e2]; exact hdisc, fun hb' ho' => ?_⟩
    exact absurd ((hf.op (fun _ => rfl) hb').symm.trans ho') ho

theorem enginePrim_searchInv (s : State) (hb : s.busy = true) (h : SearchInv s) : SearchInv (enginePrim s) := by
  obtain ⟨u, hu, he⟩ := enginePrim_cases s
  have hinv := afterPrim_searchInv h hu
  rcases he with he | he <;> rw [he]
  · exact hinv
  · exact slotNext_searchInv (hu.busy.trans hb) hinv

/-- Settles O54: at reset the engine rests, and `NEWDISC` and `NF` are 0. -/
theorem resetInvariants : Obligations.ResetInvariants :=
  ⟨⟨fun _ => ⟨rfl, rfl⟩, nofun, nofun⟩, ⟨nofun, nofun⟩, .inr (Nat.zero_le 64), nofun⟩

/-- Settles O56: block reset, the engine, the port and a launch each keep `SearchInv`; a search begins in stage 0. -/
theorem sentinelFlag : Obligations.SentinelFlag := by
  intro s t hs h
  refine step_keeps (fun u _ => ?_) enginePrim_searchInv portAction_searchInv (fun op u _ _ hu => ?_) hs h
  · exact ⟨⟨nofun, nofun⟩, .inr (Nat.zero_le 64), nofun⟩
  · obtain ⟨hnf, hdisc, -⟩ := hu
    exact ⟨hnf, hdisc, fun _ _ h0 => absurd rfl h0⟩

/-! ## The opcode map -/

theorem decodeByte_encodeByte (i : Instr) : decodeByte (encodeByte i) = .ok i := by cases i <;> rfl

/-- R71: a row of the opcode map covers its own opcode only. -/
theorem eq_encodeByte_of_covers {r : OpcodeRow} {v : Byte} (hr : r ∈ opcodeMap) (h : r.covers v = true) :
    v = encodeByte r.instr := by
  have hmask : v &&& 0xFF#8 = v := BitVec.and_allOnes
  have key : ∀ r ∈ opcodeMap, r.mask = 0xFF#8 ∧ r.value = encodeByte r.instr := by decide
  obtain ⟨hm, hv⟩ := key r hr
  rw [OpcodeRow.covers, hm, hmask, beq_iff_eq, hv] at h
  exact h

/-- R71: a command's opcode is the only byte that decodes to it. -/
theorem decodeByte_eq_ok_iff {v : Byte} {i : Instr} : decodeByte v = .ok i ↔ v = encodeByte i := by
  refine ⟨fun h => ?_, fun h => h ▸ decodeByte_encodeByte i⟩
  unfold decodeByte at h
  split at h
  next r hf =>
    cases h
    exact eq_encodeByte_of_covers (List.mem_of_find?_eq_some hf)
      (List.find?_some (p := fun r : OpcodeRow => r.covers v) hf)
  next => cases h

/-- R73: the values that select no command. -/
theorem decodeByte_error_iff (v : Byte) : (∃ e, decodeByte v = .error e) ↔ v = 0x00 ∨ 0x0B ≤ v.toNat := by
  have key : ∀ n : Fin 256, decodeByte (BitVec.ofNat 8 n.val) = .error (.illegalOpcode (BitVec.ofNat 8 n.val)) ↔
      BitVec.ofNat 8 n.val = 0x00 ∨ 0x0B ≤ n.val := by decide +kernel
  have h := key ⟨v.toNat, v.isLt⟩
  simp only [BitVec.ofNat_toNat, BitVec.setWidth_eq] at h
  rw [← h]
  refine ⟨fun ⟨e, he⟩ => ?_, fun he => ⟨_, he⟩⟩
  unfold decodeByte at he ⊢
  split at he <;> simp_all

/-! ## `STATUS.ILL` -/

/-- R73, R74: a `CMD` write of `v` is illegal. -/
def IllegalValue (v arg : Byte) : Prop := v = 0x00 ∨ 0x0B ≤ v.toNat ∨ v = 0x01 ∧ 1 < arg.toNat

/-- A command sets `ILL` exactly where it is WBIT with an illegal operand. -/
theorem exec_ill {i : Instr} {s t : State} (hr : NoReset 1456 s) (h : exec i s = .next t) :
    t.ill = true ↔ s.ill = true ∨ i = .wbit ∧ 1 < s.arg.toNat := by
  rcases exec_cases i s with ⟨op, -, hl, he⟩ | ⟨hi, ha, he⟩ | ⟨hi, he⟩ <;> cases he.symm.trans h
  · obtain ⟨_, hf⟩ := runCommand_frame (op := op) hr
    have hn : ¬ (i = .wbit ∧ 1 < s.arg.toNat) := fun ⟨hi, ha⟩ => absurd (hl hi) (Nat.not_le_of_lt ha)
    simp [hf.ill, hn]
  · simp [hi, ha]
  · simp [hi]

theorem commandWrite_ill {v : Byte} {s t : State} (hr : NoReset 1456 s) (h : commandWrite v s = .next t) :
    t.ill = true ↔ s.ill = true ∨ IllegalValue v s.arg := by
  have herr := decodeByte_error_iff v
  rcases commandWrite_cases v s with ⟨i, hd, he⟩ | ⟨hd, he⟩
  · rw [exec_ill hr (he.symm.trans h)]
    have hlegal : ¬ (v = 0x00 ∨ 0x0B ≤ v.toNat) := by
      rw [← herr]
      rintro ⟨e, hd'⟩
      cases hd.symm.trans hd'
    have hi : i = .wbit ↔ v = 0x01 := by
      rw [show (0x01 : Byte) = encodeByte .wbit from rfl, ← decodeByte_eq_ok_iff, hd, Except.ok.injEq]
    rw [hi, IllegalValue, ← or_assoc (a := v = 0x00), or_iff_right hlegal]
  · cases he.symm.trans h
    have hv : IllegalValue v s.arg := (herr.1 hd).elim .inl fun hge => .inr (.inl hge)
    simp [hv]

/-- An illegal `CMD` write stands at the port of an idle block. -/
def IllegalAsked (s : State) : Prop :=
  s.busy = false ∧ ∃ v rest, s.host = some (.write 0x0 v) :: rest ∧ IllegalValue v s.arg

theorem regWrite_ill (a : Addr) (v : Byte) (s : State) : (regWrite a v s).ill = s.ill := by
  unfold regWrite
  split <;> rfl

theorem serve_ill {r : HostReq} {s t : State} (hr : NoReset 1456 s) (h : serve r s = .next t) :
    t.ill = true ↔ s.ill = true ∨ ∃ v, r = .write 0x0 v ∧ IllegalValue v s.arg := by
  cases r with
  | read a => cases h; simp
  | write a v =>
    by_cases ha : a = 0x0
    · rw [commandWrite_ill hr ((if_pos ha).symm.trans h)]
      simp [ha]
    · cases (if_neg ha).symm.trans h
      have hne : ¬ a = 0#4 := ha
      simp [regWrite_ill, hne]

/-- R30: without a block reset `ILL` is 1 after a step exactly where it was 1 or an illegal `CMD` write was served. -/
theorem step_ill {s t : State} (hr : NoReset 1457 s) (h : step s = .next t) :
    t.ill = true ↔ s.ill = true ∨ IllegalAsked s := by
  have hr0 := noReset_zero_rstNow hr
  rcases step_cases s with ⟨hr1, -⟩ | ⟨-, hb, he⟩ | ⟨-, -, hh, he⟩ | ⟨rest, -, -, hh, he⟩ | ⟨r, rest, -, hb, hh, he⟩
  · exact absurd (hr0.symm.trans hr1) nofun
  · cases he.symm.trans h
    simp [(enginePrim_frame (passRst s)).ill, IllegalAsked, hb]
  · cases he.symm.trans h
    simp [IllegalAsked, hh]
  · cases he.symm.trans h
    simp [IllegalAsked, hh]
  · have hn : NoReset 1456 { passRst s with host := rest } := noReset_tail hr rfl
    rw [serve_ill hn (he.symm.trans h)]
    simp [IllegalAsked, hb, hh]

/-- Settles O28: the three clauses are the two directions of `step_ill`. -/
theorem illSticky : Obligations.IllSticky := by
  intro s t hr h
  have key := step_ill hr h
  refine ⟨fun hs => key.2 (.inl hs), fun v rest hb hh hv => key.2 (.inr ⟨hb, v, rest, hh, hv⟩), fun hs ht => ?_⟩
  exact (key.1 ht).resolve_left (by simp [hs])

/-! ## Commands at the port -/

/-- R52, R53: a request at an idle block's port is served, and used up. -/
theorem step_request {s : State} {r : HostReq} {rest : List (Option HostReq)} (hb : s.busy = false)
    (hr : s.rstNow = false) (hh : s.host = some r :: rest) :
    step s = serve r { s with host := rest, rst := s.rst.tail } := by
  simp [step, action, hb, hr, hostAction, hh, passRst]

/-- R31: a `CMD` write that selects a command runs it. -/
theorem serve_command {v : Byte} {i : Instr} (h : decodeByte v = .ok i) (s : State) :
    serve (.write 0x0 v) s = exec i s := by
  simp [serve, commandWrite, h]

/-- Settles O4: the request is served, and a `CMD` write served is the command it decodes to. -/
theorem stepRunsCommand : Obligations.StepRunsCommand := by
  refine ⟨fun s v i rest hb hr hh hd => (step_request hb hr hh).trans (serve_command hd _), fun s i => ?_⟩
  have hw : BitVec.ofNat 8 ((encodeByte i).toNat % 2 ^ 8) = encodeByte i := by cases i <;> rfl
  rw [State.withFetchWord, hw, step_request (rest := s.host) rfl rfl rfl]
  exact serve_command (decodeByte_encodeByte i) _

/-! ## The slot timer -/

/-- R92: the engine never leaves a timer that has run out. -/
theorem engineStep_tmr {s : State} (h : s.tmr = 0) : (engineStep s).tmr = 0 := by
  cases hr : s.rstNow with
  | true => rw [engineStep_of_rst hr]; rfl
  | false => exact (engineStep_frame hr).tmr h

theorem slotOf_launch {op : Op} (h : op ≠ .idle) (s : State) : ∃ slot, slotOf (launch op s) = some slot := by
  cases op with
  | idle => exact absurd rfl h
  | _ => exact ⟨_, rfl⟩

theorem afterSlot_tmr (slot : Slot) (s : State) : (afterSlot slot s).tmr = 0 := by cases slot <;> rfl

/-- A command to the end of its first slot. -/
theorem runCommand_firstSlot {op : Op} {s : State} {slot : Slot} (hs : slotOf (launch op s) = some slot)
    (hr : NoReset (slotLength slot) s) :
    runCommand op s = runEngine (1456 - slotLength slot) (slotNext (afterSlot slot (launch op s))) := by
  have hl : slotLength slot ≤ 8 := by cases slot <;> simp [slotLength]
  rw [runCommand, show Config.maxPrimitives = slotLength slot + (1456 - slotLength slot) by
    simp only [Config.maxPrimitives]; omega]
  exact run_slot rfl rfl hs hr

/-- R92, R107: a bus command waits in its first slot, and leaves the slot timer at 0. -/
theorem runCommand_tmr {op : Op} {s : State} (h : op ≠ .idle) (hr : NoReset 1456 s) : (runCommand op s).tmr = 0 := by
  obtain ⟨slot, hs⟩ := slotOf_launch h s
  rw [runCommand_firstSlot hs (noReset_mono hr (by cases slot <;> simp [slotLength]))]
  refine runEngine_keeps (Inv := fun u => u.tmr = 0) (fun _ _ => engineStep_tmr) _ ?_
  exact (slotNext_frame _).tmr (afterSlot_tmr slot _)

/-- Settles O44: a command's frame, and the slot timer it has waited on. -/
theorem workingRegisters : Obligations.WorkingRegisters := by
  intro i op s hop hl hr
  obtain ⟨_, hf⟩ := runCommand_frame (op := op) hr
  refine ⟨runCommand op s, exec_legal hop hl, runCommand_tmr (busOp_ne_idle hop) hr, fun hi => hf.search ?_,
    fun hi => hf.sh ?_⟩
  · rintro rfl
    cases i <;> cases hop
    exact hi rfl
  · rcases hi with rfl | rfl | rfl <;> cases hop <;> rfl

/-! ## What each command leaves and adds -/

/-- A command of one slot (R109, R110, R131). -/
theorem runCommand_slot {op : Op} {s : State} {slot : Slot} (hs : slotOf (launch op s) = some slot)
    (hr : NoReset (slotLength slot) s) (hend : (slotNext (afterSlot slot (launch op s))).busy = false) :
    runCommand op s = slotNext (afterSlot slot (launch op s)) := by
  rw [runCommand_firstSlot hs hr, runEngine_idle hend]

/-- A command that sends a first byte, to the end of that byte (R120). -/
theorem runCommand_send {op : Op} {s : State} {next : State → State} (hs : Sends next (launch op s))
    (hr : NoReset 48 s) :
    runCommand op s = runEngine 1408 (next (sentByte (launch op s))) :=
  run_send (n := 1408) hs rfl rfl rfl hr

/-- RBYTE (R123). -/
theorem runCommand_rbyte {s : State} (hr : NoReset 64 s) :
    runCommand .rbyte s = endCommand { receivedByte (launch .rbyte s) with data := answerByte s.envAt } := by
  have h := run_recv (n := 1392) (receives_rbyte (s := launch .rbyte s) rfl) rfl rfl rfl rfl hr
  exact h.trans (runEngine_idle rfl)

/-- RDROM (R135). -/
theorem runCommand_rdrom {s : State} (hr : NoReset 560 s) :
    runCommand .rdrom s = endCommand (gotRom 8 { sentByte (launch .rdrom s) with stg := .s1, i := 7, sh := 0x00 }) := by
  rw [runCommand_send (sends_rdrom rfl rfl) (noReset_mono hr (by omega))]
  exact run_recvRom (n := 896) 7 _ rfl rfl rfl rfl rfl rfl rfl (noReset_drop (m := 48) (n := 512) hr rfl)

/-- MATCH (R136). -/
theorem runCommand_matchRom {s : State} (hr : NoReset 432 s) :
    runCommand .matchRom s =
      endCommand (sentRom 8 { sentByte (launch .matchRom s) with stg := .s1, i := 7, sh := s.rom[(7 : Fin 8)] }) := by
  rw [runCommand_send (sends_match rfl rfl) (noReset_mono hr (by omega))]
  exact run_sendRom (n := 1024) 7 _ rfl rfl rfl rfl rfl rfl rfl (noReset_drop (m := 48) (n := 384) hr rfl)

/-- The events a legal command adds to the trace, as a function of the state before it (R105 to R151). -/
def commandEvents : Instr → State → List Event
  | .wbit, s => writeEvents s.params.slots (argBit s)
  | .rbit, s => readEvents s.params.slots (s.envAt 0)
  | .wbyte, s => byteEvents s.params.slots s.arg
  | .rbyte, s => readsEvents s.params.slots s.envAt 8
  | .reset, s => resetEvents s.params.slots (s.envAt 0)
  | .skip, s => byteEvents s.params.slots s.params.cmdSkipRom
  | .rdrom, s => byteEvents s.params.slots s.params.cmdReadRom ++ readsEvents s.params.slots s.envAt 64
  | .matchRom, s => byteEvents s.params.slots s.params.cmdMatchRom ++ romEvents s.params.slots s.rom
  | .search, s => byteEvents s.params.slots s.params.cmdSearchRom ++ s.pass.events
  | .crc8, _ => []

/-- The host-visible registers a legal command leaves, as a function of the state before it. -/
def commandRegs : Instr → State → HostRegs
  | .wbit, s | .wbyte, s | .skip, s | .matchRom, s => s.regs
  | .rbit, s => { s.regs with data := zext8 (s.envAt 0) }
  | .rbyte, s => { s.regs with data := answerByte s.envAt }
  | .reset, s => { s.regs with pres := !s.envAt 0 }
  | .rdrom, s => { s.regs with rom := receivedRom s.envAt 8 0 s.rom }
  | .search, s =>
    { s.regs with rom := s.pass.rom, newDisc := s.pass.newDisc.getD 0xFF, nf := s.pass.newDisc.isNone }
  | .crc8, s => { s.regs with crc := crc8 s.arg s.crc }

/-- From `s` to `t` stand the result and the events of the command `i`. -/
structure Observed (i : Instr) (s t : State) : Prop where
  regs : t.regs = commandRegs i s
  log : t.log = (commandEvents i s).reverse ++ s.log

theorem Observed.trace {i : Instr} {s t : State} (h : Observed i s t) : t.trace = s.trace ++ commandEvents i s := by
  simp [State.trace, h.log]

/-- What a bus command is observed to do where no block reset cuts it. -/
theorem runCommand_observed {i : Instr} {op : Op} {s : State} (hop : busOp i = some op) (hr : NoReset 1456 s) :
    Observed i s (runCommand op s) := by
  cases i <;> cases hop
  case wbit =>
    rw [runCommand_slot (slot := .write (argBit s)) rfl (noReset_mono hr (by simp [slotLength])) rfl]
    exact ⟨rfl, rfl⟩
  case rbit =>
    rw [runCommand_slot (slot := .read) rfl (noReset_mono hr (by simp [slotLength])) rfl]
    exact ⟨rfl, rfl⟩
  case wbyte =>
    rw [runCommand_send (sends_wbyte rfl) (noReset_mono hr (by omega)), runEngine_idle rfl]
    exact ⟨rfl, rfl⟩
  case rbyte =>
    rw [runCommand_rbyte (noReset_mono hr (by omega))]
    exact ⟨rfl, rfl⟩
  case reset =>
    have he : slotNext (afterSlot .reset (launch .reset s)) = finishPresence (afterSlot .reset (launch .reset s)) := rfl
    have hp : (afterSlot .reset (launch .reset s)).smp = s.envAt 0 := rfl
    rw [runCommand_slot (slot := .reset) rfl (noReset_mono hr (by simp [slotLength]))
      (by rw [he, finishPresence]; split <;> rfl), he, finishPresence, hp]
    cases hv : s.envAt 0 <;> exact ⟨by simp only [commandRegs, hv]; rfl, rfl⟩
  case skip =>
    rw [runCommand_send (sends_skip rfl) (noReset_mono hr (by omega)), runEngine_idle rfl]
    exact ⟨rfl, rfl⟩
  case rdrom =>
    rw [runCommand_rdrom (noReset_mono hr (by omega))]
    have henv : ∀ u : State, u.answers = s.answers → u.samples = s.samples → u.envAt = s.envAt :=
      fun u ha hu => funext fun n => by simp only [State.envAt, ha, hu]
    constructor
    · simp [State.regs, gotRom, sentByte, commandRegs, henv]
    · simp [gotRom, sentByte, commandEvents, firstShift, henv]
  case matchRom =>
    rw [runCommand_matchRom (noReset_mono hr (by omega))]
    constructor
    · simp [State.regs, sentRom, sentByte, commandRegs]
    · simp [sentRom, sentByte, commandEvents, firstShift, romEvents_bytes]
  case search =>
    have hl : s.pass.events.length ≤ 1408 := refPass_length_le _ _ _ 64 _ _ _ _
    obtain ⟨hregs, hlog, -⟩ := runCommand_search (s := s) (noReset_mono hr (by omega))
    refine ⟨hregs, ?_⟩
    simp [hlog, commandEvents, searchStart, sentByte, firstShift]

/-- What a legal command is observed to do (R46). -/
theorem exec_observed {i : Instr} {s t : State} (hl : Legal i s) (hr : NoReset 1456 s) (h : exec i s = .next t) :
    Observed i s t := by
  rcases exec_cases i s with ⟨op, hop, -, he⟩ | ⟨hi, ha, -⟩ | ⟨rfl, he⟩
  · cases he.symm.trans h
    exact runCommand_observed hop hr
  · exact absurd (hl hi) (Nat.not_le_of_lt ha)
  · cases he.symm.trans h
    exact ⟨rfl, rfl⟩

/-! ## Write sets and operands -/

/-- R52: a host read depends only on the register at its address. -/
theorem regRead_congr {a : Addr} {s t : State} (harg : a = 0x1 → t.arg = s.arg) (hdata : a = 0x2 → t.data = s.data)
    (hflags : a = 0x3 → t.ill = s.ill ∧ t.nf = s.nf ∧ t.pres = s.pres) (hcrc : a = 0x4 → t.crc = s.crc)
    (hlast : a = 0x5 → t.lastDisc = s.lastDisc) (hnew : a = 0x6 → t.newDisc = s.newDisc)
    (hrom : 8 ≤ a.toNat → t.rom = s.rom) : regRead a t = regRead a s := by
  have hval : ∀ b : Addr, a.toNat = b.toNat → a = b := fun _ => BitVec.eq_of_toNat_eq
  unfold regRead
  split
  case h_1 => rfl
  case h_2 h => exact harg (hval 0x1 h)
  case h_3 h => exact hdata (hval 0x2 h)
  case h_4 h =>
    obtain ⟨hill, hnf, hpres⟩ := hflags (hval 0x3 h)
    simp only [statusByte, hill, hnf, hpres]
  case h_5 h => exact hcrc (hval 0x4 h)
  case h_6 h => exact hlast (hval 0x5 h)
  case h_7 h => exact hnew (hval 0x6 h)
  case h_8 => rfl
  case h_9 h0 h1 h2 h3 h4 h5 h6 h7 =>
    simp only [imp_false] at h0 h1 h2 h3 h4 h5 h6 h7
    have h8 : 8 ≤ a.toNat := by omega
    rw [hrom h8]

/-- R46: the ROM buffer is in a write set as a whole. -/
theorem mem_writeSet_rom (i : Instr) : ∀ a : Addr, 8 ≤ a.toNat → (a ∈ writeSet i ↔ 0x8 ∈ writeSet i) := by
  cases i <;> decide

/-- R46: no command writes `ARG` or `LASTDISC`. -/
theorem not_mem_writeSet (i : Instr) : 0x1 ∉ writeSet i ∧ 0x5 ∉ writeSet i := by cases i <;> decide

/-- R46, column "writes": what a command leaves of each register outside its write set. -/
theorem commandRegs_frame (i : Instr) (s : State) :
    (commandRegs i s).arg = s.arg ∧ (commandRegs i s).lastDisc = s.lastDisc ∧ (commandRegs i s).ill = s.ill ∧
    (0x2 ∉ writeSet i → (commandRegs i s).data = s.data) ∧ (0x4 ∉ writeSet i → (commandRegs i s).crc = s.crc) ∧
    (0x6 ∉ writeSet i → (commandRegs i s).newDisc = s.newDisc) ∧
    (0x8 ∉ writeSet i → (commandRegs i s).rom = s.rom) ∧ (i ≠ .reset → (commandRegs i s).pres = s.pres) ∧
    (i ≠ .search → (commandRegs i s).nf = s.nf) := by
  cases i <;> simp [commandRegs, writeSet, State.regs]

theorem mem_writeSet_status (i : Instr) : 0x3 ∈ writeSet i ↔ i = .reset ∨ i = .search := by cases i <;> decide

/-- Settles O29: the frame of the registers, read address by address. -/
theorem writeSets : Obligations.WriteSets := by
  intro i s t hl hr h
  obtain ⟨harg, hlast, hill, hdata, hcrc, hnew, hrom, hpres, hnf⟩ := (exec_observed hl hr h).regs ▸ commandRegs_frame i s
  refine ⟨fun a ha => regRead_congr (fun _ => harg) ?_ ?_ ?_ (fun _ => hlast) ?_ ?_, hpres, hnf, hill⟩
  · rintro rfl; exact hdata ha
  · rintro rfl
    rw [mem_writeSet_status, not_or] at ha
    exact ⟨hill, hnf ha.2, hpres ha.1⟩
  · rintro rfl; exact hcrc ha
  · rintro rfl; exact hnew ha
  · exact fun h8 => hrom ((mem_writeSet_rom i a h8).not.1 ha)

theorem SameLine.envAt {s u : State} (h : SameLine s u) : s.envAt = u.envAt := funext h.1

/-- R151: a pass depends only on `LASTDISC`, the ROM buffer and the line. -/
theorem pass_congr {s u : State} (hl : SameLine s u) (hlast : s.lastDisc = u.lastDisc) (hrom : s.rom = u.rom) :
    s.pass = u.pass := by
  simp only [State.pass, hl.envAt, hl.2, hlast, hrom]

/-- R135: eight bytes received leave nothing of the buffer before. -/
theorem receivedRom_eight (f : Nat → Bool) (rom rom' : Vector Byte 8) :
    receivedRom f 8 0 rom = receivedRom f 8 0 rom' :=
  rom_ext fun i b => by
    rw [receivedRom_bit f 8 0 rom i b (Nat.le_refl 8), receivedRom_bit f 8 0 rom' i b (Nat.le_refl 8), if_pos i.isLt,
      if_pos i.isLt]

/-- R46, column "reads": a command's events depend only on its operands and the line. -/
theorem commandEvents_congr {i : Instr} {s u : State} (ho : SameOperands i s u) (hl : SameLine s u) :
    commandEvents i s = commandEvents i u := by
  have henv := hl.envAt
  have hparams := hl.2
  cases i with
  | wbit | wbyte =>
    have harg : s.arg = u.arg := ho
    simp only [commandEvents, argBit, hparams, harg]
  | rbit | rbyte | reset | skip | rdrom | crc8 => simp only [commandEvents, hparams, henv]
  | matchRom =>
    have hrom : s.rom = u.rom := ho
    simp only [commandEvents, hparams, hrom]
  | search =>
    obtain ⟨hlast, hrom⟩ := ho
    simp only [commandEvents, hparams, pass_congr hl hlast hrom]

/-- R46: a command's results, the registers it writes, depend only on its operands and the line. -/
theorem commandRegs_congr {i : Instr} {s u : State} (ho : SameOperands i s u) (hl : SameLine s u) :
    (0x2 ∈ writeSet i → (commandRegs i s).data = (commandRegs i u).data) ∧
    (0x4 ∈ writeSet i → (commandRegs i s).crc = (commandRegs i u).crc) ∧
    (0x6 ∈ writeSet i → (commandRegs i s).newDisc = (commandRegs i u).newDisc) ∧
    (0x8 ∈ writeSet i → (commandRegs i s).rom = (commandRegs i u).rom) ∧
    (i = .reset → (commandRegs i s).pres = (commandRegs i u).pres) ∧
    (i = .search → (commandRegs i s).nf = (commandRegs i u).nf) := by
  have henv := hl.envAt
  cases i with
  | wbit | wbyte | skip | matchRom => simp [writeSet]
  | rbit | rbyte | reset => simp [writeSet, commandRegs, henv]
  | rdrom => simp [writeSet, commandRegs, henv, receivedRom_eight u.envAt s.rom u.rom]
  | search =>
    obtain ⟨hlast, hrom⟩ := ho
    simp [writeSet, commandRegs, pass_congr hl hlast hrom]
  | crc8 =>
    obtain ⟨harg, hcrc⟩ := ho
    simp [writeSet, commandRegs, harg, hcrc]

/-- Settles O30: what each run is observed to do is a function of the operands and the line. -/
theorem readSets : Obligations.ReadSets := by
  intro i s u t v ho hline hl hrs hru ht hv
  have hlu : Legal i u := by
    rintro rfl
    exact (show s.arg = u.arg from ho) ▸ hl rfl
  have hs := exec_observed hl hrs ht
  have hu := exec_observed hlu hru hv
  obtain ⟨hdata, hcrc, hnew, hrom, hpres, hnf⟩ := hs.regs ▸ hu.regs ▸ commandRegs_congr ho hline
  refine ⟨⟨_, hs.trace, commandEvents_congr ho hline ▸ hu.trace⟩, fun a ha h3 => ?_, hpres, hnf⟩
  refine regRead_congr ?_ ?_ (fun h => absurd h h3) ?_ ?_ ?_ (fun h8 => hrom ((mem_writeSet_rom i a h8).1 ha))
  · rintro rfl; exact absurd ha (not_mem_writeSet i).1
  · rintro rfl; exact hdata ha
  · rintro rfl; exact hcrc ha
  · rintro rfl; exact absurd ha (not_mem_writeSet i).2
  · rintro rfl; exact hnew ha

end Sys2Proof.Machine
end

section
/-!
SUPPORT. The host port and the line (20_memory.md): what a request served does at each address, that the running engine
neither sees nor touches the host's side of the port, the level of the line, and the results on a line that reads 1.
-/

namespace Sys2Proof.Machine

/-! ## Host reads and writes -/

/-- R51, R52: the addresses from 0x8 on read the ROM buffer. -/
theorem regRead_rom {a : Addr} {i : Fin 8} (h : a.toNat = 8 + i.val) (s : State) : regRead a s = s.rom[i] := by
  have hi : Fin.ofNat 8 (8 + i.val - 8) = i := by simp
  unfold regRead
  rw [h]
  split
  case h_9 => simp only [hi]
  all_goals omega

/-- R27, R52: `STATUS` in numbers. -/
theorem statusByte_toNat (s : State) : (statusByte s).toNat = s.pres.toNat + 2 * s.nf.toNat + 4 * s.ill.toNat := by
  have key : ∀ ill nf pres : Bool,
      ((if ill then 0x04#8 else 0x00#8) ||| (if nf then 0x02#8 else 0x00#8) |||
        (if pres then 0x01#8 else 0x00#8)).toNat = pres.toNat + 2 * nf.toNat + 4 * ill.toNat := by decide
  exact key s.ill s.nf s.pres

/-- Settles O6: the request served is `regRead`, whose value at each address is the clause. -/
theorem hostReads : Obligations.HostReads := by
  intro s a rest hb hr hh
  refine ⟨regRead a s, step_request hb hr hh, ?_, ?_, ?_, ?_, ?_, ?_, ?_, fun i hi => regRead_rom hi s⟩
  · rintro (rfl | rfl) <;> rfl
  · rintro rfl; rfl
  · rintro rfl; rfl
  · rintro rfl; exact statusByte_toNat s
  · rintro rfl; rfl
  · rintro rfl; rfl
  · rintro rfl; rfl

/-- R51, R53: the addresses from 0x8 on write the ROM buffer. -/
theorem regWrite_rom {a : Addr} {i : Fin 8} (h : a.toNat = 8 + i.val) (v : Byte) (s : State) :
    regWrite a v s = { s with rom := setRomByte s.rom i v } := by
  have hi : Fin.ofNat 8 (8 + i.val - 8) = i := by simp
  unfold regWrite
  rw [h]
  split
  case h_9 => rw [hi]
  all_goals omega

/-- R73: a `CMD` write that selects no command sets `ILL`. -/
theorem serve_illegal {v : Byte} (h : ∀ i, decodeByte v ≠ .ok i) (s : State) :
    serve (.write 0x0 v) s = .next { s with ill := true } := by
  rcases commandWrite_cases v s with ⟨i, hd, -⟩ | ⟨-, he⟩
  · exact absurd hd (h i)
  · exact he

/-- Settles O7: the request is served, a `CMD` write by decoding its value and any other by `regWrite`. -/
theorem hostWrites : Obligations.HostWrites := by
  intro s a v rest hb hr hh
  have hstep := step_request hb hr hh
  refine ⟨?_, ?_, fun ha => ⟨_, hstep.trans (if_neg ha), ?_, ?_, ?_, ?_, fun i hi => ?_⟩⟩
  · rintro rfl i hd; exact hstep.trans (serve_command hd _)
  · rintro rfl hd; exact hstep.trans (serve_illegal hd _)
  · rintro rfl; rfl
  · rintro rfl; rfl
  · rintro rfl; rfl
  · rintro (rfl | rfl | rfl | rfl) <;> rfl
  · rw [regWrite_rom hi]
    exact ⟨rfl, fun j => romByte_setRomByte s.rom i j v⟩

/-! ## The port under a running engine -/

/-- `s` with other requests waiting and another value last read: the host's side of the port (R47, R55). -/
def State.setPort (host : List (Option HostReq)) (d : Byte) (s : State) : State := { s with host := host, hRdata := d }

/-- `f` neither sees nor touches the host's side of the port. -/
def IgnoresPort (f : State → State) : Prop := ∀ host d s, f (s.setPort host d) = (f s).setPort host d

section
variable (host : List (Option HostReq)) (d : Byte) (s : State)

@[simp] theorem setPort_op : (s.setPort host d).op = s.op := rfl
@[simp] theorem setPort_stg : (s.setPort host d).stg = s.stg := rfl
@[simp] theorem setPort_ph : (s.setPort host d).ph = s.ph := rfl
@[simp] theorem setPort_params : (s.setPort host d).params = s.params := rfl
@[simp] theorem slotOf_setPort : slotOf (s.setPort host d) = slotOf s := rfl

end

theorem passRst_ignoresPort : IgnoresPort passRst := fun _ _ _ => rfl

theorem doPrim_ignoresPort (q : Prim) : IgnoresPort (doPrim q) := by
  intro host d s
  cases q <;> rfl

theorem endCommand_ignoresPort : IgnoresPort endCommand := fun _ _ _ => rfl

theorem IgnoresPort.comp {f g : State → State} (hf : IgnoresPort f) (hg : IgnoresPort g) :
    IgnoresPort (fun s => f (g s)) :=
  fun host d s => (congrArg f (hg host d s)).trans (hf host d (g s))

/-- A choice the port does not decide ignores the port where both its branches do. -/
theorem IgnoresPort.ite {c : State → Prop} [DecidablePred c] {f g : State → State}
    (hc : ∀ host d s, c (s.setPort host d) = c s) (hf : IgnoresPort f) (hg : IgnoresPort g) :
    IgnoresPort (fun s => if c s then f s else g s) := by
  intro host d s
  simp only [hc]
  split
  · exact hf host d s
  · exact hg host d s

theorem sendNext_ignoresPort {next : State → State} (h : IgnoresPort next) : IgnoresPort (sendNext next) :=
  IgnoresPort.ite (c := fun s => s.k = 7) (fun _ _ _ => rfl) (h.comp fun _ _ _ => rfl) fun _ _ _ => rfl

theorem recvNext_ignoresPort {next : State → State} (h : IgnoresPort next) : IgnoresPort (recvNext next) :=
  IgnoresPort.ite (c := fun s => s.k = 7) (fun _ _ _ => rfl) (h.comp fun _ _ _ => rfl) fun _ _ _ => rfl

theorem finishPresence_ignoresPort : IgnoresPort finishPresence :=
  IgnoresPort.ite (c := fun s => s.smp = true) (fun _ _ _ => rfl) (fun _ _ _ => rfl) fun _ _ _ => rfl

theorem rdromNext_ignoresPort : IgnoresPort rdromNext := by
  intro host d s
  simp only [rdromNext, setPort_stg]
  split
  · exact sendNext_ignoresPort (fun _ _ _ => rfl) host d s
  all_goals
    refine recvNext_ignoresPort ?_ host d s
    exact IgnoresPort.ite (c := fun s => s.i = 0) (fun _ _ _ => rfl) (fun _ _ _ => rfl) fun _ _ _ => rfl

theorem matchNext_ignoresPort : IgnoresPort matchNext := by
  intro host d s
  simp only [matchNext, setPort_stg]
  split
  · exact sendNext_ignoresPort (fun _ _ _ => rfl) host d s
  all_goals
    refine sendNext_ignoresPort ?_ host d s
    exact IgnoresPort.ite (c := fun s => s.i = 0) (fun _ _ _ => rfl) (fun _ _ _ => rfl) fun _ _ _ => rfl

theorem searchDecide_ignoresPort : IgnoresPort searchDecide := by
  intro host d s
  unfold searchDecide
  dsimp only [State.setPort]
  split <;> rfl

theorem searchNext_ignoresPort : IgnoresPort searchNext := by
  have hposition : IgnoresPort fun u =>
      if u.p.toNat < Config.romBits then { u with p := u.p + 1, stg := .s1 } else finishSearch u :=
    IgnoresPort.ite (c := fun u => u.p.toNat < Config.romBits) (fun _ _ _ => rfl) (fun _ _ _ => rfl) fun _ _ _ => rfl
  intro host d s
  simp only [searchNext, setPort_stg]
  split
  · exact sendNext_ignoresPort (fun _ _ _ => rfl) host d s
  · rfl
  · exact searchDecide_ignoresPort host d { s with b2 := s.smp }
  · exact hposition host d s

theorem slotNext_ignoresPort : IgnoresPort slotNext := by
  intro host d s
  simp only [slotNext, setPort_op]
  split
  · rfl
  · rfl
  · rfl
  · exact sendNext_ignoresPort endCommand_ignoresPort host d s
  · exact recvNext_ignoresPort (fun _ _ _ => rfl) host d s
  · exact finishPresence_ignoresPort host d s
  · exact sendNext_ignoresPort endCommand_ignoresPort host d s
  · exact rdromNext_ignoresPort host d s
  · exact matchNext_ignoresPort host d s
  · exact searchNext_ignoresPort host d s

/-- The primitive at which a slot stands, executed. -/
def primAt (slot : Slot) (s : State) : State :=
  match (slot.prims s.params.slots)[s.ph.val]? with
  | some q => doPrim q s
  | none => s

theorem primAt_ignoresPort (slot : Slot) : IgnoresPort (primAt slot) := by
  intro host d s
  simp only [primAt, setPort_params, setPort_ph]
  split
  next q _ => exact doPrim_ignoresPort q host d s
  next => rfl

/-- R36: a step inside a slot, which ends with what follows the slot where the primitive was its last. -/
theorem enginePrim_of_slot {s : State} {slot : Slot} (hs : slotOf s = some slot) :
    enginePrim s =
      if s.ph.val + 1 < slotLength slot then { primAt slot s with ph := s.ph + 1 }
      else slotNext { primAt slot s with ph := 0 } := by
  simp only [enginePrim, hs, prims_length]
  rfl

theorem enginePrim_ignoresPort : IgnoresPort enginePrim := by
  intro host d s
  cases hs : slotOf s with
  | none =>
    simp only [enginePrim, slotOf_setPort, hs]
    exact slotNext_ignoresPort host d s
  | some slot =>
    have hinside : IgnoresPort fun u => { primAt slot u with ph := u.ph + 1 } := fun host d u =>
      congrArg (fun v : State => { v with ph := u.ph + 1 }) (primAt_ignoresPort slot host d u)
    have hlast : IgnoresPort fun u => slotNext { primAt slot u with ph := 0 } :=
      (slotNext_ignoresPort.comp (g := fun u => { u with ph := 0 }) fun _ _ _ => rfl).comp (primAt_ignoresPort slot)
    rw [enginePrim_of_slot hs, enginePrim_of_slot (s := s.setPort host d) hs]
    exact IgnoresPort.ite (c := fun u => u.ph.val + 1 < slotLength slot) (fun _ _ _ => rfl) hinside hlast host d s

/-- R55: without a block reset the engine's step ignores the port. -/
theorem engineStep_setPort {s : State} (h : s.rstNow = false) (host : List (Option HostReq)) (d : Byte) :
    engineStep (s.setPort host d) = (engineStep s).setPort host d := by
  rw [engineStep_of_not_rst h, engineStep_of_not_rst (s := s.setPort host d) h, passRst_ignoresPort,
    enginePrim_ignoresPort]

/-- R55: without a block reset the engine's step leaves the host's side of the port as it is. -/
theorem engineStep_port {s : State} (h : s.rstNow = false) :
    (engineStep s).host = s.host ∧ (engineStep s).hRdata = s.hRdata := by
  have hs : engineStep s = (engineStep s).setPort s.host s.hRdata := engineStep_setPort h s.host s.hRdata
  rw [hs]
  exact ⟨rfl, rfl⟩

/-- Settles O8: the step is the engine's, which ignores the port. -/
theorem hostStall : Obligations.HostStall := by
  intro s hb hr
  obtain ⟨hhost, hdata⟩ := engineStep_port hr
  refine ⟨by rw [State.hReady, hb]; rfl, engineStep s, step_busy hb, hhost, hdata, fun host => ?_⟩
  have hport : (engineStep s).setPort host s.hRdata = { engineStep s with host := host } := by rw [← hdata]; rfl
  have hstep : step (s.setPort host s.hRdata) = .next (engineStep (s.setPort host s.hRdata)) := step_busy hb
  rwa [engineStep_setPort hr, hport] at hstep

/-! ## The line -/

/-- R61: a listed answer is the environment's level. -/
theorem envAt_zero_cons {s : State} {v : Bool} {l : List Bool} (h : s.answers = v :: l) : s.envAt 0 = v := by
  simp [State.envAt, h]

/-- R61: with no answer listed the level is the free value. -/
theorem envAt_zero_nil {s : State} (h : s.answers = []) : s.envAt 0 = Config.envLevel s.samples := by
  simp [State.envAt, h]

/-- Settles O11: the wired-AND with the driver on and off, and the level with and without an answer listed. -/
theorem lineLevel : Obligations.LineLevel := by
  refine fun s => ⟨fun hlow => ?_, fun hreleased => ?_, fun _ _ => envAt_zero_cons, envAt_zero_nil⟩
  · simp [State.line, hlow]
  · simp [State.line, hreleased]

/-! ## The results of the receiving commands -/

/-- R110: RBIT receives the next answer. -/
theorem runCommand_rbit_data {s : State} (hr : NoReset 8 s) : (runCommand .rbit s).data = zext8 (s.envAt 0) := by
  rw [runCommand_slot (slot := .read) rfl hr rfl]
  rfl

/-- R131: RESET detects presence where the next answer is 0. -/
theorem runCommand_reset_pres {s : State} (hr : NoReset 8 s) : (runCommand .reset s).pres = !s.envAt 0 := by
  have hnext : slotNext (afterSlot .reset (launch .reset s)) = finishPresence (afterSlot .reset (launch .reset s)) :=
    rfl
  have hsmp : (afterSlot .reset (launch .reset s)).smp = s.envAt 0 := rfl
  have hend : (slotNext (afterSlot .reset (launch .reset s))).busy = false := by
    rw [hnext, finishPresence]
    split <;> rfl
  rw [runCommand_slot (slot := .reset) rfl hr hend, hnext, finishPresence, hsmp]
  cases s.envAt 0 <;> rfl

/-- R135: RDROM receives the buffer from the next 64 answers. -/
theorem runCommand_rdrom_rom {s : State} (hr : NoReset 560 s) :
    (runCommand .rdrom s).rom = receivedRom s.envAt 8 0 s.rom := by
  rw [runCommand_rdrom hr]
  rfl

/-- A byte whose bits are all 1. -/
theorem eq_ff_of_getLsbD {x : Byte} (h : ∀ b, b < 8 → x.getLsbD b = true) : x = 0xFF :=
  BitVec.eq_of_getLsbD_eq fun b hb => by
    rw [h b hb, show (0xFF : Byte) = BitVec.allOnes 8 from rfl, BitVec.getLsbD_allOnes, decide_eq_true hb]

/-- R121: eight answers of 1 are the byte 0xFF. -/
theorem answerByte_ones {f : Nat → Bool} (h : ∀ j, j < 8 → f j = true) : answerByte f = 0xFF :=
  eq_ff_of_getLsbD fun j hj => (answerByte_bit f j hj).trans (h j hj)

/-- R135: 64 answers of 1 are eight bytes 0xFF. -/
theorem receivedRom_ones {f : Nat → Bool} (h : ∀ n, n < 64 → f n = true) (rom : Vector Byte 8) (i : Fin 8) :
    (receivedRom f 8 0 rom)[i] = 0xFF := by
  refine eq_ff_of_getLsbD fun b hb => ?_
  have hbit := receivedRom_bit f 8 0 rom i ⟨b, hb⟩ (Nat.le_refl 8)
  rw [if_pos i.isLt, h _ (by simp only; omega)] at hbit
  exact hbit

/-- Settles O43: each command's result in the answers, all of them 1. -/
theorem emptyLine : Obligations.EmptyLine := by
  intro s h1 hr
  have hr8 : NoReset 8 s := noReset_mono hr (by omega)
  refine ⟨⟨_, rfl, ?_⟩, ⟨_, rfl, ?_⟩, ⟨_, rfl, ?_⟩, ⟨_, rfl, fun i => ?_⟩⟩
  · rw [runCommand_rbit_data hr8, h1 0 (by omega)]; rfl
  · rw [runCommand_rbyte (noReset_mono hr (by omega))]
    exact answerByte_ones fun j hj => h1 j (by omega)
  · rw [runCommand_reset_pres hr8, h1 0 (by omega)]; rfl
  · simp only [runCommand_rdrom_rom hr]
    exact receivedRom_ones h1 s.rom i

/-! ## The map from wire positions to the ROM buffer -/

/-- Settles O40: the closed form is `loc` unfolded, with DESC by the eight bytes; `loc_injective` says the rest. -/
theorem locMap : Obligations.LocMap := by
  have hrev : ∀ p : Fin 64, 7 - Fin.ofNat 8 (p.val / 8) = Fin.ofNat 8 (7 - p.val / 8) := by
    intro p
    apply Fin.ext
    simp only [Fin.ofNat, Fin.sub_def]
    omega
  refine ⟨fun p => ⟨Prod.ext (hrev p) rfl, rfl⟩, fun o p q h => ?_, rfl, rfl⟩
  have := loc_injective o (p.val + 1) (q.val + 1) (by omega) (by omega) h
  omega

end Sys2Proof.Machine
end

section
/-!
SUPPORT. The encoding of commands and of host programs (30_encoding.md): a command byte and a statement's transaction are
read back, only WBIT has an illegal operand, and a host's statements performed one after another at an idle block.
-/

namespace Sys2Proof.Machine

/-! ## Command bytes -/

/-- Settles O1: each opcode is its command's encoding, and no other byte decodes to the command. (The name `opcodeMap`
is the table's.) -/
theorem decodeByte_opcodeMap : Obligations.OpcodeMap :=
  ⟨decodeByte_encodeByte .wbit, decodeByte_encodeByte .rbit, decodeByte_encodeByte .wbyte, decodeByte_encodeByte .rbyte,
    decodeByte_encodeByte .reset, decodeByte_encodeByte .skip, decodeByte_encodeByte .rdrom,
    decodeByte_encodeByte .matchRom, decodeByte_encodeByte .search, decodeByte_encodeByte .crc8,
    fun _ _ => decodeByte_eq_ok_iff⟩

/-- R70: a command is read back, whatever follows it. -/
theorem decode_encode_append (i : Instr) (rest : List Byte) : decode (encode i ++ rest) = .ok (i, rest) := by
  simp [encode, decode, decodeByte_encodeByte]

/-- A stream is read one command at a time. -/
theorem decodeAll_encode_append {n : Nat} {i : Instr} {is : List Instr} {rest : List Byte}
    (h : decodeAll n rest = .ok is) : decodeAll (n + 1) (encode i ++ rest) = .ok (i :: is) := by
  have hd : decode (encodeByte i :: rest) = .ok (i, rest) := decode_encode_append i rest
  simp [encode, decodeAll, hd, h]

/-- Settles O2, by induction on the stream. -/
theorem commandStreamRoundTrip : Obligations.CommandStreamRoundTrip := by
  refine ⟨fun i rest _ => decode_encode_append i rest, fun is => ?_⟩
  induction is with
  | nil => rfl
  | cons i is ih => exact decodeAll_encode_append ih

/-- Settles O5: the request is served, and its value selects no command. -/
theorem illegalOpcodes : Obligations.IllegalOpcodes := by
  intro s v rest hv hb hr hh
  obtain ⟨e, he⟩ := (decodeByte_error_iff v).2 hv
  have hnone : ∀ i, decodeByte v ≠ .ok i := fun i hi => by cases he.symm.trans hi
  exact (step_request hb hr hh).trans (serve_illegal hnone _)

/-! ## Illegal operands -/

/-- R30, R40: a step of the engine never sets `ILL`, and a block reset clears it. -/
theorem engineStep_ill {s : State} (h : (engineStep s).ill = true) : s.ill = true := by
  cases hr : s.rstNow with
  | true => rw [engineStep_of_rst hr] at h; cases h
  | false => rwa [(engineStep_frame hr).ill] at h

/-- R74: a bus command that runs does not set `ILL`, cut by a block reset or not. -/
theorem runCommand_ill {op : Op} {s : State} : (runCommand op s).ill = true → s.ill = true :=
  runEngine_keeps (Inv := fun u => u.ill = true → s.ill = true) (fun _ _ hu h => hu (engineStep_ill h)) _
    (s := launch op s) id

/-- Settles O14: WBIT's operand check fails, and a command other than WBIT is a run of the engine or CRC8. -/
theorem wbitIllegal : Obligations.WbitIllegal := by
  refine ⟨fun s h => exec_wbit_illegal (beq_eq_false_iff_ne.2 h), fun i s hi => ?_⟩
  rcases exec_cases i s with ⟨op, -, -, he⟩ | ⟨hw, -, -⟩ | ⟨-, he⟩
  · exact ⟨_, he, runCommand_ill⟩
  · exact absurd hw hi
  · exact ⟨_, he, id⟩

/-! ## Transactions -/

/-- R51: the register at a register's address is that register. -/
theorem ofAddr_addr (r : Reg) : Reg.ofAddr r.addr = r := by
  have hrom : ∀ i : Fin 8, Reg.ofAddr (Reg.rom i).addr = .rom i := by decide
  cases r with
  | rom i => exact hrom i
  | _ => rfl

/-- R51: only `CMD` stands at address 0. -/
theorem addr_ne_zero {r : Reg} (h : r ≠ .cmd) : r.addr ≠ 0x0 := fun h0 =>
  h (by rw [← ofAddr_addr r, h0]; rfl)

/-- R51: `ROM[i]` stands at `0x8 + i`. -/
theorem addr_rom_toNat : ∀ i : Fin 8, (Reg.rom i).addr.toNat = 8 + i.val := by decide

/-- R81: a register write is read back, unless it is a `CMD` write that has a mnemonic. -/
theorem decodeStmt_write {r : Reg} {v : Byte} (h : (HostStmt.write r v).wf = true) :
    decodeStmt (.write r.addr v) = .write r v := by
  by_cases hr : r = .cmd
  · subst hr
    cases hd : decodeByte v with
    | ok i => simp [HostStmt.wf, hd] at h
    | error e => simp [decodeStmt, hd]
  · exact (if_neg (addr_ne_zero hr)).trans (by rw [ofAddr_addr])

/-- R81: a statement's transaction gives it back, with the value last read written out. -/
theorem decodeStmt_encodeStmt {v : Byte} {st : HostStmt} (h : (st.settle v).wf = true) :
    decodeStmt (encodeStmt v st) = st.settle v := by
  cases st with
  | write r w => exact decodeStmt_write h
  | writeRead r => exact decodeStmt_write h
  | read r => exact congrArg HostStmt.read (ofAddr_addr r)
  | command i => simp [encodeStmt, decodeStmt, decodeByte_encodeByte, HostStmt.settle]

/-- R82: no pseudo-instruction writes `CMD` but by a mnemonic. -/
theorem expand_settle_wf (q : Pseudo) (v : Byte) {st : HostStmt} (h : st ∈ q.expand) : (st.settle v).wf = true := by
  revert st
  cases q with
  | ldRom b => simp [Pseudo.expand, HostStmt.settle, HostStmt.wf]
  | _ => simp [Pseudo.expand, HostStmt.settle, HostStmt.wf, Instr.wf]

/-- Settles O3, statement by statement; every statement of an expansion is in the form R81 gives a command. -/
theorem hostProgramRoundTrip : Obligations.HostProgramRoundTrip := by
  refine ⟨fun prog h => ?_, fun q v => ?_⟩
  · rw [List.map_map]
    exact List.map_congr_left fun x hx => decodeStmt_encodeStmt (h x hx)
  · rw [List.map_map]
    exact List.map_congr_left fun st hst => decodeStmt_encodeStmt (expand_settle_wf q v hst)

/-! ## The end of a command -/

/-- R113, R224: a bus command that no block reset cuts has ended. -/
theorem runCommand_busy {i : Instr} {op : Op} {s : State} (hop : busOp i = some op) (hr : NoReset 1456 s) :
    (runCommand op s).busy = false := by
  cases i <;> cases hop
  case wbit =>
    rw [runCommand_slot (slot := .write (argBit s)) rfl (noReset_mono hr (by simp [slotLength])) rfl]; rfl
  case rbit => rw [runCommand_slot (slot := .read) rfl (noReset_mono hr (by simp [slotLength])) rfl]; rfl
  case wbyte =>
    rw [runCommand_send (sends_wbyte rfl) (noReset_mono hr (by omega)), runEngine_idle rfl]; rfl
  case rbyte => rw [runCommand_rbyte (noReset_mono hr (by omega))]; rfl
  case reset =>
    have hnext : slotNext (afterSlot .reset (launch .reset s)) = finishPresence (afterSlot .reset (launch .reset s)) :=
      rfl
    have hend : (slotNext (afterSlot .reset (launch .reset s))).busy = false := by
      rw [hnext, finishPresence]; split <;> rfl
    rw [runCommand_slot (slot := .reset) rfl (noReset_mono hr (by simp [slotLength])) hend]
    exact hend
  case skip =>
    rw [runCommand_send (sends_skip rfl) (noReset_mono hr (by omega)), runEngine_idle rfl]; rfl
  case rdrom => rw [runCommand_rdrom (noReset_mono hr (by omega))]; rfl
  case matchRom => rw [runCommand_matchRom (noReset_mono hr (by omega))]; rfl
  case search =>
    have hl : s.pass.events.length ≤ 1408 := refPass_length_le _ _ _ 64 _ _ _ _
    obtain ⟨-, -, ⟨-, -, hb, -⟩, -⟩ := runCommand_search (s := s) (noReset_mono hr (by omega))
    exact hb

/-- R205: `n` steps of the engine use up no more than `n` levels of `rst`. -/
theorem runEngine_noReset {m n : Nat} {s : State} (hr : NoReset (n + m) s) : NoReset m (runEngine n s) := by
  induction n generalizing s with
  | zero => exact noReset_mono hr (by omega)
  | succ n ih =>
    rw [show n + 1 + m = n + m + 1 by omega] at hr
    unfold runEngine
    split
    · exact ih (noReset_tail hr ((engineStep_frame (noReset_zero_rstNow hr)).rst.trans List.drop_one))
    · exact noReset_mono hr (by omega)

/-! ## Statements at an idle block -/

/-- A host program of one statement. -/
theorem performProgram_singleton (st : HostStmt) (s : State) : performProgram [st] s = performStmt st s := by
  rw [performProgram]
  cases performStmt st s <;> rfl

section
variable {s : State} (hb : s.busy = false) (hr : s.rstNow = false)
include hb hr

/-- `R <reg>`. -/
theorem performProgram_read (r : Reg) (rest : List HostStmt) :
    performProgram (.read r :: rest) s =
      performProgram rest { s with hRdata := regRead r.addr s, rst := s.rst.tail } :=
  performProgram_cons (performStmt_idle _ hb hr)

/-- `W <reg>` of a register other than `CMD`, with a value or with the one last read. -/
theorem performProgram_write {st : HostStmt} {r : Reg} {v : Byte} (hst : encodeStmt s.hRdata st = .write r.addr v)
    (hne : r ≠ .cmd) (rest : List HostStmt) :
    performProgram (st :: rest) s = performProgram rest (regWrite r.addr v (passRst s)) := by
  refine performProgram_cons ((performStmt_idle st hb hr).trans ?_)
  rw [hst]
  exact if_neg (addr_ne_zero hne)

/-- `<MNEMONIC>`. -/
theorem performStmt_command (i : Instr) : performStmt (.command i) s = exec i (passRst s) :=
  (performStmt_idle _ hb hr).trans (serve_command (decodeByte_encodeByte i) _)

end

/-- R82: `W ARG, v` and a command. -/
theorem performProgram_arg_command {s : State} (v : Byte) (i : Instr) (hb : s.busy = false) (hr : NoReset 2 s) :
    performProgram [.write .arg v, .command i] s = exec i { s with arg := v, rst := s.rst.drop 2 } := by
  rw [performProgram_write (r := .arg) (v := v) hb (noReset_zero_rstNow hr) rfl nofun, performProgram_singleton,
    performStmt_command (s := regWrite Reg.arg.addr v (passRst s)) hb (noReset_zero_rstNow (noReset_tail hr rfl)),
    ← List.drop_tail, List.drop_one]
  rfl

/-- R82: a bus command and `R <reg>`, which reads the register the command left. -/
theorem performProgram_command_read {i : Instr} {op : Op} {s : State} (r : Reg) (hop : busOp i = some op)
    (hl : Legal i (passRst s)) (hb : s.busy = false) (hr : NoReset 1458 s) :
    ∃ t, exec i (passRst s) = .next t ∧
      performProgram [.command i, .read r] s = .next { t with hRdata := regRead r.addr t, rst := t.rst.tail } := by
  have hrun : NoReset 1457 (passRst s) := noReset_tail hr rfl
  have hbusy : (runCommand op (passRst s)).busy = false := runCommand_busy hop (noReset_mono hrun (by omega))
  have hrst : NoReset 1 (runCommand op (passRst s)) := runEngine_noReset (n := 1456) (s := launch op (passRst s)) hrun
  have hex : exec i (passRst s) = .next (runCommand op (passRst s)) := exec_legal hop hl
  refine ⟨_, hex, ?_⟩
  rw [performProgram_cons ((performStmt_command hb (noReset_zero_rstNow hr) i).trans hex),
    performProgram_read hbusy (noReset_zero_rstNow hrst)]
  rfl

/-! ## LDROM -/

/-- The buffer `rom` with the bytes `is` of `b` loaded. -/
def loadRom (b : Vector Byte 8) (is : List (Fin 8)) (rom : Vector Byte 8) : Vector Byte 8 :=
  is.foldl (fun rom i => setRomByte rom i b[i]) rom

theorem loadRom_getElem (b : Vector Byte 8) (is : List (Fin 8)) (rom : Vector Byte 8) (j : Fin 8) :
    (loadRom b is rom)[j] = if j ∈ is then b[j] else rom[j] := by
  induction is generalizing rom with
  | nil => rfl
  | cons i is ih =>
    rw [show loadRom b (i :: is) rom = loadRom b is (setRomByte rom i b[i]) from rfl, ih, romByte_setRomByte]
    by_cases hi : j = i
    · subst hi; simp
    · simp [hi]

/-- All eight bytes loaded are the whole buffer. -/
theorem loadRom_finRange (b rom : Vector Byte 8) : loadRom b (List.finRange 8) rom = b := by
  refine Vector.ext fun j hj => ?_
  have h := loadRom_getElem b (List.finRange 8) rom ⟨j, hj⟩
  rwa [if_pos (List.mem_finRange _)] at h

/-- R82: one `W ROM[i], b[i]` for each byte loaded. -/
theorem performProgram_loadRom (b : Vector Byte 8) (is : List (Fin 8)) {s : State} (hb : s.busy = false)
    (hr : NoReset is.length s) :
    performProgram (is.map fun i => .write (.rom i) b[i]) s =
      .next { s with rom := loadRom b is s.rom, rst := s.rst.drop is.length } := by
  induction is generalizing s with
  | nil => rfl
  | cons i is ih =>
    have hw : regWrite (Reg.rom i).addr b[i] (passRst s) = { passRst s with rom := setRomByte s.rom i b[i] } :=
      regWrite_rom (addr_rom_toNat i) _ _
    rw [List.map_cons, performProgram_write (r := .rom i) (v := b[i]) hb (noReset_zero_rstNow hr) rfl nofun, hw,
      ih (s := { passRst s with rom := setRomByte s.rom i b[i] }) hb (noReset_tail hr rfl)]
    simp [loadRom]

/-! ## SEARCHFIRST and SEARCHNEXT -/

/-- R82: a write of the search cursor, `SEARCH`, and `R NEWDISC`. -/
theorem performProgram_search {st : HostStmt} {s : State} {v : Byte}
    (hst : encodeStmt s.hRdata st = .write Reg.lastDisc.addr v) (hb : s.busy = false) (hr : NoReset 1459 s) :
    ∃ t, exec .search { s with lastDisc := v, rst := s.rst.drop 2 } = .next t ∧
      performProgram [st, .command .search, .read .newDisc] s =
        .next { t with hRdata := t.newDisc, rst := t.rst.tail } := by
  rw [performProgram_write hb (noReset_zero_rstNow hr) hst nofun, ← List.drop_tail, List.drop_one]
  exact performProgram_command_read (s := { s with lastDisc := v, rst := s.rst.tail }) .newDisc rfl nofun hb
    (noReset_tail hr rfl)

/-- R82: where SEARCHNEXT is to be used. -/
theorem searchNext_admitted_iff (s : State) :
    Pseudo.searchNext.admitted s = true ↔ 1 ≤ s.newDisc.toNat ∧ s.newDisc.toNat ≤ 64 :=
  decide_eq_true_iff

/-- A pseudo-instruction admitted at an idle block. -/
theorem performPseudo_of_admitted {q : Pseudo} {s : State} {o : Host.Outcome State Fault Refusal} (hb : s.busy = false)
    (hq : q.admitted s = true) (h : performProgram q.expand s = o) : performPseudo q s = some o := by
  rw [performPseudo_idle hb, if_pos hq, h]

/-- Settles O59: each expansion is performed, its commands by `performProgram_arg_command`, `performProgram_command_read`
and `performProgram_search`. -/
theorem pseudoInstructions : Obligations.PseudoInstructions := by
  intro s hb hr ends
  have hr0 := noReset_zero_rstNow hr
  have harg : ∀ (i : Instr) (v : Byte), performProgram [.write .arg v, .command i] s =
      exec i { s with arg := v, rst := s.rst.drop 2 } :=
    fun i v => performProgram_arg_command v i hb (noReset_mono hr (by omega))
  have hends : ∀ {i op r} (q : Pseudo), q.expand = [.command i, .read r] → q.admitted s = true → busOp i = some op →
      i ≠ .wbit → ends (exec i (passRst s)) (regRead r.addr) (performPseudo q s) := by
    intro i op r q hx hq hop hi
    obtain ⟨t, he, hp⟩ := performProgram_command_read r hop (fun hw => absurd hw hi) hb (noReset_mono hr (by omega))
    exact ⟨t, he, performPseudo_of_admitted hb hq (hx ▸ hp)⟩
  refine ⟨fun b => ?_, fun v => ?_, ?_, ?_, ?_, ?_, fun v => ?_, fun b => ?_, ?_, fun hv => ?_, fun hv => ?_⟩
  · exact performPseudo_of_admitted hb rfl (harg .wbit _)
  · exact performPseudo_of_admitted hb rfl (harg .wbyte v)
  · exact hends .recvByte rfl rfl rfl nofun
  · exact hends .recvBit rfl rfl rfl nofun
  · exact hends .present rfl rfl rfl nofun
  · exact performPseudo_of_admitted hb rfl (performProgram_write (r := .crc) (v := 0x00) hb hr0 rfl nofun [])
  · exact performPseudo_of_admitted hb rfl (harg .crc8 v)
  · have h := performProgram_loadRom b (List.finRange 8) hb (noReset_mono hr (by simp))
    rw [loadRom_finRange, List.length_finRange] at h
    exact performPseudo_of_admitted hb rfl h
  · obtain ⟨t, he, hp⟩ := performProgram_search (st := .write .lastDisc 0x00) rfl hb (noReset_mono hr (by omega))
    exact ⟨t, he, performPseudo_of_admitted hb rfl hp⟩
  · obtain ⟨t, he, hp⟩ := performProgram_search (st := .writeRead .lastDisc) (v := s.newDisc)
      (s := { s with hRdata := s.newDisc, rst := s.rst.tail }) rfl hb (noReset_tail hr rfl)
    rw [List.drop_tail] at he
    exact ⟨t, he, performPseudo_of_admitted hb ((searchNext_admitted_iff s).2 hv)
      ((performProgram_read hb hr0 _ _).trans hp)⟩
  · have hq : ¬ Pseudo.searchNext.admitted s = true := by rw [searchNext_admitted_iff]; omega
    rw [performPseudo_idle hb, if_neg hq]

end Sys2Proof.Machine
end

section
/-!
SUPPORT. The bit timer (40_bit_timer.md): the slot timer after any number of ticks, the tables it refuses, and the real
duration of a slot against its nominal one, by the number of its delays.
-/

namespace Sys2Proof.Machine

/-! ## The slot timer -/

/-- R92: the subtraction is of naturals, so the timer stops at 0. -/
theorem tickTimer_toNat (t : Micros) : (tickTimer t).toNat = t.toNat - 1 := by
  unfold tickTimer
  split
  case isTrue h => rw [h]; rfl
  case isFalse h => bv_omega

theorem runTimer_toNat (k : Nat) (n : Micros) : (runTimer k n).toNat = n.toNat - k := by
  induction k generalizing n with
  | zero => rfl
  | succ k ih => rw [runTimer, ih, tickTimer_toNat, Nat.sub_sub, Nat.add_comm]

theorem delay_trace (n : Micros) (s : State) : (delay n s).trace = s.trace ++ [.dly n] := by simp [State.trace]

theorem slotTimes_wf_iff (t : SlotTimes) :
    t.wf = true ↔ t.tA < 512 ∧ t.tB < 512 ∧ t.tC < 512 ∧ t.tD < 512 ∧ t.tE < 512 ∧ t.tF < 512 ∧ t.tH < 512 ∧
      t.tI < 512 ∧ t.tJ < 512 := by
  simp [SlotTimes.wf]

theorem instantiate?_eq_none_iff (t : SlotTimes) : Config.instantiate? t = none ↔ ¬ t.wf = true := by
  simp [Config.instantiate?]

/-- Settles O12: the timer by its number of ticks, the delay by its own laws, the refusal by the table's check. -/
theorem slotTimer : Obligations.SlotTimer := by
  refine ⟨fun n k => runTimer_toNat k n, fun n s => ⟨runTimer_self n, delay_drv n s, delay_trace n s⟩, fun t ht => ?_⟩
  rw [instantiate?_eq_none_iff, slotTimes_wf_iff]
  omega

/-! ## Real durations -/

/-- Whether an event is a delay. -/
def Event.isDelay : Event → Bool
  | .dly _ => true
  | .atomBegin | .low | .rel | .smp _ | .atomEnd | .rst => false

/-- How many delays a trace has. -/
def delaysOf (es : List Event) : Nat := es.countP Event.isDelay

theorem Event.isDelay_iff {e : Event} : e.isDelay = true ↔ ∃ n, e = .dly n := by cases e <;> simp [Event.isDelay]

theorem micros_cons_of_not_isDelay {e : Event} (h : e.isDelay = false) (es : List Event) :
    micros (e :: es) = micros es := by
  cases e with
  | dly n => cases h
  | atomBegin | low | rel | smp v | atomEnd | rst => rfl

theorem otherTime_cons_of_not_isDelay {e : Event} (h : e.isDelay = false) (d : Nat) (es : List (Event × Nat)) :
    otherTime ((e, d) :: es) = d + otherTime es := by
  cases e with
  | dly n => cases h
  | atomBegin | low | rel | smp v | atomEnd | rst => rfl

theorem realTime_cons (e : Event) (d : Nat) (es : List (Event × Nat)) : realTime ((e, d) :: es) = d + realTime es := by
  simp [realTime]

/-- R93: each delay may be `tol` longer or shorter than its argument; the other events only add to the nominal time. -/
theorem realTime_bounds {tol : Nat} {es : List (Event × Nat)}
    (h : ∀ n d, (Event.dly n, d) ∈ es → d ≤ n.toNat + tol ∧ n.toNat ≤ d + tol) :
    realTime es ≤ micros (es.map Prod.fst) + delaysOf (es.map Prod.fst) * tol + otherTime es ∧
      micros (es.map Prod.fst) ≤ realTime es + delaysOf (es.map Prod.fst) * tol := by
  induction es with
  | nil => exact ⟨Nat.zero_le _, Nat.zero_le _⟩
  | cons p es ih =>
    obtain ⟨e, d⟩ := p
    obtain ⟨hle, hge⟩ := ih fun n d hm => h n d (List.mem_cons_of_mem _ hm)
    rw [realTime_cons, List.map_cons]
    cases he : e.isDelay with
    | true =>
      obtain ⟨n, rfl⟩ := Event.isDelay_iff.1 he
      have hd := h n d List.mem_cons_self
      rw [delaysOf, List.countP_cons_of_pos he, ← delaysOf, Nat.succ_mul, micros, otherTime]
      omega
    | false =>
      rw [delaysOf, List.countP_cons_of_neg (Bool.eq_false_iff.1 he), ← delaysOf, micros_cons_of_not_isDelay he,
        otherTime_cons_of_not_isDelay he]
      omega

/-- R93: the tolerance of a slot of at most three delays. -/
theorem RealSlot.duration {tol : Nat} {es : List (Event × Nat)} (h : RealSlot tol es)
    (hk : delaysOf (es.map Prod.fst) ≤ 3) :
    realTime es ≤ micros (es.map Prod.fst) + 4 * tol ∧ micros (es.map Prod.fst) ≤ realTime es + 3 * tol := by
  obtain ⟨-, hother, hdelay⟩ := h
  obtain ⟨hle, hge⟩ := realTime_bounds hdelay
  have hdelays := Nat.mul_le_mul_right tol hk
  omega

/-- The events of a slot that starts in `s` (R107, R108, R130). -/
def slotEvents (s : State) : Slot → List Event
  | .write v => writeEvents s.params.slots v
  | .read => readEvents s.params.slots (s.envAt 0)
  | .reset => resetEvents s.params.slots (s.envAt 0)

theorem delaysOf_slotEvents_le (s : State) (slot : Slot) : delaysOf (slotEvents s slot) ≤ 3 := by
  cases slot with
  | write v => exact Nat.le_succ 2
  | read => exact Nat.le_refl 3
  | reset => exact Nat.le_refl 3

theorem afterSlot_gains (s : State) (slot : Slot) : Gains (slotEvents s slot) s (afterSlot slot s) := by
  cases slot with
  | write v => exact ⟨rfl, rfl, rfl, rfl⟩
  | read => exact ⟨rfl, rfl, List.drop_one.symm, rfl⟩
  | reset => exact ⟨rfl, rfl, List.drop_one.symm, rfl⟩

theorem finishPresence_busy (s : State) : (finishPresence s).busy = false := by
  unfold finishPresence
  split <;> rfl

/-- The trace of a command of one slot is that slot's (R109, R110, R131). -/
theorem runCommand_slot_trace {op : Op} {s : State} {slot : Slot} (hs : slotOf (launch op s) = some slot)
    (hr : NoReset (slotLength slot) s) (hend : (slotNext (afterSlot slot (launch op s))).busy = false) :
    (runCommand op s).trace = s.trace ++ slotEvents (launch op s) slot := by
  rw [runCommand_slot hs hr hend]
  exact (((afterSlot_gains _ slot).after_silent (launch_gains op s)).then_silent (slotNext_gains _)).trace

/-- Settles O47: the trace of RBIT and of RESET is one slot's, and a slot has at most three delays. -/
theorem realDurations : Obligations.RealDurations := by
  intro i s t tol es hi hr h htrace hreal
  obtain ⟨u, slot, hslot⟩ : ∃ u slot, t.trace = s.trace ++ slotEvents u slot := by
    rcases hi with rfl | rfl
    · cases (exec_legal (i := .rbit) (s := s) rfl nofun).symm.trans h
      exact ⟨_, .read, runCommand_slot_trace rfl hr rfl⟩
    · cases (exec_legal (i := .reset) (s := s) rfl nofun).symm.trans h
      exact ⟨_, .reset, runCommand_slot_trace rfl hr (finishPresence_busy _)⟩
  have hes : es.map Prod.fst = slotEvents u slot := List.append_cancel_left (htrace.symm.trans hslot)
  exact hreal.duration (hes ▸ delaysOf_slotEvents_le u slot)

end Sys2Proof.Machine
end

section
/-!
SUPPORT. The bit transport (41_bit_transport.md): the line and the critical section at every point of a slot (R112), the
strict alternation of critical sections in a trace (R113), and the two commands of one bit slot (R109, R110).
-/

namespace Sys2Proof.Machine

/-! ## What follows a slot -/

/-- `t` stands at the same point of a slot of the same command as `s`, with the line and the critical section as they
were. -/
structure SamePoint (s t : State) : Prop where
  drv : t.drv = s.drv
  atom : t.atom = s.atom
  busy : t.busy = s.busy
  op : t.op = s.op
  ph : t.ph = s.ph

theorem SamePoint.trans {s t u : State} (h : SamePoint s t) (h' : SamePoint t u) : SamePoint s u :=
  ⟨h'.drv.trans h.drv, h'.atom.trans h.atom, h'.busy.trans h.busy, h'.op.trans h.op, h'.ph.trans h.ph⟩

/-- From `s` to `t` no primitive is executed: the command goes on at the same point of a slot, or it ends. -/
def BetweenSlots (s t : State) : Prop := SamePoint s t ∨ ∃ u, t = endCommand u ∧ SamePoint s u

theorem SamePoint.then_between {s t u : State} (h : SamePoint s t) (h' : BetweenSlots t u) : BetweenSlots s u := by
  rcases h' with h' | ⟨v, rfl, h'⟩
  · exact .inl (h.trans h')
  · exact .inr ⟨v, rfl, h.trans h'⟩

theorem endCommand_between {s u : State} (h : SamePoint s u) : BetweenSlots s (endCommand u) := .inr ⟨u, rfl, h⟩

theorem sendNext_between {next : State → State} (h : ∀ u, BetweenSlots u (next u)) (s : State) :
    BetweenSlots s (sendNext next s) := by
  unfold sendNext
  split
  · exact SamePoint.then_between (t := { s with sh := shiftOut s.sh, k := 0 }) ⟨rfl, rfl, rfl, rfl, rfl⟩ (h _)
  · exact .inl ⟨rfl, rfl, rfl, rfl, rfl⟩

theorem recvNext_between {next : State → State} (h : ∀ u, BetweenSlots u (next u)) (s : State) :
    BetweenSlots s (recvNext next s) := by
  unfold recvNext
  split
  · exact SamePoint.then_between (t := { s with sh := shiftIn s.sh s.smp, k := 0 }) ⟨rfl, rfl, rfl, rfl, rfl⟩ (h _)
  · exact .inl ⟨rfl, rfl, rfl, rfl, rfl⟩

theorem finishPresence_between (s : State) : BetweenSlots s (finishPresence s) := by
  unfold finishPresence
  split <;> exact endCommand_between ⟨rfl, rfl, rfl, rfl, rfl⟩

theorem rdromNext_between (s : State) : BetweenSlots s (rdromNext s) := by
  unfold rdromNext
  split
  case h_1 =>
    refine sendNext_between (fun _ => ?_) s
    exact .inl ⟨rfl, rfl, rfl, rfl, rfl⟩
  all_goals
    refine recvNext_between (fun _ => ?_) s
    split
    · exact endCommand_between ⟨rfl, rfl, rfl, rfl, rfl⟩
    · exact .inl ⟨rfl, rfl, rfl, rfl, rfl⟩

theorem matchNext_between (s : State) : BetweenSlots s (matchNext s) := by
  unfold matchNext
  split
  case h_1 =>
    refine sendNext_between (fun _ => ?_) s
    exact .inl ⟨rfl, rfl, rfl, rfl, rfl⟩
  all_goals
    refine sendNext_between (fun _ => ?_) s
    split
    · exact endCommand_between ⟨rfl, rfl, rfl, rfl, rfl⟩
    · exact .inl ⟨rfl, rfl, rfl, rfl, rfl⟩

theorem searchDecide_between (s : State) : BetweenSlots s (searchDecide s) := by
  unfold searchDecide
  dsimp only
  split
  · exact endCommand_between ⟨rfl, rfl, rfl, rfl, rfl⟩
  · exact .inl ⟨rfl, rfl, rfl, rfl, rfl⟩

theorem searchNext_between (s : State) : BetweenSlots s (searchNext s) := by
  unfold searchNext
  split
  · refine sendNext_between (fun _ => ?_) s
    exact .inl ⟨rfl, rfl, rfl, rfl, rfl⟩
  · exact .inl ⟨rfl, rfl, rfl, rfl, rfl⟩
  · exact SamePoint.then_between (t := { s with b2 := s.smp }) ⟨rfl, rfl, rfl, rfl, rfl⟩ (searchDecide_between _)
  · split
    · exact .inl ⟨rfl, rfl, rfl, rfl, rfl⟩
    · exact endCommand_between ⟨rfl, rfl, rfl, rfl, rfl⟩

/-- R35, R112: what follows a slot executes no primitive. -/
theorem slotNext_between (s : State) : BetweenSlots s (slotNext s) := by
  have hend : ∀ u, BetweenSlots u (endCommand u) := fun _ => endCommand_between ⟨rfl, rfl, rfl, rfl, rfl⟩
  unfold slotNext
  split
  · exact hend s
  · exact hend s
  · exact endCommand_between ⟨rfl, rfl, rfl, rfl, rfl⟩
  · exact sendNext_between hend s
  · refine recvNext_between (fun _ => ?_) s
    exact endCommand_between ⟨rfl, rfl, rfl, rfl, rfl⟩
  · exact finishPresence_between s
  · exact sendNext_between hend s
  · exact rdromNext_between s
  · exact matchNext_between s
  · exact searchNext_between s

/-! ## The line discipline -/

/-- How many primitives the slot at the control point has; none where the engine rests (R35, R36). -/
def slotLengthAt (s : State) : Nat := (slotOf s).elim 0 slotLength

theorem slotLengthAt_of_slot {s : State} {slot : Slot} (h : slotOf s = some slot) :
    slotLengthAt s = slotLength slot := by simp [slotLengthAt, h]

theorem slotOf_isSome_iff (s : State) : (slotOf s).isSome = true ↔ s.op ≠ .idle := by
  unfold slotOf
  split <;> simp_all

theorem slotLength_bounds (slot : Slot) : 6 ≤ slotLength slot ∧ slotLength slot ≤ 8 := by
  cases slot <;> simp [slotLength]

theorem slotLengthAt_pos {s : State} (h : s.op ≠ .idle) : 0 < slotLengthAt s := by
  obtain ⟨slot, hs⟩ := Option.isSome_iff_exists.1 ((slotOf_isSome_iff s).2 h)
  have hlen := (slotLength_bounds slot).1
  rw [slotLengthAt_of_slot hs]
  omega

/-- R36: a slot's length depends on the command and its stage alone, not on the bit it carries. -/
theorem slotLengthAt_congr {s t : State} (ho : t.op = s.op) (hs : t.stg = s.stg) :
    slotLengthAt t = slotLengthAt s := by
  unfold slotLengthAt slotOf
  rw [ho, hs]
  cases s.op with
  | rdrom | search => cases s.stg <;> rfl
  | _ => rfl

/-- `LineInv` with the slot's length in place of its primitives. -/
theorem lineInv_iff (s : State) : LineInv s ↔
    (s.busy = false → s.drv = false ∧ s.atom = false) ∧
    (s.busy = true → s.ph.val < slotLengthAt s ∧ s.atom = decide (0 < s.ph.val) ∧
      s.drv = decide (s.ph.val = 2 ∨ s.ph.val = 3)) := by
  have hslot : (s.op ≠ .idle ∧ ∀ slot, slotOf s = some slot → s.ph.val < (slot.prims s.params.slots).length) ↔
      s.ph.val < slotLengthAt s := by
    rw [← slotOf_isSome_iff]
    cases h : slotOf s <;> simp [slotLengthAt, h, prims_length]
  unfold LineInv
  rw [hslot]
  tauto

/-- Before a slot's first primitive, and at rest, the line is released and no section is open. -/
theorem lineInv_of_released {s : State} (hdrv : s.drv = false) (hatom : s.atom = false)
    (hbusy : s.busy = true → s.op ≠ .idle ∧ s.ph = 0) : LineInv s := by
  refine (lineInv_iff s).2 ⟨fun _ => ⟨hdrv, hatom⟩, fun hb => ?_⟩
  obtain ⟨hop, hph⟩ := hbusy hb
  simp [hph, hdrv, hatom, slotLengthAt_pos hop]

theorem LineInv.released {s : State} (h : LineInv s) (ha : s.atom = false) : s.drv = false := by
  obtain ⟨hrest, hslot⟩ := (lineInv_iff s).1 h
  cases hb : s.busy with
  | false => exact (hrest hb).1
  | true =>
    obtain ⟨-, hatom, hdrv⟩ := hslot hb
    have hph : ¬ 0 < s.ph.val := of_decide_eq_false (hatom.symm.trans ha)
    rw [hdrv, decide_eq_false_iff_not]
    omega

theorem primAt_sequencer (slot : Slot) (s : State) :
    (primAt slot s).busy = s.busy ∧ (primAt slot s).op = s.op ∧ (primAt slot s).stg = s.stg := by
  unfold primAt
  split
  next q _ => cases q <;> exact ⟨rfl, rfl, rfl⟩
  next => exact ⟨rfl, rfl, rfl⟩

/-- R107, R108, R130: `ATOM+` is a slot's first primitive and `ATOM-` its last, `LOW` its second and `REL` its fourth,
so the discipline passes from each primitive to the next. -/
theorem primAt_line {slot : Slot} {s : State} (hp : s.ph.val < slotLength slot)
    (hatom : s.atom = decide (0 < s.ph.val)) (hdrv : s.drv = decide (s.ph.val = 2 ∨ s.ph.val = 3)) :
    (primAt slot s).atom = decide (s.ph.val + 1 < slotLength slot) ∧
      (primAt slot s).drv = decide (s.ph.val + 1 = 2 ∨ s.ph.val + 1 = 3) := by
  unfold primAt
  generalize s.ph.val = n at *
  cases slot with
  | write v =>
    simp only [slotLength] at hp ⊢
    cases v <;> interval_cases n <;> simp_all [Slot.prims, doPrim]
  | read | reset =>
    simp only [slotLength] at hp ⊢
    interval_cases n <;> simp_all [Slot.prims, doPrim]

theorem blockReset_lineInv (s : State) : LineInv (blockReset s) := lineInv_of_released rfl rfl nofun

theorem launch_lineInv {op : Op} {s : State} (hop : op ≠ .idle) (hb : s.busy = false) (h : LineInv s) :
    LineInv (launch op s) := by
  obtain ⟨hrest, -, -⟩ := h
  obtain ⟨hdrv, hatom⟩ := hrest hb
  exact lineInv_of_released hdrv hatom fun _ => ⟨hop, rfl⟩

theorem SamePoint.lineInv {s t : State} (h : SamePoint s t) (hs : t.stg = s.stg) (hinv : LineInv s) : LineInv t := by
  rw [lineInv_iff, slotLengthAt_congr h.op hs, h.drv, h.atom, h.busy, h.ph]
  exact (lineInv_iff s).1 hinv

theorem portAction_lineInv (s t : State) (hp : PortAction s t) (h : LineInv s) : LineInv t := by
  obtain ⟨_, _, _, _, _, _, _, _, rfl⟩ := hp
  exact SamePoint.lineInv (s := s) ⟨rfl, rfl, rfl, rfl, rfl⟩ rfl h

/-- What follows a slot leaves the line released: the next slot has not begun. -/
theorem slotNext_lineInv {s : State} (hdrv : s.drv = false) (hatom : s.atom = false) (hop : s.op ≠ .idle)
    (hph : s.ph = 0) : LineInv (slotNext s) := by
  rcases slotNext_between s with hsame | ⟨u, he, hsame⟩
  · exact lineInv_of_released (hsame.drv.trans hdrv) (hsame.atom.trans hatom)
      fun _ => ⟨hsame.op ▸ hop, hsame.ph.trans hph⟩
  · rw [he]
    exact lineInv_of_released (hsame.drv.trans hdrv) (hsame.atom.trans hatom) nofun

/-- A slot's primitive that is not its last leaves the next point of the slot, its last what follows the slot. -/
theorem enginePrim_lineInv (s : State) (hb : s.busy = true) (h : LineInv s) : LineInv (enginePrim s) := by
  obtain ⟨-, hline, hpoint⟩ := h
  obtain ⟨hatom, hdrv⟩ := hline hb
  obtain ⟨hop, hlen⟩ := hpoint hb
  obtain ⟨slot, hs⟩ := Option.isSome_iff_exists.1 ((slotOf_isSome_iff s).2 hop)
  have hp : s.ph.val < slotLength slot := prims_length _ slot ▸ hlen slot hs
  obtain ⟨hatom', hdrv'⟩ := primAt_line hp hatom hdrv
  obtain ⟨hb', hop', hstg'⟩ := primAt_sequencer slot s
  obtain ⟨hmin, hmax⟩ := slotLength_bounds slot
  rw [enginePrim_of_slot hs]
  split
  next hlt =>
    have hph : (s.ph + 1).val = s.ph.val + 1 := by rw [Fin.val_add]; simp; omega
    have hlen' : slotLengthAt { primAt slot s with ph := s.ph + 1 } = slotLength slot :=
      (slotLengthAt_congr hop' hstg').trans (slotLengthAt_of_slot hs)
    refine (lineInv_iff _).2 ⟨fun hf => absurd (hb'.trans hb) (Bool.eq_false_iff.1 hf), fun _ => ?_⟩
    rw [hlen']
    simp only [hph]
    exact ⟨hlt, hatom'.trans (by simp [hlt]), hdrv'⟩
  next hge =>
    refine slotNext_lineInv (hdrv'.trans ?_) (hatom'.trans (decide_eq_false hge)) (hop' ▸ hop) rfl
    rw [decide_eq_false_iff_not]
    omega

/-- Settles O55: block reset, the engine, the port and a launch each keep `LineInv`. -/
theorem lineDiscipline : Obligations.LineDiscipline := by
  refine ⟨fun s t hs h => ?_, fun s hs => hs.released⟩
  exact step_keeps (fun u _ => blockReset_lineInv u) enginePrim_lineInv portAction_lineInv
    (fun _ _ hop hb => launch_lineInv hop hb) hs h

/-! ## One bit slot -/

/-- R72, R74: a legal operand of WBIT is the bit it sends. -/
theorem argBit_of_legal {s : State} (h : s.arg.toNat ≤ 1) : argBit s = decide (s.arg = 1) := by
  have hbit : s.arg.toNat = 0 ∨ s.arg.toNat = 1 := by omega
  rcases hbit with h0 | h1
  · have harg : s.arg = 0 := BitVec.eq_of_toNat_eq h0
    simp [argBit, harg]
  · have harg : s.arg = 1 := BitVec.eq_of_toNat_eq h1
    simp [argBit, harg]

theorem runCommand_wbit {s : State} (hr : NoReset 6 s) :
    runCommand .wbit s = endCommand (afterSlot (.write (argBit s)) (launch .wbit s)) :=
  runCommand_slot (slot := .write (argBit s)) rfl hr rfl

theorem runCommand_rbit {s : State} (hr : NoReset 8 s) :
    runCommand .rbit s = endCommand { afterSlot .read (launch .rbit s) with data := zext8 (s.envAt 0) } :=
  runCommand_slot (slot := .read) rfl hr rfl

/-- R113: a command that ends with the line released and no section open has ended. -/
theorem endCommand_ended {s : State} (hdrv : s.drv = false) (hatom : s.atom = false) : Ended (endCommand s) :=
  ⟨hdrv, hatom, rfl, rfl, rfl, rfl, rfl, rfl⟩

/-- Settles O13: one write slot of `ARG[0]`, or the operand check alone. -/
theorem wbitSends : Obligations.WbitSends := by
  refine ⟨rfl, fun s ha hr => ⟨runCommand .wbit s, exec_legal rfl fun _ => ha, ?_⟩, fun s ha => ?_⟩
  · have htrace := runCommand_slot_trace (op := .wbit) (slot := .write (argBit s)) rfl hr rfl
    rw [← argBit_of_legal ha]
    rw [runCommand_wbit hr] at htrace ⊢
    exact ⟨rfl, htrace, endCommand_ended rfl rfl, rfl, rfl, rfl, rfl, rfl, rfl⟩
  · refine exec_wbit_illegal (Bool.eq_false_iff.2 fun h => ?_)
    exact Nat.not_le_of_lt ha ((argBitLegal_iff s).1 h)

/-- Settles O15: one read slot, and its sample in `DATA`. -/
theorem rbitReceives : Obligations.RbitReceives := by
  refine ⟨rfl, fun s hr => ⟨runCommand .rbit s, exec_legal rfl nofun, ?_⟩⟩
  have htrace := runCommand_slot_trace (op := .rbit) (slot := .read) rfl hr rfl
  rw [runCommand_rbit hr] at htrace ⊢
  exact ⟨rfl, htrace, endCommand_ended rfl rfl, rfl, List.drop_one.symm, rfl, rfl, rfl, rfl⟩

/-! ## Critical sections alternate -/

/-- A trace that closes its last section may be followed by another (R113). -/
theorem alternates_append {isOpen : Bool} {es : List Event} (h : alternates isOpen es = true) (fs : List Event) :
    alternates isOpen (es ++ fs) = alternates false fs := by
  induction es generalizing isOpen with
  | nil =>
    obtain rfl : isOpen = false := by simpa [alternates] using h
    rfl
  | cons e es ih =>
    cases e with
    | low | dly | rel | smp => exact ih h
    | atomBegin | atomEnd =>
      obtain ⟨hpoint, hes⟩ := (Bool.and_eq_true _ _).mp h
      rw [List.cons_append, alternates, hpoint, Bool.true_and]
      exact ih hes
    | rst => cases h

theorem alternates_append_of {es fs : List Event} (h : alternates false es = true) (h' : alternates false fs = true) :
    alternates false (es ++ fs) = true := (alternates_append h fs).trans h'

theorem alternates_flatMap {α : Type} {f : α → List Event} (h : ∀ a, alternates false (f a) = true) (l : List α) :
    alternates false (l.flatMap f) = true := by
  induction l with
  | nil => rfl
  | cons a l ih => exact alternates_append_of (h a) ih

theorem writeEvents_alternate (t : SlotTable) (v : Bool) : alternates false (writeEvents t v) = true := rfl

theorem readEvents_alternate (t : SlotTable) (v : Bool) : alternates false (readEvents t v) = true := rfl

theorem byteEvents_alternate (t : SlotTable) (b : Byte) : alternates false (byteEvents t b) = true :=
  alternates_flatMap (fun _ => writeEvents_alternate t _) _

theorem readsEvents_alternate (t : SlotTable) (f : Nat → Bool) (n : Nat) :
    alternates false (readsEvents t f n) = true :=
  alternates_flatMap (fun _ => readEvents_alternate t _) _

/-- Each position of a pass is two read slots and, where it decides a bit, a write slot (R151). -/
theorem refPass_alternate (o : ByteOrder) (t : SlotTable) (last n p : Nat) (f : Nat → Bool) (rom : Vector Byte 8)
    (nd : Byte) : alternates false (refPass o t last n p f rom nd).events = true := by
  induction n generalizing p f rom nd with
  | zero => rfl
  | succ n ih =>
    have hreads := alternates_append_of (readEvents_alternate t (f 0)) (readEvents_alternate t (f 1))
    by_cases h : f 0 = true ∧ f 1 = true
    · rw [refPass_abort _ _ _ _ _ _ _ _ h.1 h.2]
      exact hreads
    · rw [refPass_succ _ _ _ _ _ _ _ _ h]
      exact alternates_append_of (alternates_append_of hreads (writeEvents_alternate t _)) (ih ..)

/-- R105, R113, R124: a command's events are whole slots. -/
theorem commandEvents_alternate (i : Instr) (s : State) : alternates false (commandEvents i s) = true := by
  cases i with
  | wbit => exact writeEvents_alternate _ _
  | rbit => exact readEvents_alternate _ _
  | reset => rfl
  | wbyte | skip => exact byteEvents_alternate _ _
  | rbyte => exact readsEvents_alternate _ _ _
  | rdrom => exact alternates_append_of (byteEvents_alternate _ _) (readsEvents_alternate _ _ _)
  | matchRom =>
    exact alternates_append_of (byteEvents_alternate _ _) (alternates_flatMap (fun _ => writeEvents_alternate _ _) _)
  | search => exact alternates_append_of (byteEvents_alternate _ _) (refPass_alternate ..)
  | crc8 => rfl

/-- Settles O45: a bus command's events are those of `runCommand_observed`. -/
theorem sectionsAlternate : Obligations.SectionsAlternate := fun i op s hop hl hr =>
  ⟨runCommand op s, commandEvents i s, exec_legal hop hl, (runCommand_observed hop hr).trace,
    commandEvents_alternate i s⟩

end Sys2Proof.Machine
end

section
/-!
SUPPORT. The byte transport (42_byte_transport.md): the end state of a command that sends or receives one byte, what is
observed of it, and the byte that is sent and answered (R122, R123, R125).
-/

namespace Sys2Proof.Machine

/-! ## One byte sent -/

/-- A command that ends after its first byte (R122, R134). -/
theorem runCommand_sentByte {op : Op} {s : State} (hs : Sends endCommand (launch op s)) (hr : NoReset 48 s) :
    runCommand op s = endCommand (sentByte (launch op s)) := by
  rw [runCommand_send hs hr, runEngine_idle rfl]

/-- R120, R228: a command of one sent byte is 48 primitives and no sample. -/
theorem runCommand_sentByte_ran {op : Op} {s : State} (hs : Sends endCommand (launch op s)) (hr : NoReset 48 s) :
    RanBus 48 0 s (runCommand op s) := by
  rw [runCommand_sentByte hs hr]
  exact ⟨endCommand_ended rfl rfl, rfl, rfl, rfl, rfl, rfl, rfl⟩

theorem runCommand_wbyte_observed {s : State} (hr : NoReset 48 s) : Observed .wbyte s (runCommand .wbyte s) := by
  rw [runCommand_sentByte (sends_wbyte rfl) hr]
  exact ⟨rfl, rfl⟩

/-- Settles O16: `WriteByte(ARG)`, then the end of the command. -/
theorem wbyteSends : Obligations.WbyteSends := by
  refine ⟨rfl, fun s hr => ⟨runCommand .wbyte s, exec_legal rfl nofun, ?_⟩⟩
  have hobs := runCommand_wbyte_observed hr
  exact ⟨hobs.regs, hobs.trace, runCommand_sentByte_ran (sends_wbyte rfl) hr⟩

/-! ## One byte received -/

theorem runCommand_rbyte_observed {s : State} (hr : NoReset 64 s) : Observed .rbyte s (runCommand .rbyte s) := by
  rw [runCommand_rbyte hr]
  exact ⟨rfl, rfl⟩

/-- R121, R228: RBYTE is 64 primitives and eight samples. -/
theorem runCommand_rbyte_ran {s : State} (hr : NoReset 64 s) : RanBus 64 8 s (runCommand .rbyte s) := by
  rw [runCommand_rbyte hr]
  exact ⟨endCommand_ended rfl rfl, rfl, rfl, rfl, rfl, rfl, rfl⟩

/-- Settles O17: `DATA` is the byte of the next eight answers, and `answerByte_bit` gives its bits. -/
theorem rbyteReceives : Obligations.RbyteReceives := by
  refine ⟨rfl, fun s hr => ⟨runCommand .rbyte s, exec_legal rfl nofun, ?_⟩⟩
  have hobs := runCommand_rbyte_observed hr
  have hdata : (runCommand .rbyte s).data = answerByte s.envAt := congrArg HostRegs.data hobs.regs
  rw [hdata]
  exact ⟨hobs.regs, answerByte_bit s.envAt, hobs.trace, runCommand_rbyte_ran hr⟩

/-! ## Sent and answered -/

/-- Settles O41: both commands count the bits of a byte from bit 0 (R57), so their bytes agree bit by bit. -/
theorem byteRoundTrip : Obligations.ByteRoundTrip := by
  intro s u hu hanswers hs
  obtain ⟨t, hsend, -, htrace, -⟩ := wbyteSends.2 s hs
  obtain ⟨v, hreceive, -, hbits, -⟩ := rbyteReceives.2 u hu
  have hdata : v.data = s.arg := BitVec.eq_of_getLsbD_eq fun j hj => (hbits j hj).trans (hanswers j hj)
  exact ⟨t, v, hsend, htrace, hreceive, hdata⟩

end Sys2Proof.Machine
end

section
/-!
SUPPORT. The bus controller (43_bus_controller.md): the end state of RESET, SKIP, RDROM and MATCH, the buffer RDROM
leaves in wire order (R135), and the ROM that is read and then sent (R138).
-/

namespace Sys2Proof.Machine

/-! ## RESET -/

/-- R131: `PRES` is the inverted sample, whether the end is a status result or not. -/
theorem finishPresence_eq (s : State) : finishPresence s = endCommand { s with pres := !s.smp } := by
  unfold finishPresence
  split
  case isTrue h => simp [raiseStatus, recordStatus, h]
  case isFalse h => simp [h]

theorem runCommand_reset {s : State} (hr : NoReset 8 s) :
    runCommand .reset s = endCommand { afterSlot .reset (launch .reset s) with pres := !s.envAt 0 } := by
  rw [runCommand_slot (op := .reset) (slot := .reset) rfl hr (finishPresence_busy _)]
  exact finishPresence_eq _

/-- Settles O18: one reset slot, and its sample inverted in `PRES`. -/
theorem resetDetects : Obligations.ResetDetects := by
  refine ⟨rfl, fun s hr => ⟨runCommand .reset s, exec_legal rfl nofun, ?_⟩⟩
  have htrace := runCommand_slot_trace (op := .reset) (slot := .reset) rfl hr (finishPresence_busy _)
  rw [runCommand_reset hr] at htrace ⊢
  exact ⟨rfl, htrace, endCommand_ended rfl rfl, rfl, List.drop_one.symm, rfl, rfl, rfl, rfl⟩

/-! ## SKIP -/

theorem runCommand_skip_observed {s : State} (hr : NoReset 48 s) : Observed .skip s (runCommand .skip s) := by
  rw [runCommand_sentByte (sends_skip rfl) hr]
  exact ⟨rfl, rfl⟩

/-- Settles O19: `WriteByte(CMD_SKIP_ROM)`, then the end of the command. -/
theorem skipSends : Obligations.SkipSends := by
  refine ⟨rfl, fun s hr => ⟨runCommand .skip s, exec_legal rfl nofun, ?_⟩⟩
  have hobs := runCommand_skip_observed hr
  exact ⟨hobs.regs, hobs.trace, runCommand_sentByte_ran (sends_skip rfl) hr⟩

/-! ## RDROM -/

/-- R135: bit `j` of `ROM[i]` is the answer at its wire position, `ROM[7]` coming first. -/
theorem receivedRom_getLsbD (f : Nat → Bool) (rom : Vector Byte 8) (i j : Fin 8) :
    ((receivedRom f 8 0 rom)[i]).getLsbD j = f (8 * (7 - i.val) + j.val) := by
  have hbit := receivedRom_bit f 8 0 rom i j (Nat.le_refl 8)
  rw [if_pos i.isLt, Nat.zero_add] at hbit
  exact hbit

/-- R135: the buffer in wire order with DESC is the answers in the order they came. -/
theorem receivedRom_wireBit (f : Nat → Bool) (rom : Vector Byte 8) (p : Nat) (hp : p < 64) :
    wireBit .desc (receivedRom f 8 0 rom) (p + 1) = f p := by
  have hloc := (locMap.1 ⟨p, hp⟩).1
  rw [wireBit, hloc, romBit, receivedRom_getLsbD]
  congr 1
  simp only [Fin.ofNat]
  omega

theorem runCommand_rdrom_observed {s : State} (hr : NoReset 560 s) : Observed .rdrom s (runCommand .rdrom s) := by
  rw [runCommand_rdrom hr]
  refine ⟨rfl, ?_⟩
  rw [commandEvents, List.reverse_append, List.append_assoc]
  rfl

/-- R121, R228: RDROM is 48 primitives for its command byte, 512 for its payload, and 64 samples. -/
theorem runCommand_rdrom_ran {s : State} (hr : NoReset 560 s) : RanBus 560 64 s (runCommand .rdrom s) := by
  rw [runCommand_rdrom hr]
  exact ⟨endCommand_ended rfl rfl, List.drop_drop, rfl, rfl, rfl, rfl, rfl⟩

/-- Settles O20: the buffer is `receivedRom` of the next 64 answers, read by byte and bit or by wire position. -/
theorem rdromReads : Obligations.RdromReads := by
  refine ⟨rfl, fun s hr => ⟨runCommand .rdrom s, exec_legal rfl nofun, ?_⟩⟩
  have hobs := runCommand_rdrom_observed hr
  have hrom := runCommand_rdrom_rom hr
  refine ⟨?_, fun i j => ?_, fun p h1 h64 => ?_, ?_, runCommand_rdrom_ran hr⟩
  · rw [hrom]
    exact hobs.regs
  · simp only [hrom]
    exact receivedRom_getLsbD s.envAt s.rom i j
  · obtain ⟨q, rfl⟩ := Nat.exists_eq_add_of_le' h1
    rw [hrom]
    exact receivedRom_wireBit s.envAt s.rom q h64
  · rw [List.append_assoc]
    exact hobs.trace

/-! ## MATCH -/

theorem runCommand_matchRom_observed {s : State} (hr : NoReset 432 s) :
    Observed .matchRom s (runCommand .matchRom s) := by
  rw [runCommand_matchRom hr]
  refine ⟨rfl, ?_⟩
  rw [commandEvents, romEvents_bytes, List.reverse_append, List.append_assoc]
  rfl

/-- R120, R228: MATCH is 48 primitives for its command byte, 384 for its payload, and no sample. -/
theorem runCommand_matchRom_ran {s : State} (hr : NoReset 432 s) : RanBus 432 0 s (runCommand .matchRom s) := by
  rw [runCommand_matchRom hr]
  exact ⟨endCommand_ended rfl rfl, List.drop_drop, rfl, rfl, rfl, rfl, rfl⟩

/-- Settles O21: the command byte and the buffer; `romEvents_bytes` gives the buffer's bytes, `ROM[7]` first. -/
theorem matchSends : Obligations.MatchSends := by
  refine ⟨rfl, fun s hr => ⟨runCommand .matchRom s, exec_legal rfl nofun, ?_⟩⟩
  have hobs := runCommand_matchRom_observed hr
  refine ⟨hobs.regs, ?_, romEvents_bytes s.params.slots s.rom, runCommand_matchRom_ran hr⟩
  rw [List.append_assoc]
  exact hobs.trace

/-! ## Read and sent -/

/-- A buffer that holds `f` in wire order is sent as `f` (R136). -/
theorem romEvents_of_wireBit {t : SlotTable} {rom : Vector Byte 8} {f : Nat → Bool}
    (h : ∀ p, 1 ≤ p → p ≤ 64 → wireBit .desc rom p = f (p - 1)) :
    romEvents t rom = (List.range 64).flatMap (fun j => writeEvents t (f j)) := by
  refine List.flatMap_congr fun j hj => ?_
  have hlt : j < 64 := List.mem_range.1 hj
  rw [h (j + 1) (by omega) (by omega), Nat.add_sub_cancel]

/-- Settles O42: RDROM stores and MATCH sends in wire order with DESC, so the bits go out as they came in. -/
theorem romRoundTrip : Obligations.RomRoundTrip := by
  intro s hr
  obtain ⟨t, hread, -, -, hwire, -, hran⟩ := rdromReads.2 s (noReset_mono hr (by omega))
  obtain ⟨-, hrst, -, -, -, -, hparams⟩ := hran
  obtain ⟨u, hsend, hregs, htrace, -⟩ := matchSends.2 t (noReset_drop (m := 560) hr hrst)
  refine ⟨t, u, hread, hsend, congrArg HostRegs.rom hregs, ?_⟩
  rw [htrace, hparams, romEvents_of_wireBit hwire]

end Sys2Proof.Machine
end

section
/-!
SUPPORT. One search pass (44_search_engine.md): the decision at the end of a position's second read (R155 to R158), the
pass the engine makes (R151), what a pass leaves that completes (R160, R162, R163) and one that aborts (R164).
-/

namespace Sys2Proof.Machine

/-! ## The second read of a position -/

/-- R156 to R158 in one: a position marks itself exactly where a discrepancy takes the 0-branch. -/
theorem marksPosition_eq (b1 b2 : Bool) (p last : Nat) (old : Bool) :
    marksPosition b1 b2 p last old = (b1 == b2 && !decidedBit b1 b2 p last old) := by
  unfold marksPosition decidedBit
  by_cases hb : b1 = b2
  · by_cases he : p = last
    · simp [hb, he]
    · by_cases hg : p > last <;> simp [hb, he, hg]
  · simp [show (b1 == b2) = false by simpa using hb]

/-- R151: after a pair that is not (1,1) the decided bit is stored and goes to the write-back. -/
theorem searchDecide_eq {s : State} (h : ¬ (s.b1 = true ∧ s.b2 = true)) :
    searchDecide s =
      let o := s.params.searchOrder
      let old := wireBit o s.rom s.p.toNat
      let v := decidedBit s.b1 s.b2 s.p.toNat s.lastDisc.toNat old
      { s with
        bit := v, stg := .s3, rom := setRomBit s.rom (loc o s.p.toNat).1 (loc o s.p.toNat).2 v
        nd := if marksPosition s.b1 s.b2 s.p.toNat s.lastDisc.toNat old then BitVec.ofNat 8 s.p.toNat else s.nd } := by
  have hc := chooseBit_eq s.b1 s.b2 s.p s.lastDisc s.nd (wireBit s.params.searchOrder s.rom s.p.toNat) h
  unfold wireBit at hc
  unfold searchDecide
  dsimp only
  rw [hc]
  rfl

/-- R153: the last primitive of a position's second read is followed by the decision. -/
theorem step_secondRead {s : State} (hb : s.busy = true) (ho : s.op = .search) (hs : s.stg = .s2) (hp : s.ph = 7)
    (hr : s.rstNow = false) :
    step s = .next (searchDecide { doPrim .atomicEnd (passRst s) with ph := 0, b2 := s.smp }) := by
  have hslot : slotOf s = some .read := by simp [slotOf, ho, hs]
  have hq : (Slot.read.prims s.params.slots)[s.ph.val]? = some .atomicEnd := by rw [hp]; rfl
  rw [step_busy hb, engineStep_last hslot hr hq (by rw [hp]; rfl)]
  simp [slotNext, searchNext, doPrim, ho, hs]

/-- R155 to R158: a position decided by the step that ends its second read. -/
theorem step_decides {s : State} (hb : s.busy = true) (ho : s.op = .search) (hs : s.stg = .s2) (hp : s.ph = 7)
    (hr : s.rstNow = false) (h1 : 1 ≤ s.p.toNat) (h64 : s.p.toNat ≤ 64) (h : ¬ (s.b1 = true ∧ s.smp = true)) :
    let old := wireBit s.params.searchOrder s.rom s.p.toNat
    ∃ t, step s = .next t ∧ t.busy = true ∧ t.stg = .s3 ∧
      t.bit = decidedBit s.b1 s.smp s.p.toNat s.lastDisc.toNat old ∧
      t.nd = (if marksPosition s.b1 s.smp s.p.toNat s.lastDisc.toNat old then BitVec.ofNat 8 s.p.toNat else s.nd) ∧
      ∀ q, 1 ≤ q → q ≤ 64 → wireBit s.params.searchOrder t.rom q =
        if q = s.p.toNat then t.bit else wireBit s.params.searchOrder s.rom q := by
  refine ⟨_, step_secondRead hb ho hs hp hr, ?_⟩
  rw [searchDecide_eq (s := { doPrim .atomicEnd (passRst s) with ph := 0, b2 := s.smp }) h]
  exact ⟨hb, rfl, rfl, rfl, fun q hq hq' => wireBit_setRomBit _ _ _ _ _ ⟨h1, h64⟩ ⟨hq, hq'⟩⟩

/-- Settles O31: a pair that agrees decides its first member, and marks nothing. -/
theorem searchAgreement : Obligations.SearchAgreement := by
  intro s hb ho hs hp hr h1 h64 hne
  obtain ⟨t, hstep, htb, hts, hbit, hnd, hrom⟩ :=
    step_decides hb ho hs hp hr h1 h64 fun ⟨e1, e2⟩ => hne (e1.trans e2.symm)
  have hb1 : t.bit = s.b1 := by rw [hbit, decidedBit, if_pos hne]
  refine ⟨t, hstep, htb, hts, hb1, ?_, hb1 ▸ hrom⟩
  simp [hnd, marksPosition, hne]

/-- Settles O32: on (0,0) the position marks itself exactly where the bit decided is 0; the clauses give that bit. -/
theorem searchDiscrepancy : Obligations.SearchDiscrepancy := by
  intro s hb ho hs hp hr h1 h64 hb1 hb2
  obtain ⟨t, hstep, htb, hts, hbit, hnd, hrom⟩ := step_decides hb ho hs hp hr h1 h64 (by simp [hb1])
  rw [marksPosition_eq, ← hbit] at hnd
  simp only [decidedBit, hb1, hb2, ne_eq, not_true, if_false] at hbit
  have hkept : t.bit = true → t.nd = s.nd := fun h => by simp [hnd, h]
  have hmark : t.bit = false → t.nd.toNat = s.p.toNat := fun h => by simp [hnd, h, hb1, hb2]; omega
  refine ⟨t, hstep, htb, hts, fun heq => ?_, fun hgt => ?_, fun hlt => ?_, hrom⟩
  · have hone : t.bit = true := by rw [hbit, if_pos heq]
    exact ⟨hone, hkept hone⟩
  · have hzero : t.bit = false := by rw [hbit, if_neg (by omega), if_pos hgt]
    exact ⟨hzero, hmark hzero⟩
  · exact ⟨by rw [hbit, if_neg (by omega), if_neg (by omega)], hmark, hkept⟩

/-! ## The pass -/

/-- R165: the longest search is a completed one. -/
theorem noReset_pass {s : State} (hr : NoReset 1456 s) : NoReset (48 + s.pass.events.length) s := by
  have hlen : s.pass.events.length ≤ 22 * 64 := refPass_length_le _ _ _ _ _ _ _ _
  exact noReset_mono hr (by omega)

/-- R165: the command byte and the pass, with what they use up. -/
theorem runCommand_search_ran {s : State} (hr : NoReset (48 + s.pass.events.length) s) :
    RanBus (48 + s.pass.events.length) s.pass.draws s (runCommand .search s) := by
  obtain ⟨-, -, hend, hrst, hans, hsam, hhost, hdata, hpar⟩ := runCommand_search hr
  exact ⟨hend, by rw [hrst]; exact List.drop_drop, hans, hsam, hhost, hdata, hpar⟩

theorem runCommand_search_observed {s : State} (hr : NoReset (48 + s.pass.events.length) s) :
    Observed .search s (runCommand .search s) := by
  obtain ⟨hregs, hlog, -⟩ := runCommand_search hr
  refine ⟨hregs, ?_⟩
  rw [hlog, commandEvents, List.reverse_append, List.append_assoc]
  rfl

/-- R151: the registers a search writes, as its pass leaves them. -/
theorem Observed.search {s t : State} (h : Observed .search s t) :
    t.rom = s.pass.rom ∧ t.newDisc = s.pass.newDisc.getD 0xFF ∧ t.nf = s.pass.newDisc.isNone :=
  ⟨congrArg HostRegs.rom h.regs, congrArg HostRegs.newDisc h.regs, congrArg HostRegs.nf h.regs⟩

/-- Settles O22: the engine's run is the command byte and the reference pass, by `runCommand_search`. -/
theorem searchMakesPass : Obligations.SearchMakesPass := by
  refine ⟨rfl, fun s hr => ⟨runCommand .search s, exec_legal rfl nofun, ?_⟩⟩
  have hobs := runCommand_search_observed hr
  refine ⟨hobs.regs, ?_, runCommand_search_ran hr⟩
  rw [List.append_assoc]
  exact hobs.trace

/-- The bit a pass from `s` decides at position `p`, where it comes so far (R155 to R158). -/
def State.decides (s : State) (p : Nat) : Bool :=
  decidedBit (s.pairAt p).1 (s.pairAt p).2 p s.lastDisc.toNat (s.found p)

/-- A pass from `s` meets a discrepancy at position `p` and takes its 0-branch. -/
def State.ZeroBranch (s : State) (p : Nat) : Prop := s.pairAt p = (false, false) ∧ s.decides p = false

/-- R155: a pair that agrees decides its first member. -/
theorem decides_of_agreed {s : State} {p : Nat} {b : Bool} (h : s.pairAt p = (b, !b)) : s.decides p = b := by
  simp [State.decides, decidedBit, h]

/-- R156: at `LASTDISC` a discrepancy takes the 1-branch. -/
theorem decides_at_last {s : State} {p : Nat} (hp : s.pairAt p = (false, false)) (h : p = s.lastDisc.toNat) :
    s.decides p = true := by
  simp [State.decides, decidedBit, hp, ← h]

/-- R157: after `LASTDISC` a discrepancy takes the 0-branch. -/
theorem decides_after_last {s : State} {p : Nat} (hp : s.pairAt p = (false, false)) (h : s.lastDisc.toNat < p) :
    s.decides p = false := by
  simp [State.decides, decidedBit, hp, h, Nat.ne_of_gt h]

/-- R158: before `LASTDISC` a discrepancy replays the buffer. -/
theorem decides_before_last {s : State} {p : Nat} (hp : s.pairAt p = (false, false)) (h : p < s.lastDisc.toNat) :
    s.decides p = s.found p := by
  simp [State.decides, decidedBit, hp, Nat.ne_of_lt h, Nat.not_lt_of_lt h]

theorem zeroBranch_iff {s : State} {p : Nat} (h : s.pairAt p ≠ (true, true)) :
    s.ZeroBranch p ↔ marksPosition (s.pairAt p).1 (s.pairAt p).2 p s.lastDisc.toNat (s.found p) = true := by
  rw [marksPosition_eq, State.ZeroBranch, State.decides]
  rcases hp : s.pairAt p with ⟨_ | _, _ | _⟩ <;> simp_all

/-! ## A pass that completes -/

/-- R160: a pass that meets no pair (1,1); its new discrepancy is the highest 0-branch it took, or 0. -/
theorem pass_complete {s : State} (h : ∀ p, 1 ≤ p → p ≤ 64 → s.pairAt p ≠ (true, true)) :
    ∃ nd, s.pass.newDisc = some nd ∧ s.pass.draws = 128 ∧ s.pass.events.length = 1408 ∧
      (∀ p, 1 ≤ p → p ≤ 64 → wireBit s.params.searchOrder s.pass.rom p = s.decides p) ∧
      (∀ p, 1 ≤ p → p ≤ 64 → s.ZeroBranch p → p ≤ nd.toNat) ∧
      (nd = 0x00 ∨ 1 ≤ nd.toNat ∧ nd.toNat ≤ 64 ∧ s.ZeroBranch nd.toNat) := by
  obtain ⟨nd, hnd, hdraws, hlen, hbits, hle, hmax⟩ :=
    refPass_complete s.params.searchOrder s.params.slots s.lastDisc.toNat 64 1 s.envAt s.rom 0 (Nat.le_refl 1) rfl
      fun q h1 h64 hq => h q h1 h64 (Prod.ext hq.1 hq.2)
  refine ⟨nd, hnd, hdraws, hlen, fun p h1 h64 => (hbits p h1 h64).trans (if_neg (by omega)),
    fun p h1 h64 hz => hle p h1 h64 ((zeroBranch_iff (h p h1 h64)).1 hz), ?_⟩
  rcases hmax with ⟨he, -⟩ | ⟨h1, h64, hm⟩
  · exact .inl he
  · exact .inr ⟨h1, h64, (zeroBranch_iff (h _ h1 h64)).2 hm⟩

/-- From `s` to `t` a search pass completed. -/
structure PassCompleted (s t : State) : Prop where
  ran : RanBus 1456 128 s t
  nf : t.nf = false
  bits : ∀ p, 1 ≤ p → p ≤ 64 → wireBit s.params.searchOrder t.rom p = s.decides p
  le : ∀ p, 1 ≤ p → p ≤ 64 → s.ZeroBranch p → p ≤ t.newDisc.toNat
  highest : t.newDisc = 0x00 ∨ 1 ≤ t.newDisc.toNat ∧ t.newDisc.toNat ≤ 64 ∧ s.ZeroBranch t.newDisc.toNat

theorem runCommand_search_completed {s : State} (h : ∀ p, 1 ≤ p → p ≤ 64 → s.pairAt p ≠ (true, true))
    (hr : NoReset 1456 s) : PassCompleted s (runCommand .search s) := by
  obtain ⟨nd, hnd, hdraws, hlen, hbits, hle, hmax⟩ := pass_complete h
  have hran := runCommand_search_ran (noReset_pass hr)
  obtain ⟨hrom, hnew, hnf⟩ := (runCommand_search_observed (noReset_pass hr)).search
  rw [hlen, hdraws] at hran
  rw [hnd] at hnew hnf
  change _ = nd at hnew
  exact ⟨hran, hnf, hrom ▸ hbits, hnew ▸ hle, hnew ▸ hmax⟩

/-- Settles O35: a completed pass leaves `NEWDISC` 0 or a position. -/
theorem searchCompletes : Obligations.SearchCompletes := by
  intro s h hr
  have hc := runCommand_search_completed h hr
  refine ⟨runCommand .search s, exec_legal rfl nofun, hc.nf, ?_, hc.ran⟩
  rcases hc.highest with h0 | ⟨-, h64, -⟩
  · simp [h0]
  · exact h64

/-- Settles O38: every position decides the slave's bit, and none is a discrepancy. -/
theorem searchOneSlave : Obligations.SearchOneSlave := by
  intro s w hw hr
  have hc := runCommand_search_completed (fun p h1 h64 => by rw [hw p h1 h64]; cases w p <;> simp) hr
  refine ⟨runCommand .search s, exec_legal rfl nofun, ?_, hc.nf, fun p h1 h64 => ?_⟩
  · refine hc.highest.resolve_right fun ⟨h1, h64, hz⟩ => ?_
    have hpair := (hw _ h1 h64).symm.trans hz.1
    cases hb : w (runCommand .search s).newDisc.toNat <;> simp [hb] at hpair
  · rw [hc.bits p h1 h64, decides_of_agreed (hw p h1 h64)]

/-- R162: from `LASTDISC` 0 no position consults the buffer. -/
theorem decidedBit_fresh (b1 b2 : Bool) {p : Nat} (h1 : 1 ≤ p) (old old' : Bool) :
    decidedBit b1 b2 p 0 old = decidedBit b1 b2 p 0 old' := by
  have hgt : p > 0 := h1
  simp only [decidedBit, if_pos hgt]

/-- R162: from `LASTDISC` 0 the initial buffer has no influence on the new discrepancy and the trace. -/
theorem refPass_fresh (o : ByteOrder) (t : SlotTable) (n p : Nat) (f : Nat → Bool) (rom rom' : Vector Byte 8)
    (nd : Byte) (hp : 1 ≤ p) :
    (refPass o t 0 n p f rom nd).newDisc = (refPass o t 0 n p f rom' nd).newDisc ∧
    (refPass o t 0 n p f rom nd).events = (refPass o t 0 n p f rom' nd).events := by
  induction n generalizing p f rom rom' nd with
  | zero => exact ⟨rfl, rfl⟩
  | succ n ih =>
    by_cases h : f 0 = true ∧ f 1 = true
    · rw [refPass_abort _ _ _ _ _ _ _ _ h.1 h.2, refPass_abort _ _ _ _ _ _ _ _ h.1 h.2]
      exact ⟨rfl, rfl⟩
    · rw [refPass_succ _ _ _ _ _ _ _ _ h, refPass_succ _ _ _ _ _ _ _ _ h]
      have hv := decidedBit_fresh (f 0) (f 1) hp (wireBit o rom p) (wireBit o rom' p)
      simp only [marksPosition_eq, hv]
      obtain ⟨hdisc, hevents⟩ := ih (p + 1) (fun j => f (j + 2))
        (setRomBit rom (loc o p).1 (loc o p).2 (decidedBit (f 0) (f 1) p 0 (wireBit o rom' p)))
        (setRomBit rom' (loc o p).1 (loc o p).2 (decidedBit (f 0) (f 1) p 0 (wireBit o rom' p)))
        (if (f 0 == f 1 && !decidedBit (f 0) (f 1) p 0 (wireBit o rom' p)) = true then BitVec.ofNat 8 p else nd)
        (by omega)
      exact ⟨hdisc, by rw [hevents]⟩

/-- R162: from `LASTDISC` 0 two buffers give the same decisions. -/
theorem decides_fresh_rom {s : State} (hl : s.lastDisc = 0x00) (r : Vector Byte 8) {p : Nat} (h1 : 1 ≤ p) :
    ({ s with rom := r } : State).decides p = s.decides p := by
  have hlast : s.lastDisc.toNat = 0 := by rw [hl]; rfl
  simp only [State.decides, hlast]
  exact decidedBit_fresh _ _ h1 _ _

theorem pass_fresh {s : State} (hl : s.lastDisc = 0x00) (r : Vector Byte 8) :
    ({ s with rom := r } : State).pass.newDisc = s.pass.newDisc ∧
    ({ s with rom := r } : State).pass.events = s.pass.events := by
  have hlast : s.lastDisc.toNat = 0 := by rw [hl]; rfl
  simp only [State.pass, hlast]
  exact refPass_fresh _ _ 64 1 s.envAt r s.rom 0 (Nat.le_refl 1)

/-- Settles O36: `NEWDISC` is the highest 0-branch, every discrepancy is one, and no position consults the buffer. -/
theorem searchFreshStart : Obligations.SearchFreshStart := by
  intro s r hl h hr
  have hs := runCommand_search_completed h hr
  have hu := runCommand_search_completed (s := { s with rom := r }) h hr
  have hobs := runCommand_observed (i := .search) rfl hr
  have hobs' := runCommand_observed (i := .search) (s := { s with rom := r }) rfl hr
  obtain ⟨-, hnew, -⟩ := hobs.search
  obtain ⟨-, hnew', -⟩ := hobs'.search
  obtain ⟨hdisc, hevents⟩ := pass_fresh hl r
  refine ⟨runCommand .search s, runCommand .search { s with rom := r }, exec_legal rfl nofun, exec_legal rfl nofun,
    ?_, ?_, ?_, fun p h1 h64 hp => ?_, ?_⟩
  · refine wire_ext s.params.searchOrder fun p h1 h64 => ?_
    rw [hs.bits p h1 h64, ← decides_fresh_rom hl r h1]
    exact hu.bits p h1 h64
  · rw [hnew, hnew', hdisc]
  · rw [hobs.trace, hobs'.trace, commandEvents, commandEvents, hevents]
    rfl
  · have hd := decides_after_last hp (by rw [hl]; exact h1)
    exact ⟨(hs.bits p h1 h64).trans hd, hs.le p h1 h64 ⟨hp, hd⟩⟩
  · exact hs.highest.imp_right fun ⟨_, _, hz⟩ => hz.1

/-- Settles O37: `NEWDISC` is the highest 0-branch, and every discrepancy replays the buffer. -/
theorem searchBeyondLast : Obligations.SearchBeyondLast := by
  intro s hl h hr
  have hc := runCommand_search_completed h hr
  refine ⟨runCommand .search s, exec_legal rfl nofun, fun p h1 h64 hp => ?_, ?_⟩
  · have hd := decides_before_last hp (by omega)
    exact ⟨(hc.bits p h1 h64).trans hd, fun hz => hc.le p h1 h64 ⟨hp, hd.trans hz⟩⟩
  · exact hc.highest.imp_right fun ⟨_, h64, hp, hz⟩ => ⟨hp, (decides_before_last hp (by omega)).symm.trans hz⟩

/-! ## A pass that aborts -/

/-- A slot opens one critical section, so a pass's sections are counted by its primitives and samples (R107, R108). -/
theorem refPass_sections (o : ByteOrder) (t : SlotTable) (last n p : Nat) (f : Nat → Bool) (rom : Vector Byte 8)
    (nd : Byte) :
    6 * (refPass o t last n p f rom nd).events.count .atomBegin + 2 * (refPass o t last n p f rom nd).draws =
      (refPass o t last n p f rom nd).events.length := by
  have hread : ∀ v, (readEvents t v).count .atomBegin = 1 ∧ (readEvents t v).length = 8 := fun _ => ⟨rfl, rfl⟩
  have hwrite : ∀ v, (writeEvents t v).count .atomBegin = 1 ∧ (writeEvents t v).length = 6 := fun _ => ⟨rfl, rfl⟩
  induction n generalizing p f rom nd with
  | zero => rfl
  | succ n ih =>
    by_cases h : f 0 = true ∧ f 1 = true
    · rw [refPass_abort _ _ _ _ _ _ _ _ h.1 h.2]
      simp [hread]
    · rw [refPass_succ _ _ _ _ _ _ _ _ h]
      have hrest := ih (p + 1) (fun j => f (j + 2))
        (setRomBit rom (loc o p).1 (loc o p).2 (decidedBit (f 0) (f 1) p last (wireBit o rom p)))
        (if marksPosition (f 0) (f 1) p last (wireBit o rom p) then BitVec.ofNat 8 p else nd)
      simp only [List.count_append, List.length_append, hread, hwrite]
      omega

/-- R120: a byte sent is eight slots. -/
theorem byteEvents_sections (t : SlotTable) (b : Byte) : (byteEvents t b).count .atomBegin = 8 := rfl

/-- R164: the pass of a search whose first pair (1,1) is at `P`. -/
theorem pass_aborted {s : State} {P : Nat} (h1 : 1 ≤ P) (h64 : P ≤ 64)
    (h : ∀ p, 1 ≤ p → p < P → s.pairAt p ≠ (true, true)) (hP : s.pairAt P = (true, true)) :
    s.pass.newDisc = none ∧ s.pass.draws = 2 * P ∧ s.pass.events.length = (P - 1) * 22 + 16 ∧
      ∀ q, 1 ≤ q → q ≤ 64 → wireBit s.params.searchOrder s.pass.rom q =
        if q < P then s.decides q else s.found q := by
  have h11 : s.envAt (2 * (P - 1)) = true ∧ s.envAt (2 * (P - 1) + 1) = true := Prod.ext_iff.1 hP
  obtain ⟨hnone, hdraws, hlen, hbits⟩ :=
    refPass_aborts s.params.searchOrder s.params.slots s.lastDisc.toNat 64 1 P s.envAt s.rom 0 (Nat.le_refl 1) rfl h1
      h64 (fun q hq hqP hpair => h q hq hqP (Prod.ext hpair.1 hpair.2)) h11
  refine ⟨hnone, hdraws.trans (by omega), hlen.trans (by omega), fun q hq hq64 => (hbits q hq hq64).trans ?_⟩
  simp only [hq, true_and]
  rfl

/-- Settles O33: the aborted pass, its slots counted by their critical sections. -/
theorem searchAborts : Obligations.SearchAborts := by
  intro s P h1 h64 h hP hr
  obtain ⟨hnone, hdraws, hlen, hbits⟩ := pass_aborted h1 h64 h hP
  have hlen' : 48 + s.pass.events.length = 48 + (P - 1) * 22 + 16 := by omega
  obtain ⟨t, hexec, hregs, htrace, hran⟩ := searchMakesPass.2 s (by rwa [hlen'])
  rw [hnone] at hregs
  rw [hlen', hdraws] at hran
  have hrom : t.rom = s.pass.rom := congrArg HostRegs.rom hregs
  refine ⟨t, hexec, congrArg HostRegs.newDisc hregs, congrArg HostRegs.nf hregs, congrArg HostRegs.lastDisc hregs,
    hrom, fun q hPq hq64 => ?_, htrace, ?_, hran⟩
  · rw [hrom, hbits q (by omega) hq64, if_neg (by omega)]
    rfl
  · have hsections : 6 * s.pass.events.count .atomBegin + 2 * s.pass.draws = s.pass.events.length :=
      refPass_sections _ _ _ _ _ _ _ _
    rw [List.count_append, byteEvents_sections]
    omega

/-- Settles O34: the pass aborts at position 1, before it has written a bit. -/
theorem searchEmptyBus : Obligations.SearchEmptyBus := by
  intro s h0 h1 hr
  have hpass : s.pass =
      ⟨s.rom, none, readEvents s.params.slots (s.envAt 0) ++ readEvents s.params.slots (s.envAt 1), 2⟩ :=
    refPass_abort _ _ _ _ _ _ _ _ h0 h1
  have hlen : 48 + s.pass.events.length = 64 := by rw [hpass]; rfl
  obtain ⟨t, hexec, hregs, -, hran⟩ := searchMakesPass.2 s (by rwa [hlen])
  rw [hlen] at hran
  rw [hpass] at hregs hran
  exact ⟨t, hexec, hregs, hran⟩

end Sys2Proof.Machine
end

section
/-!
SUPPORT. The end of a run of the engine (44_search_engine.md R165, 70_reset_and_hazards.md R224): a bound on the
primitives left, lowered by every step of the engine from any state, reachable or not.
-/

namespace Sys2Proof.Machine

/-- A bound on the primitives of the slots after the one at the control point (R35, R165). -/
def laterPrims (s : State) : Nat :=
  match s.op with
  | .idle | .wbit | .rbit | .reset => 0
  | .wbyte | .skip => 6 * (7 - s.k.val)
  | .rbyte => 8 * (7 - s.k.val)
  | .rdrom =>
    match s.stg with
    | .s0 => 6 * (7 - s.k.val) + 512
    | .s1 | .s2 | .s3 => 8 * (7 - s.k.val) + 64 * s.i.val
  | .matchRom =>
    match s.stg with
    | .s0 => 6 * (7 - s.k.val) + 384
    | .s1 | .s2 | .s3 => 6 * (7 - s.k.val) + 48 * s.i.val
  | .search =>
    match s.stg with
    | .s0 => 6 * (7 - s.k.val) + 1408
    | .s1 => 14 + 22 * (64 - s.p.toNat)
    | .s2 => 6 + 22 * (64 - s.p.toNat)
    | .s3 => 22 * (64 - s.p.toNat)

/-- A bound on the primitives left: what is left of the slot, at least one step, and the later slots. -/
def primsLeft (s : State) : Nat := (slotLengthAt s - 1 - s.ph.val) + 1 + laterPrims s

theorem laterPrims_lt (s : State) : laterPrims s < primsLeft s := by
  unfold primsLeft
  omega

/-- The engine rests in `t`, or no more than `n` primitives are left. -/
def LeftWithin (n : Nat) (t : State) : Prop := t.busy = true → primsLeft t ≤ n

/-- A control point inside a byte: `len` primitives a slot, and `c` primitives after the byte (R120, R121). -/
structure InByte (len c : Nat) (s : State) : Prop where
  pos : 0 < len
  slot : slotLengthAt s = len
  later : ∀ sh k, laterPrims { s with sh := sh, k := k } = len * (7 - k.val) + c

theorem InByte.laterPrims_eq {len c : Nat} {s : State} (h : InByte len c s) :
    laterPrims s = len * (7 - s.k.val) + c := h.later s.sh s.k

/-- After the eighth bit only what follows the byte is left. -/
theorem InByte.leftWithin_last {len c : Nat} {s t : State} (h : InByte len c s) (ht : LeftWithin c t) :
    LeftWithin (laterPrims s) t := by
  intro hb
  have hle := ht hb
  rw [h.laterPrims_eq]
  omega

/-- After an earlier bit one slot less of the byte is left. -/
theorem InByte.leftWithin_next {len c : Nat} {s : State} (h : InByte len c s) (hk : s.k ≠ 7) (sh : Byte) :
    LeftWithin (laterPrims s) { s with sh := sh, k := s.k + 1 } := by
  intro _
  have hlt : s.k.val < 7 := Nat.lt_of_le_of_ne (Nat.le_of_lt_succ s.k.isLt) fun h7 => hk (Fin.ext h7)
  have hsucc : (s.k + 1).val = s.k.val + 1 := by rw [Fin.val_add]; simp; omega
  have hslot : slotLengthAt { s with sh := sh, k := s.k + 1 } = len := h.slot ▸ slotLengthAt_congr rfl rfl
  have hbits : len * (7 - s.k.val) = len * (7 - (s.k.val + 1)) + len := by
    rw [show 7 - s.k.val = 7 - (s.k.val + 1) + 1 by omega, Nat.mul_succ]
  have hpos := h.pos
  rw [primsLeft, hslot, h.later, h.laterPrims_eq, hsucc, hbits]
  omega

theorem sendNext_leftWithin {next : State → State} {c : Nat} {s : State} (h : InByte 6 c s)
    (hnext : LeftWithin c (next { s with sh := shiftOut s.sh, k := 0 })) :
    LeftWithin (laterPrims s) (sendNext next s) := by
  unfold sendNext
  split
  next => exact h.leftWithin_last hnext
  next hk => exact h.leftWithin_next hk _

theorem recvNext_leftWithin {next : State → State} {c : Nat} {s : State} (h : InByte 8 c s)
    (hnext : LeftWithin c (next { s with sh := shiftIn s.sh s.smp, k := 0 })) :
    LeftWithin (laterPrims s) (recvNext next s) := by
  unfold recvNext
  split
  next => exact h.leftWithin_last hnext
  next hk => exact h.leftWithin_next hk _

/-- R135: after the command byte eight bytes are left, after each byte received one less. -/
theorem rdromNext_leftWithin {s : State} (ho : s.op = .rdrom) : LeftWithin (laterPrims s) (rdromNext s) := by
  unfold rdromNext
  split
  case h_1 hs =>
    refine sendNext_leftWithin (c := 512) ⟨by omega, ?_, fun _ _ => ?_⟩ fun _ => ?_
    · simp [slotLengthAt, slotOf, slotLength, sendSlot, ho, hs]
    · simp [laterPrims, ho, hs]
    · simp [primsLeft, slotLengthAt, slotOf, slotLength, laterPrims, ho]
  all_goals
    rename_i hs
    refine recvNext_leftWithin (c := 64 * s.i.val) ⟨by omega, ?_, fun _ _ => ?_⟩ ?_
    · simp [slotLengthAt, slotOf, slotLength, ho, hs]
    · simp [laterPrims, ho, hs]
    · dsimp only
      split
      next => exact nofun
      next hi =>
        intro _
        have hpred := Fin.val_sub_one_of_ne_zero hi
        have hpos : 0 < s.i.val := Fin.pos_of_ne_zero hi
        simp [primsLeft, slotLengthAt, slotOf, slotLength, laterPrims, ho, hs]
        omega

/-- R136: after the command byte eight bytes are left, after each byte sent one less. -/
theorem matchNext_leftWithin {s : State} (ho : s.op = .matchRom) : LeftWithin (laterPrims s) (matchNext s) := by
  unfold matchNext
  split
  case h_1 hs =>
    refine sendNext_leftWithin (c := 384) ⟨by omega, ?_, fun _ _ => ?_⟩ fun _ => ?_
    · simp [slotLengthAt, slotOf, slotLength, sendSlot, ho]
    · simp [laterPrims, ho, hs]
    · simp [primsLeft, slotLengthAt, slotOf, slotLength, sendSlot, laterPrims, ho]
  all_goals
    rename_i hs
    refine sendNext_leftWithin (c := 48 * s.i.val) ⟨by omega, ?_, fun _ _ => ?_⟩ ?_
    · simp [slotLengthAt, slotOf, slotLength, sendSlot, ho]
    · simp [laterPrims, ho, hs]
    · dsimp only
      split
      next => exact nofun
      next hi =>
        intro _
        have hpred := Fin.val_sub_one_of_ne_zero hi
        have hpos : 0 < s.i.val := Fin.pos_of_ne_zero hi
        simp [primsLeft, slotLengthAt, slotOf, slotLength, sendSlot, laterPrims, ho, hs]
        omega

/-- R165: after the command byte 64 positions of 22 primitives are left, and each slot of a position leaves less. -/
theorem searchNext_leftWithin {s : State} (ho : s.op = .search) : LeftWithin (laterPrims s) (searchNext s) := by
  unfold searchNext
  split
  next hs =>
    refine sendNext_leftWithin (c := 1408) ⟨by omega, ?_, fun _ _ => ?_⟩ fun _ => ?_
    · simp [slotLengthAt, slotOf, slotLength, sendSlot, ho, hs]
    · simp [laterPrims, ho, hs]
    · simp [primsLeft, slotLengthAt, slotOf, slotLength, laterPrims, ho]
  next hs =>
    intro _
    simp [primsLeft, slotLengthAt, slotOf, slotLength, laterPrims, ho, hs]
    omega
  next hs =>
    unfold searchDecide
    dsimp only
    split
    · exact nofun
    · intro _
      simp [primsLeft, slotLengthAt, slotOf, slotLength, laterPrims, ho, hs]
      omega
  next hs =>
    split
    next hlt =>
      intro _
      have hp : s.p.toNat < 64 := hlt
      have hsucc : (s.p + 1).toNat = s.p.toNat + 1 := by bv_omega
      simp only [primsLeft, slotLengthAt, slotOf, slotLength, laterPrims, ho, hs, hsucc, Option.elim_some]
      omega
    next => exact nofun

/-- What follows a slot leaves no more than the later slots. -/
theorem slotNext_leftWithin (s : State) : LeftWithin (laterPrims s) (slotNext s) := by
  cases ho : s.op <;> simp only [slotNext, ho]
  case idle => exact nofun
  case wbit => exact nofun
  case rbit => exact nofun
  case wbyte =>
    refine sendNext_leftWithin (c := 0) ⟨by omega, ?_, fun _ _ => ?_⟩ nofun <;>
      simp [slotLengthAt, slotOf, slotLength, sendSlot, laterPrims, ho]
  case rbyte =>
    refine recvNext_leftWithin (c := 0) ⟨by omega, ?_, fun _ _ => ?_⟩ nofun <;>
      simp [slotLengthAt, slotOf, slotLength, laterPrims, ho]
  case reset => exact fun hb => absurd ((finishPresence_busy s).symm.trans hb) nofun
  case skip =>
    refine sendNext_leftWithin (c := 0) ⟨by omega, ?_, fun _ _ => ?_⟩ nofun <;>
      simp [slotLengthAt, slotOf, slotLength, sendSlot, laterPrims, ho]
  case rdrom => exact rdromNext_leftWithin ho
  case matchRom => exact matchNext_leftWithin ho
  case search => exact searchNext_leftWithin ho

/-- A primitive moves no counter, so the later slots stay. -/
theorem primAt_laterPrims (slot : Slot) (s : State) (x : Fin 8) :
    laterPrims { primAt slot s with ph := x } = laterPrims s := by
  unfold primAt
  split
  next q _ => cases q <;> rfl
  next => rfl

/-- R224: every primitive leaves one less, or the engine rests. -/
theorem enginePrim_primsLeft {s : State} (hb : (enginePrim s).busy = true) :
    primsLeft (enginePrim s) < primsLeft s := by
  cases hs : slotOf s with
  | none =>
    have hop : s.op = .idle := by_contra fun h => by
      have hsome := (slotOf_isSome_iff s).2 h
      simp [hs] at hsome
    simp [enginePrim, hs, slotNext, hop] at hb
  | some slot =>
    obtain ⟨-, hop', hstg'⟩ := primAt_sequencer slot s
    have hlen := slotLengthAt_of_slot hs
    have hmax := (slotLength_bounds slot).2
    rw [enginePrim_of_slot hs] at hb ⊢
    split
    next hlt =>
      have hph : (s.ph + 1).val = s.ph.val + 1 := by rw [Fin.val_add]; simp; omega
      have hlen' : slotLengthAt { primAt slot s with ph := s.ph + 1 } = slotLength slot :=
        (slotLengthAt_congr hop' hstg').trans hlen
      rw [primsLeft, primsLeft, primAt_laterPrims, hlen', hlen]
      simp only [hph]
      omega
    next hge =>
      rw [if_neg hge] at hb
      have hleft := slotNext_leftWithin { primAt slot s with ph := 0 } hb
      rw [primAt_laterPrims] at hleft
      exact Nat.lt_of_le_of_lt hleft (laterPrims_lt s)

/-- R224: a run of the engine as long as the bound ends at rest, cut by a block reset or not. -/
theorem runEngine_rests {n : Nat} {s : State} (h : LeftWithin n s) : (runEngine n s).busy = false := by
  induction n generalizing s with
  | zero =>
    refine Bool.eq_false_iff.2 fun hb => ?_
    exact absurd (h hb) (Nat.not_le_of_lt (Nat.zero_lt_of_lt (laterPrims_lt s)))
  | succ n ih =>
    unfold runEngine
    split
    next hb =>
      have hle := h hb
      refine ih fun hb' => ?_
      cases hr : s.rstNow with
      | true => simp [engineStep_of_rst hr, blockReset, State.reset] at hb'
      | false =>
        rw [engineStep_of_not_rst hr] at hb' ⊢
        have hlt : primsLeft (enginePrim (passRst s)) < primsLeft s := enginePrim_primsLeft hb'
        omega
    next hb => exact Bool.eq_false_iff.2 hb

/-- R165: the later slots of a search's command byte are the most there are; its own slot is a write slot. -/
theorem laterPrims_le (s : State) : laterPrims s ≤ 1422 ∨ slotLengthAt s = 6 ∧ laterPrims s ≤ 1450 := by
  by_cases h : s.op = .search ∧ s.stg = .s0
  · obtain ⟨ho, hs⟩ := h
    right
    constructor
    · simp [slotLengthAt, slotOf, sendSlot, slotLength, ho, hs]
    · simp [laterPrims, ho, hs]
      omega
  · left
    have hi := s.i.isLt
    unfold laterPrims
    cases ho : s.op
    case rdrom | matchRom => cases s.stg <;> dsimp only <;> omega
    case search => cases hs : s.stg <;> simp_all <;> omega
    all_goals dsimp only; omega

theorem slotLengthAt_le (s : State) : slotLengthAt s ≤ 8 := by
  cases h : slotOf s with
  | none => simp [slotLengthAt, h]
  | some slot => exact slotLengthAt_of_slot h ▸ (slotLength_bounds slot).2

/-- R165: no state has more primitives left than a search that begins. -/
theorem primsLeft_le (s : State) : primsLeft s ≤ 1456 := by
  have hslot := slotLengthAt_le s
  unfold primsLeft
  rcases laterPrims_le s with h | ⟨h6, h⟩ <;> omega

/-- Settles O52: no state has more than 1456 primitives left. -/
theorem engineTerminates : Obligations.EngineTerminates := fun s => runEngine_rests fun _ => primsLeft_le s

end Sys2Proof.Machine
end

section
/-!
SUPPORT. Enumeration against ideal slaves (44_search_engine.md R159, R161, R166): a pass they answer completes on one of
them, its 0-branches are that slave's open branches, and from `LASTDISC` 0 or a cursor that slave is the first or next.
-/

namespace Sys2Proof.Machine

/-! ## Wire sequences that agree -/

theorem AgreeBelow.refl (p : Nat) (w : Nat → Bool) : AgreeBelow p w w := fun _ _ _ => rfl

theorem AgreeBelow.symm {p : Nat} {w v : Nat → Bool} (h : AgreeBelow p w v) : AgreeBelow p v w :=
  fun q h1 hq => (h q h1 hq).symm

theorem AgreeBelow.trans {p : Nat} {u v w : Nat → Bool} (h : AgreeBelow p u v) (h' : AgreeBelow p v w) :
    AgreeBelow p u w := fun q h1 hq => (h q h1 hq).trans (h' q h1 hq)

theorem AgreeBelow.mono {p q : Nat} {w v : Nat → Bool} (h : AgreeBelow p w v) (hle : q ≤ p) : AgreeBelow q w v :=
  fun r h1 hr => h r h1 (Nat.lt_of_lt_of_le hr hle)

theorem AgreeBelow.succ {p : Nat} {w v : Nat → Bool} (h : AgreeBelow p w v) (hp : w p = v p) :
    AgreeBelow (p + 1) w v := fun q h1 hq => by
  rcases Nat.lt_succ_iff_lt_or_eq.1 hq with hlt | rfl
  · exact h q h1 hlt
  · exact hp

/-! ## What ideal slaves answer -/

section
variable {slaves : List (Nat → Bool)} {s : State} {g v : Nat → Bool} {p : Nat}

/-- R159: a discrepancy at `p` is two slaves still in the pass that differ there. -/
theorem IdealPass.discrepancy_iff (h : IdealPass slaves s g) (h1 : 1 ≤ p) (h64 : p ≤ 64) :
    s.pairAt p = (false, false) ↔ ∀ b, ∃ v ∈ slaves, AgreeBelow p g v ∧ v p = b := by
  obtain ⟨hfst, hsnd⟩ := h p h1 h64
  rw [Prod.ext_iff, ← Bool.not_eq_true, ← Bool.not_eq_true, hfst, hsnd, Bool.forall_bool]
  push Not
  simp only [ne_eq, Bool.not_eq_true, Bool.not_eq_false]

/-- Where it is no discrepancy, the pair is the bit of any slave still in the pass, and its complement. -/
theorem IdealPass.agreed (h : IdealPass slaves s g) (h1 : 1 ≤ p) (h64 : p ≤ 64) (hp : s.pairAt p ≠ (false, false))
    (hv : v ∈ slaves) (hvg : AgreeBelow p g v) : s.pairAt p = (v p, !v p) := by
  obtain ⟨hfst, hsnd⟩ := h p h1 h64
  rcases hpair : s.pairAt p with ⟨_ | _, _ | _⟩
  · exact absurd hpair hp
  · rw [hsnd.1 (by rw [hpair]) v hv hvg]; rfl
  · rw [hfst.1 (by rw [hpair]) v hv hvg]; rfl
  · have ht := hfst.1 (by rw [hpair]) v hv hvg
    have hf := hsnd.1 (by rw [hpair]) v hv hvg
    exact absurd (ht.symm.trans hf) nofun

/-- While a slave is in the pass, the pair is not (1,1) and some slave in the pass carries the bit decided. -/
theorem IdealPass.carried (h : IdealPass slaves s g) (h1 : 1 ≤ p) (h64 : p ≤ 64) (hv : v ∈ slaves)
    (hvg : AgreeBelow p g v) :
    s.pairAt p ≠ (true, true) ∧ ∃ u ∈ slaves, AgreeBelow p g u ∧ u p = s.decides p := by
  by_cases hp : s.pairAt p = (false, false)
  · exact ⟨by rw [hp]; nofun, (h.discrepancy_iff h1 h64).1 hp _⟩
  · have hpair := h.agreed h1 h64 hp hv hvg
    refine ⟨?_, v, hv, hvg, (decides_of_agreed hpair).symm⟩
    rw [hpair]
    cases v p <;> nofun

end

/-! ## The pass they answer completes -/

/-- R151: the bits of a pass before its first pair (1,1) are those decided, whether it completes or aborts. -/
theorem pass_wireBit {s : State} {P q : Nat} (h : ∀ p, 1 ≤ p → p < P → s.pairAt p ≠ (true, true)) (h1 : 1 ≤ q)
    (hqP : q < P) (h64 : q ≤ 64) : wireBit s.params.searchOrder s.pass.rom q = s.decides q := by
  by_cases hall : ∃ p, 1 ≤ p ∧ p ≤ 64 ∧ s.pairAt p = (true, true)
  · obtain ⟨hf1, hf64, hf⟩ := Nat.find_spec hall
    have hbefore : ∀ p, 1 ≤ p → p < Nat.find hall → s.pairAt p ≠ (true, true) := fun p hp1 hlt hp =>
      Nat.find_min hall hlt ⟨hp1, by omega, hp⟩
    have hP : P ≤ Nat.find hall := Nat.le_of_not_lt fun hlt => h _ hf1 hlt hf
    obtain ⟨-, -, -, hbits⟩ := pass_aborted hf1 hf64 hbefore hf
    rw [hbits q h1 h64, if_pos (by omega)]
  · obtain ⟨-, -, -, -, hbits, -⟩ := pass_complete fun p hp1 hp64 hp => hall ⟨p, hp1, hp64, hp⟩
    exact hbits q h1 h64

theorem runCommand_search_found {s : State} (hr : NoReset 1456 s) (q : Nat) :
    (runCommand .search s).found q = wireBit s.params.searchOrder s.pass.rom q := by
  obtain ⟨-, -, -, -, -, -, hparams⟩ := runCommand_search_ran (noReset_pass hr)
  obtain ⟨hrom, -, -⟩ := (runCommand_search_observed (noReset_pass hr)).search
  rw [State.found, hparams, hrom]

/-- R159: as far as a pass has come, it met no pair (1,1), and some slave carries every bit it wrote. -/
theorem IdealPass.reaches {slaves : List (Nat → Bool)} {s : State} (hr : NoReset 1456 s)
    (h : IdealPass slaves s (runCommand .search s).found) (hne : slaves ≠ []) {n : Nat} (hn : n ≤ 64) :
    (∀ p, 1 ≤ p → p ≤ n → s.pairAt p ≠ (true, true)) ∧
    ∃ u ∈ slaves, AgreeBelow (n + 1) (runCommand .search s).found u := by
  induction n with
  | zero =>
    obtain ⟨u, hu⟩ := List.exists_mem_of_ne_nil slaves hne
    exact ⟨fun p h1 h0 => absurd (Nat.le_trans h1 h0) (by decide), u, hu, fun q h1 hq => absurd h1 (by omega)⟩
  | succ n ih =>
    obtain ⟨hpairs, v, hv, hvg⟩ := ih (by omega)
    obtain ⟨hpair, u, hu, hug, hbit⟩ := h.carried (p := n + 1) (by omega) hn hv hvg
    have hpairs' : ∀ p, 1 ≤ p → p ≤ n + 1 → s.pairAt p ≠ (true, true) := fun p h1 hp =>
      (Nat.le_or_eq_of_le_succ hp).elim (hpairs p h1) fun he => he ▸ hpair
    refine ⟨hpairs', u, hu, hug.succ ?_⟩
    rw [hbit, runCommand_search_found hr]
    exact pass_wireBit (P := n + 2) (fun p h1 hp => hpairs' p h1 (by omega)) (by omega) (by omega) hn

/-- From `s` to `t` a pass answered by `slaves` completed on the slave `u`. -/
structure Resolved (slaves : List (Nat → Bool)) (s t : State) (u : Nat → Bool) : Prop where
  mem : u ∈ slaves
  completed : PassCompleted s t
  found : AgreeBelow 65 t.found u
  decides : ∀ p, 1 ≤ p → p ≤ 64 → u p = s.decides p
  ideal : IdealPass slaves s u

/-- R159: a pass that at least one ideal slave answers completes on one of them. -/
theorem IdealPass.resolved {slaves : List (Nat → Bool)} {s : State} (hr : NoReset 1456 s)
    (h : IdealPass slaves s (runCommand .search s).found) (hne : slaves ≠ []) :
    ∃ u, Resolved slaves s (runCommand .search s) u := by
  obtain ⟨hpairs, u, hu, hfound⟩ := h.reaches hr hne (Nat.le_refl 64)
  have hc := runCommand_search_completed hpairs hr
  refine ⟨u, hu, hc, hfound, fun p h1 h64 => ?_, fun p h1 h64 => ?_⟩
  · rw [← hfound p h1 (by omega), runCommand_search_found hr]
    exact pass_wireBit (P := 65) (fun q hq hlt => hpairs q hq (by omega)) h1 (by omega) h64
  · have hiff : ∀ w, AgreeBelow p u w ↔ AgreeBelow p (runCommand .search s).found w := fun w =>
      ⟨(hfound.mono (by omega)).trans, (hfound.mono (by omega)).symm.trans⟩
    simp only [hiff]
    exact h p h1 h64

/-! ## Which slave, and the cursor beside it -/

section
variable {slaves : List (Nat → Bool)} {s t : State} {u v w : Nat → Bool} {p : Nat}

/-- Two slaves that part at a position make a discrepancy there. -/
theorem Resolved.discrepancy (h : Resolved slaves s t u) (h1 : 1 ≤ p) (h64 : p ≤ 64) (hv : v ∈ slaves)
    (hw : w ∈ slaves) (hvu : AgreeBelow p u v) (hwu : AgreeBelow p u w) (hv0 : v p = false) (hw1 : w p = true) :
    s.pairAt p = (false, false) :=
  (h.ideal.discrepancy_iff h1 h64).2 fun
    | false => ⟨v, hv, hvu, hv0⟩
    | true => ⟨w, hw, hwu, hw1⟩

/-- R166: the open branches beside the slave found are the 0-branches the pass took. -/
theorem Resolved.openBranch_iff (h : Resolved slaves s t u) :
    OpenBranch slaves u p ↔ 1 ≤ p ∧ p ≤ 64 ∧ s.ZeroBranch p := by
  constructor
  · rintro ⟨h1, h64, hu0, v, hv, hvu, hv1⟩
    refine ⟨h1, h64, h.discrepancy h1 h64 h.mem hv (AgreeBelow.refl p u) hvu hu0 hv1, ?_⟩
    rw [← h.decides p h1 h64, hu0]
  · rintro ⟨h1, h64, hp, hd⟩
    obtain ⟨v, hv, hvu, hv1⟩ := (h.ideal.discrepancy_iff h1 h64).1 hp true
    exact ⟨h1, h64, (h.decides p h1 h64).trans hd, v, hv, hvu, hv1⟩

/-- R157, R166: the cursor a pass returns is the highest open branch beside the slave found. -/
theorem Resolved.isCursor (h : Resolved slaves s t u) : IsCursor slaves u t.newDisc.toNat := by
  refine ⟨fun p hp => ?_, ?_⟩
  · obtain ⟨h1, h64, hz⟩ := h.openBranch_iff.1 hp
    exact h.completed.le p h1 h64 hz
  · rcases h.completed.highest with h0 | hz
    · exact .inl (by rw [h0]; rfl)
    · exact .inr (h.openBranch_iff.2 hz)

/-- R157: a slave before the one found parts from it no later than `LASTDISC`. -/
theorem Resolved.parts_le (h : Resolved slaves s t u) (h1 : 1 ≤ p) (h64 : p ≤ 64) (hv : v ∈ slaves)
    (hvu : AgreeBelow p u v) (hv0 : v p = false) (hu1 : u p = true) : p ≤ s.lastDisc.toNat := by
  refine Nat.le_of_not_lt fun hlt => ?_
  have hp := h.discrepancy h1 h64 hv h.mem hvu (AgreeBelow.refl p u) hv0 hu1
  rw [h.decides p h1 h64, decides_after_last hp hlt] at hu1
  cases hu1

/-- R162, R166: from `LASTDISC` 0 the slave found is the first. -/
theorem Resolved.first (h : Resolved slaves s t u) (hl : s.lastDisc = 0x00) (hv : v ∈ slaves) : ¬ LexBefore v u := by
  rintro ⟨p, h1, h64, hvu, hv0, hu1⟩
  have hle := h.parts_le h1 h64 hv hvu.symm hv0 hu1
  rw [hl] at hle
  exact absurd (Nat.le_trans h1 hle) (by decide)

/-- R158: chained on a slave, a pass repeats its bits before `LASTDISC`. -/
theorem Resolved.repeats (h : Resolved slaves s t u) (hw : w ∈ slaves) (hbuf : AgreeBelow 65 s.found w)
    (hp : p ≤ s.lastDisc.toNat) (h65 : p ≤ 65) : AgreeBelow p u w := by
  induction p with
  | zero => exact fun q _ hq => absurd hq (Nat.not_lt_zero q)
  | succ p ih =>
    have hwu := ih (by omega) (by omega)
    rcases Nat.eq_zero_or_pos p with rfl | h1
    · exact fun q h1 hq => absurd hq (by omega)
    · refine hwu.succ ?_
      rw [h.decides p h1 (by omega)]
      by_cases hpair : s.pairAt p = (false, false)
      · rw [decides_before_last hpair (by omega), hbuf p h1 (by omega)]
      · exact decides_of_agreed (h.ideal.agreed h1 (by omega) hpair hw hwu)

/-- R156, R161: chained on a slave and an open branch beside it, a pass takes that branch. -/
theorem Resolved.branches (h : Resolved slaves s t u) (hw : w ∈ slaves) (hbuf : AgreeBelow 65 s.found w)
    (hd : OpenBranch slaves w s.lastDisc.toNat) :
    AgreeBelow s.lastDisc.toNat u w ∧ u s.lastDisc.toNat = true := by
  obtain ⟨h1, h64, hw0, v, hv, hvw, hv1⟩ := hd
  have huw := h.repeats hw hbuf (Nat.le_refl _) (by omega)
  have hpair := h.discrepancy h1 h64 hw hv huw (huw.trans hvw) hw0 hv1
  exact ⟨huw, (h.decides _ h1 h64).trans (decides_at_last hpair rfl)⟩

/-- R166: chained on a slave and its cursor, a pass finds no slave beyond the next one. -/
theorem Resolved.next (h : Resolved slaves s t u) (huw : AgreeBelow s.lastDisc.toNat u w)
    (hcur : ∀ p, OpenBranch slaves w p → p ≤ s.lastDisc.toNat) (hv : v ∈ slaves) (hwv : LexBefore w v) :
    ¬ LexBefore v u := by
  rintro ⟨q, hq1, hq64, hvu, hv0, hu1⟩
  obtain ⟨p, hp1, hp64, hvw, hw0, hv1⟩ := hwv
  have hp := hcur p ⟨hp1, hp64, hw0, v, hv, hvw, hv1⟩
  have hq := h.parts_le hq1 hq64 hv hvu.symm hv0 hu1
  rcases Nat.lt_trichotomy p q with hlt | rfl | hgt
  · rw [hvu p hp1 hlt, huw p hp1 (by omega), hw0] at hv1
    cases hv1
  · exact absurd (hv0.symm.trans hv1) nofun
  · rw [← hvw q hq1 hgt, ← huw q hq1 (by omega), hu1] at hv0
    cases hv0

end

/-- R161: beside a slave with no open branch there is no later one. -/
theorem last_of_isCursor_zero {slaves : List (Nat → Bool)} {w v : Nat → Bool} (h : IsCursor slaves w 0)
    (hv : v ∈ slaves) : ¬ LexBefore w v := by
  rintro ⟨p, h1, h64, hvw, hw0, hv1⟩
  obtain ⟨hmax, -⟩ := h
  have hle := hmax p ⟨h1, h64, hw0, v, hv, hvw, hv1⟩
  omega

/-- Settles O39: the pass resolves a slave, from 0 the first and from a cursor the next, and the cursor beside it. -/
theorem searchEnumerates : Obligations.SearchEnumerates := by
  intro s slaves hr hideal
  have hexec : exec .search s = .next (runCommand .search s) := exec_legal rfl nofun
  have hans := hideal _ hexec
  refine ⟨fun hl hne => ?_, fun w hw hbuf hcur hl => ?_, fun w hw v hv => last_of_isCursor_zero hw hv⟩
  · obtain ⟨u, hu⟩ := hans.resolved hr hne
    exact ⟨_, u, hu.mem, hexec, hu.completed.nf, fun p h1 h64 => hu.found p h1 (by omega),
      fun v hv => hu.first hl hv, hu.isCursor⟩
  · obtain ⟨u, hu⟩ := hans.resolved hr (List.ne_nil_of_mem hw)
    obtain ⟨hmax, hcursor⟩ := hcur
    have hopen : OpenBranch slaves w s.lastDisc.toNat := hcursor.resolve_left fun h0 => hl (BitVec.eq_of_toNat_eq h0)
    obtain ⟨huw, hu1⟩ := hu.branches hw (fun p h1 hp => hbuf p h1 (by omega)) hopen
    obtain ⟨h1, h64, hw0, -⟩ := hopen
    exact ⟨_, u, hu.mem, hexec, hu.completed.nf, fun p hp1 hp64 => hu.found p hp1 (by omega),
      ⟨_, h1, h64, huw.symm, hw0, hu1⟩, fun v hv hwv => hu.next huw hmax hv hwv, hu.isCursor⟩

end Sys2Proof.Machine
end

section
/-!
SUPPORT. The CRC function (45_crc8.md): a step tests data and seed only by their XOR (R175, R177), so a byte acts by its
XOR with the seed; and it loses nothing of the seed. The self-check (R179) and the sensitivity (R180) follow.
-/

namespace Sys2Proof.Machine

/-! ## One step -/

theorem and_one_eq_one_iff (v : Byte) : v &&& 0x01 = 0x01 ↔ v.getLsbD 0 = true := by
  have h : v &&& 0x01 = (BitVec.ofBool (v.getLsbD 0)).setWidth 8 := BitVec.and_one_eq_setWidth_ofBool_getLsbD
  rw [h]
  cases v.getLsbD 0 <;> decide

/-- R176, R177: the shift turns 0x18 into 0x0C and leaves bit 7 at 0, so setting that bit is XOR with 0x80. -/
theorem shiftRight_xor_poly (s : Byte) :
    ((s ^^^ Config.crcPoly) >>> 1) ||| (0x80 : Byte) = (s >>> 1) ^^^ (0x8C : Byte) := by
  have hset : ∀ u : Byte, u.msb = false → u ||| 0x80 = u ^^^ 0x80 := by decide
  calc ((s ^^^ Config.crcPoly) >>> 1) ||| (0x80 : Byte)
      = ((s ^^^ Config.crcPoly) >>> 1) ^^^ (0x80 : Byte) := hset _ (by simp [BitVec.msb_ushiftRight])
    _ = (s >>> 1) ^^^ (Config.crcPoly >>> 1) ^^^ (0x80 : Byte) := by rw [BitVec.ushiftRight_xor_distrib]
    _ = (s >>> 1) ^^^ (0x8C : Byte) := BitVec.xor_assoc ..

/-- R177: the closed form of a step. -/
theorem crcStep_eq (d s : Byte) :
    crcStep d s = if (d ^^^ s).getLsbD 0 then (s >>> 1) ^^^ 0x8C else s >>> 1 :=
  ite_congr (propext (and_one_eq_one_iff _)) (fun _ => shiftRight_xor_poly s) fun _ => rfl

/-- Both cases of a step shift the seed, and which it is depends on data XOR seed alone. -/
theorem crcStep_xor (d s : Byte) : (d >>> 1) ^^^ crcStep d s = crcStep 0x00 (d ^^^ s) := by
  have h0 : (0x00 : Byte) ^^^ (d ^^^ s) = d ^^^ s := BitVec.zero_xor
  rw [crcStep_eq, crcStep_eq, h0, BitVec.ushiftRight_xor_distrib]
  split
  · exact (BitVec.xor_assoc ..).symm
  · rfl

/-- Bit 7 of the new seed, 0 after the shift, tells which case it was. -/
theorem crcStep_msb (d s : Byte) : (crcStep d s).msb = (d ^^^ s).getLsbD 0 := by
  rw [crcStep_eq]
  split
  case isTrue h => rw [BitVec.msb_xor, BitVec.msb_ushiftRight, h]; rfl
  case isFalse h => rw [BitVec.msb_ushiftRight, Bool.eq_false_iff.2 h]; rfl

/-- A step loses nothing: bit 7 gives back the bit 0 shifted out, and undoing the XOR the seven bits above. -/
theorem crcStep_seed_inj {d s t : Byte} (h : crcStep d s = crcStep d t) : s = t := by
  have hbit : (d ^^^ s).getLsbD 0 = (d ^^^ t).getLsbD 0 := by rw [← crcStep_msb, h, crcStep_msb]
  have hshift : s >>> 1 = t >>> 1 := by
    rw [crcStep_eq, crcStep_eq, hbit] at h
    split at h
    · exact (BitVec.xor_left_inj _).1 h
    · exact h
  refine BitVec.eq_of_getLsbD_eq fun
    | 0, _ => by simpa using hbit
    | i + 1, _ => ?_
  have hi := congrArg (·.getLsbD i) hshift
  simpa [Nat.add_comm] using hi

/-! ## Eight steps -/

theorem crcSteps_eq_foldl (n : Nat) (d s : Byte) :
    crcSteps n d s = (List.range n).foldl (fun s j => crcStep (d >>> j) s) s := by
  induction n generalizing d s with
  | zero => rfl
  | succ n ih =>
    simp only [crcSteps, ih, List.range_succ_eq_map, List.foldl_cons, List.foldl_map, Nat.succ_eq_one_add,
      BitVec.shiftRight_add, BitVec.ushiftRight_zero]

theorem crcSteps_xor (n : Nat) (d s : Byte) : (d >>> n) ^^^ crcSteps n d s = crcSteps n 0x00 (d ^^^ s) := by
  induction n generalizing d s with
  | zero => rw [BitVec.ushiftRight_zero]; rfl
  | succ n ih =>
    calc (d >>> (n + 1)) ^^^ crcSteps (n + 1) d s
        = (d >>> 1 >>> n) ^^^ crcSteps n (d >>> 1) (crcStep d s) := by
          rw [← BitVec.shiftRight_add, Nat.add_comm 1]; rfl
      _ = crcSteps n 0x00 (crcStep 0x00 (d ^^^ s)) := by rw [ih, crcStep_xor]
      _ = crcSteps (n + 1) 0x00 (d ^^^ s) := rfl

theorem crcSteps_seed_inj {n : Nat} {d s t : Byte} (h : crcSteps n d s = crcSteps n d t) : s = t := by
  induction n generalizing d s t with
  | zero => exact h
  | succ n ih => exact crcStep_seed_inj (ih h)

/-- R175: the eight steps see the byte only by its XOR with the seed; all of its bits are shifted out. -/
theorem crc8_eq_xor (d s : Byte) : crc8 d s = crc8 0x00 (d ^^^ s) := by
  have hout : d >>> 8 = 0#8 := BitVec.ushiftRight_eq_zero (Nat.le_refl 8)
  have h := crcSteps_xor 8 d s
  rwa [hout, BitVec.zero_xor] at h

theorem crc8_seed_inj {d s t : Byte} (h : crc8 d s = crc8 d t) : s = t := crcSteps_seed_inj h

theorem crc8_data_inj {d e s : Byte} (h : crc8 d s = crc8 e s) : d = e := by
  rw [crc8_eq_xor d, crc8_eq_xor e] at h
  exact (BitVec.xor_left_inj s).1 (crc8_seed_inj h)

/-- R179: a byte folded into itself gives 0, as the byte 0 does into the seed 0. -/
theorem crc8_self (v : Byte) : crc8 v v = 0x00 := by
  rw [crc8_eq_xor, BitVec.xor_self]
  rfl

/-! ## The fold -/

theorem crcFold_append (s : Byte) (b c : List Byte) : crcFold s (b ++ c) = crcFold (crcFold s b) c := by
  induction b generalizing s with
  | nil => rfl
  | cons x b ih => exact ih _

theorem crcFold_seed_inj {b : List Byte} {s t : Byte} (h : crcFold s b = crcFold t b) : s = t := by
  induction b generalizing s t with
  | nil => exact h
  | cons x b ih => exact crc8_seed_inj (ih h)

/-- R180: the fold tells buffers apart that differ in one byte. -/
theorem crcFold_set_inj {b : List Byte} {j : Nat} {s x y : Byte} (hx : b[j]? = some x)
    (h : crcFold s (b.set j y) = crcFold s b) : y = x := by
  induction b generalizing j s with
  | nil => cases hx
  | cons z b ih =>
    cases j with
    | zero =>
      cases hx
      exact crc8_data_inj (crcFold_seed_inj h)
    | succ j => exact ih hx h

theorem flipBit_ne (x : Byte) (k : Fin 8) : x ^^^ (1 <<< k.val) ≠ x := by
  have hmask : ∀ k : Fin 8, (1 <<< k.val : Byte) ≠ 0#8 := by decide
  intro h
  exact hmask k ((BitVec.xor_right_inj x).1 (h.trans BitVec.xor_zero.symm))

/-- R179: on the block the fold runs in `CRC`, and `ARG` is left at the last byte. -/
theorem hostFold_eq (bs : List Byte) (s : State) :
    hostFold bs s = .next { s with crc := crcFold s.crc bs, arg := bs.getLastD s.arg } := by
  induction bs generalizing s with
  | nil => rfl
  | cons b bs ih =>
    rw [List.getLastD_cons]
    exact ih _

/-! ## The statements -/

/-- Settles O25: the appended byte is folded into itself. -/
theorem crcSelfCheck : Obligations.CrcSelfCheck := by
  refine ⟨crc8_self, fun b => ?_⟩
  rw [crcFold_append]
  exact crc8_self _

/-- Settles O26: a fold of 0 on both sides would make the flipped byte the old one. -/
theorem crcSensitivity : Obligations.CrcSensitivity :=
  fun _ _ k x h0 hx h => flipBit_ne x k (crcFold_set_inj hx (h.trans h0.symm))

/-- Settles O27, with `ARG` at the last byte. -/
theorem crcFoldOnBlock : Obligations.CrcFoldOnBlock :=
  fun bs s => ⟨_, hostFold_eq bs (regWrite 0x4 0x00 s), rfl, rfl⟩

/-- Settles O23: the command is the record update of R178. -/
theorem crc8Step : Obligations.Crc8Step := ⟨decodeByte_encodeByte .crc8, fun _ => ⟨_, rfl, rfl, rfl⟩⟩

/-- Settles O24: the closed form of R177, and the data byte shifted right once more at each step. -/
theorem crcClosedForm : Obligations.CrcClosedForm := ⟨crcStep_eq, crcSteps_eq_foldl 8⟩

end Sys2Proof.Machine
end

section
/-!
SUPPORT. The idle block (70_reset_and_hazards.md R202): of the things a step can be, only the use of one `rst` level is
left.
-/

namespace Sys2Proof.Machine

/-- R202, R205: without a block reset or a request the action of an idle block uses up its `rst` level. -/
theorem step_no_request {s : State} (hb : s.busy = false) (hr : s.rstNow = false) (hh : s.host = []) :
    step s = .next (passRst s) := by
  obtain ⟨hreset, -⟩ | ⟨-, hbusy, -⟩ | ⟨-, -, -, hstep⟩ | ⟨_, -, -, hpause, -⟩ | ⟨_, _, -, -, hrequest, -⟩ := step_cases s
  · cases hr.symm.trans hreset
  · cases hb.symm.trans hbusy
  · exact hstep
  · cases hh.symm.trans hpause
  · cases hh.symm.trans hrequest

/-- Settles O9: passing the `rst` level is the record update of the statement. -/
theorem blockIdles : Obligations.BlockIdles := fun _ => step_no_request

end Sys2Proof.Machine
end

section
/-!
SUPPORT. Reset and the ends of a command (70_reset_and_hazards.md): the state block reset leaves (R205), a command cut
at any primitive (R207), the end at rest of every command (R210, R113), and the length of every command (R228).
-/

namespace Sys2Proof.Machine

/-! ## The state after block reset -/

/-- R40, R52: every host address reads 0x00 after reset. -/
theorem regRead_reset : ∀ a, regRead a State.reset = 0x00 := by decide

/-- R205: a later block reset leaves the registers of the state at power-up. -/
theorem regRead_blockReset (a : Addr) (s : State) : regRead a (blockReset s) = 0x00 :=
  (regRead_congr (fun _ => rfl) (fun _ => rfl) (fun _ => ⟨rfl, rfl, rfl⟩) (fun _ => rfl) (fun _ => rfl)
    (fun _ => rfl) fun _ => rfl).trans (regRead_reset a)

theorem blockReset_ended (s : State) : Ended (blockReset s) := ⟨rfl, rfl, rfl, rfl, rfl, rfl, rfl, rfl⟩

/-- R194, R207: block reset comes before the engine and the host. -/
theorem step_of_rst {s : State} (h : s.rstNow = true) : step s = .next (blockReset s) := by
  rcases step_cases s with ⟨-, he⟩ | ⟨hf, -⟩ | ⟨hf, -⟩ | ⟨_, hf, -⟩ | ⟨_, _, hf, -⟩
  · exact he
  all_goals cases h.symm.trans hf

/-- Settles O48: at power-up by evaluation, in a step with `rst` asserted by the fields of `blockReset` (the name
`blockReset` itself is the model's). -/
theorem step_blockReset : Obligations.BlockReset := by
  refine ⟨⟨regRead_reset, rfl, rfl, rfl, ⟨rfl, rfl, rfl, rfl, rfl, rfl, rfl, rfl⟩, rfl⟩, fun s h => ?_⟩
  exact ⟨blockReset s, step_of_rst h, fun a => regRead_blockReset a s, rfl, rfl, rfl, blockReset_ended s, rfl,
    (blockReset_gains s).trace⟩

/-! ## A command cut by a block reset -/

/-- R55, R205: an engine still running after `n` steps that no block reset cuts has used up `n` levels of `rst`, and
no request of the host. -/
theorem runEngine_running {n : Nat} {s : State} (hr : NoReset n s) (hb : (runEngine n s).busy = true) :
    (runEngine n s).rst = s.rst.drop n ∧ (runEngine n s).host = s.host := by
  induction n generalizing s with
  | zero => exact ⟨rfl, rfl⟩
  | succ n ih =>
    have hr0 := noReset_zero_rstNow hr
    have hstep : (engineStep s).rst = s.rst.tail := (engineStep_frame hr0).rst.trans List.drop_one
    unfold runEngine at hb ⊢
    split at hb
    next hs =>
      rw [if_pos hs]
      obtain ⟨hrst, hhost⟩ := ih (noReset_tail hr hstep) hb
      exact ⟨by rw [hrst, hstep, List.drop_tail], hhost.trans (engineStep_port hr0).1⟩
    next hs => exact absurd hb hs

theorem rstNow_of_drop {s u : State} {n : Nat} (h : u.rst = s.rst.drop n) (hn : s.rst[n]? = some true) :
    u.rstNow = true := by
  obtain ⟨hlt, hv⟩ := List.getElem?_eq_some_iff.1 hn
  rw [State.rstNow, h, List.drop_eq_getElem_cons hlt]
  exact hv

/-- R207: the step at which the running engine meets a block reset is its last. -/
theorem runEngine_of_rst {n : Nat} {s : State} (hb : s.busy = true) (h : s.rstNow = true) :
    runEngine (n + 1) s = blockReset s := by
  rw [runEngine, if_pos hb, engineStep_of_rst h, runEngine_idle rfl]

/-- R207: a command cut after `n` primitives is those primitives and the block reset. -/
theorem runCommand_of_rst {op : Op} {s : State} {n : Nat} (hn : n < 1456)
    (hb : (runEngine n (launch op s)).busy = true) (h : (runEngine n (launch op s)).rstNow = true) :
    runCommand op s = blockReset (runEngine n (launch op s)) := by
  rw [runCommand, show Config.maxPrimitives = n + (1455 - n + 1) by simp only [Config.maxPrimitives]; omega,
    runEngine_add, runEngine_of_rst hb h]

/-- Settles O49: the engine still runs when the block reset falls, so the command is `blockReset` of its state there. -/
theorem resetMidCommand : Obligations.ResetMidCommand := by
  intro i op s n hop hl hr hn hlt hb
  obtain ⟨hrst, hhost⟩ := runEngine_running (s := launch op s) hr hb
  have hcut := runCommand_of_rst hlt hb (rstNow_of_drop (s := s) hrst hn)
  refine ⟨blockReset (runEngine n (launch op s)), hcut ▸ exec_legal hop hl, (blockReset_gains _).trace,
    fun a => regRead_blockReset a _, blockReset_ended _, ?_, ?_⟩
  · rw [blockReset_host, hhost, launch_host]
  · rw [blockReset_rst, hrst, launch_rst, List.tail_drop]

/-! ## Every command ends at rest -/

/-- The engine is at rest, or runs a command inside a slot, with the line released from the slot's `REL` on. Unlike
`LineInv` it says nothing of the line before `REL`, so a launch meets it from every state. -/
def EndsReleased (s : State) : Prop :=
  (s.busy = false → Ended s) ∧
  (s.busy = true → s.op ≠ .idle ∧ s.ph.val < slotLengthAt s ∧ (3 < s.ph.val → s.drv = false))

theorem launch_endsReleased {op : Op} (h : op ≠ .idle) (s : State) : EndsReleased (launch op s) :=
  ⟨nofun, fun _ => ⟨h, slotLengthAt_pos h, nofun⟩⟩

theorem blockReset_endsReleased (s : State) : EndsReleased (blockReset s) := ⟨fun _ => blockReset_ended s, nofun⟩

/-- R107, R108, R130: `REL` is a slot's fourth primitive and no later one drives the line; `ATOM-` is its last. -/
theorem primAt_released {slot : Slot} {s : State} (hp : s.ph.val < slotLength slot)
    (hdrv : 3 < s.ph.val → s.drv = false) :
    (3 < s.ph.val + 1 → (primAt slot s).drv = false) ∧
      (s.ph.val + 1 = slotLength slot → (primAt slot s).atom = false) := by
  unfold primAt
  generalize s.ph.val = n at *
  cases slot with
  | write v =>
    simp only [slotLength] at hp ⊢
    cases v <;> interval_cases n <;> simp_all [Slot.prims, doPrim]
  | read | reset =>
    simp only [slotLength] at hp ⊢
    interval_cases n <;> simp_all [Slot.prims, doPrim]

/-- R113: what follows a slot is the next slot of the command, or its end with the line released. -/
theorem slotNext_endsReleased {s : State} (hb : s.busy = true) (hop : s.op ≠ .idle) (hph : s.ph = 0)
    (hdrv : s.drv = false) (hatom : s.atom = false) : EndsReleased (slotNext s) := by
  rcases slotNext_between s with hsame | ⟨u, he, hsame⟩
  · have hop' : (slotNext s).op ≠ .idle := hsame.op ▸ hop
    refine ⟨fun hf => absurd (hsame.busy.trans hb) (Bool.eq_false_iff.1 hf), fun _ => ⟨hop', ?_, fun _ => ?_⟩⟩
    · rw [hsame.ph, hph]
      exact slotLengthAt_pos hop'
    · exact hsame.drv.trans hdrv
  · rw [he]
    exact ⟨fun _ => endCommand_ended (hsame.drv.trans hdrv) (hsame.atom.trans hatom), nofun⟩

theorem enginePrim_endsReleased {s : State} (hb : s.busy = true) (h : EndsReleased s) :
    EndsReleased (enginePrim s) := by
  obtain ⟨hop, hp, hdrv⟩ := h.2 hb
  obtain ⟨slot, hs⟩ := Option.isSome_iff_exists.1 ((slotOf_isSome_iff s).2 hop)
  have hlen := slotLengthAt_of_slot hs
  rw [hlen] at hp
  obtain ⟨hdrv', hatom'⟩ := primAt_released hp hdrv
  obtain ⟨hb', hop', hstg'⟩ := primAt_sequencer slot s
  obtain ⟨hmin, hmax⟩ := slotLength_bounds slot
  rw [enginePrim_of_slot hs]
  split
  next hlt =>
    have hph : (s.ph + 1).val = s.ph.val + 1 := by rw [Fin.val_add]; simp; omega
    have hlen' : slotLengthAt { primAt slot s with ph := s.ph + 1 } = slotLength slot :=
      (slotLengthAt_congr hop' hstg').trans hlen
    refine ⟨fun hf => absurd (hb'.trans hb) (Bool.eq_false_iff.1 hf), fun _ => ⟨hop' ▸ hop, ?_⟩⟩
    rw [hlen']
    simp only [hph]
    exact ⟨hlt, hdrv'⟩
  next hge =>
    exact slotNext_endsReleased (hb'.trans hb) (hop' ▸ hop) rfl (hdrv' (by omega)) (hatom' (by omega))

/-- R207, R210: every step of the running engine, a block reset too. -/
theorem engineStep_endsReleased {s : State} (hb : s.busy = true) (h : EndsReleased s) :
    EndsReleased (engineStep s) := by
  cases hr : s.rstNow with
  | true => exact engineStep_of_rst hr ▸ blockReset_endsReleased s
  | false => exact engineStep_of_not_rst hr ▸ enginePrim_endsReleased (s := passRst s) hb h

/-- R210, R113: a command ends at rest, from every state and whether a block reset cuts it or not. -/
theorem runCommand_ended {op : Op} (h : op ≠ .idle) (s : State) : Ended (runCommand op s) := by
  obtain ⟨hend, -⟩ : EndsReleased (runCommand op s) :=
    runEngine_keeps (fun _ => engineStep_endsReleased) Config.maxPrimitives (launch_endsReleased h s)
  exact hend (engineTerminates (launch op s))

/-- Settles O53: the engine's run ends within 1456 primitives, at rest. -/
theorem everyCommandEnds : Obligations.EveryCommandEnds := fun _ op s hop hl =>
  ⟨runCommand op s, exec_legal hop hl, runCommand_ended (busOp_ne_idle hop) s⟩

/-! ## The length of a command -/

theorem micros_append (es fs : List Event) : micros (es ++ fs) = micros es + micros fs := by
  induction es with
  | nil => exact (Nat.zero_add _).symm
  | cons e es ih =>
    cases e with
    | dly n => rw [List.cons_append, micros, micros, ih, Nat.add_assoc]
    | atomBegin | low | rel | smp | atomEnd | rst => exact ih

/-- `es` is as long as `w` write slots and `r` read slots of the default table: a bit slot takes 70 us (R228). -/
def BitSlots (w r : Nat) (es : List Event) : Prop := es.length = 6 * w + 8 * r ∧ micros es = 70 * (w + r)

theorem BitSlots.append {w r w' r' : Nat} {es fs : List Event} (h : BitSlots w r es) (h' : BitSlots w' r' fs) :
    BitSlots (w + w') (r + r') (es ++ fs) := by
  obtain ⟨hlen, hus⟩ := h
  obtain ⟨hlen', hus'⟩ := h'
  rw [BitSlots, List.length_append, micros_append]
  omega

theorem BitSlots.flatMap {α : Type} {w r : Nat} {f : α → List Event} (h : ∀ a, BitSlots w r (f a)) (l : List α) :
    BitSlots (l.length * w) (l.length * r) (l.flatMap f) := by
  induction l with
  | nil => simp [BitSlots, micros]
  | cons a l ih => simpa [Nat.succ_mul, Nat.add_comm] using (h a).append ih

section
variable {t : SlotTable} (ht : t = Config.defaultTimes.toTable)
include ht

theorem writeEvents_bitSlots (v : Bool) : BitSlots 1 0 (writeEvents t v) := by
  subst ht
  cases v <;> exact ⟨rfl, rfl⟩

theorem readEvents_bitSlots (v : Bool) : BitSlots 0 1 (readEvents t v) := by
  subst ht
  exact ⟨rfl, rfl⟩

theorem byteEvents_bitSlots (b : Byte) : BitSlots 8 0 (byteEvents t b) :=
  .flatMap (fun _ => writeEvents_bitSlots ht _) (List.range 8)

theorem romEvents_bitSlots (rom : Vector Byte 8) : BitSlots 64 0 (romEvents t rom) :=
  .flatMap (fun _ => writeEvents_bitSlots ht _) (List.range 64)

theorem readsEvents_bitSlots (f : Nat → Bool) (n : Nat) : BitSlots 0 n (readsEvents t f n) := by
  simpa [readsEvents] using BitSlots.flatMap (fun j => readEvents_bitSlots ht (f j)) (List.range n)

/-- R165: a pass over `n` positions is three slots a position where it completes; where it fails it is those of `k`
positions and the two reads of the next, which were (1,1). -/
theorem refPass_bitSlots (o : ByteOrder) (last n p : Nat) (f : Nat → Bool) (rom : Vector Byte 8) (nd : Byte) :
    ((refPass o t last n p f rom nd).newDisc.isNone = false →
      BitSlots n (2 * n) (refPass o t last n p f rom nd).events) ∧
    ((refPass o t last n p f rom nd).newDisc.isNone = true → ∃ k, k < n ∧ f (2 * k) = true ∧ f (2 * k + 1) = true ∧
      BitSlots k (2 * (k + 1)) (refPass o t last n p f rom nd).events) := by
  induction n generalizing p f rom nd with
  | zero => exact ⟨fun _ => ⟨rfl, rfl⟩, nofun⟩
  | succ n ih =>
    have hreads := (readEvents_bitSlots ht (f 0)).append (readEvents_bitSlots ht (f 1))
    by_cases h : f 0 = true ∧ f 1 = true
    · rw [refPass_abort _ _ _ _ _ _ _ _ h.1 h.2]
      exact ⟨nofun, fun _ => ⟨0, Nat.succ_pos n, h.1, h.2, hreads⟩⟩
    · rw [refPass_succ _ _ _ _ _ _ _ _ h]
      have hslots := fun v => hreads.append (writeEvents_bitSlots ht v)
      refine ⟨fun hsome => ?_, fun hnone => ?_⟩
      · convert (hslots _).append ((ih ..).1 hsome) using 1 <;> omega
      · obtain ⟨k, hk, h0, h1, hrest⟩ := (ih ..).2 hnone
        refine ⟨k + 1, Nat.succ_lt_succ hk, h0, h1, ?_⟩
        convert (hslots _).append hrest using 1 <;> omega

end

/-- Settles O46: a bus command's events are those of `runCommand_observed`, bit slots but for RESET. -/
theorem commandLengths : Obligations.CommandLengths := by
  intro i op s hop hl hr ht
  have hobs := runCommand_observed hop hr
  have hsend := byteEvents_bitSlots ht
  refine ⟨runCommand op s, commandEvents i s, exec_legal hop hl, hobs.trace, ?_, ?_, ?_, ?_, ?_, ?_, ?_, ?_, ?_⟩
  · rintro rfl
    exact writeEvents_bitSlots ht (argBit s)
  · rintro rfl
    exact readEvents_bitSlots ht (s.envAt 0)
  · rintro (rfl | rfl)
    · exact hsend s.arg
    · exact hsend s.params.cmdSkipRom
  · rintro rfl
    exact readsEvents_bitSlots ht s.envAt 8
  · rintro rfl
    rw [commandEvents, ht]
    exact ⟨rfl, rfl⟩
  · rintro rfl
    exact (hsend s.params.cmdReadRom).append (readsEvents_bitSlots ht s.envAt 64)
  · rintro rfl
    exact (hsend s.params.cmdMatchRom).append (romEvents_bitSlots ht s.rom)
  · rintro rfl hnf
    obtain ⟨-, -, hfail⟩ := hobs.search
    exact (hsend s.params.cmdSearchRom).append ((refPass_bitSlots ht ..).1 (hfail.symm.trans hnf))
  · rintro rfl hnf
    obtain ⟨-, -, hfail⟩ := hobs.search
    obtain ⟨k, hk, h0, h1, hpass⟩ := (refPass_bitSlots ht ..).2 (hfail.symm.trans hnf)
    obtain ⟨hlen, hus⟩ := (hsend s.params.cmdSearchRom).append hpass
    refine ⟨k + 1, Nat.succ_pos k, hk, Prod.ext h0 h1, hlen.trans ?_, hus.trans ?_⟩ <;> omega

end Sys2Proof.Machine
end
